-- ==== Sys2Proof/Word.lean ====
section
/-! DEFINITION. The word types of HUFFBLK: 32-bit port data, 8-bit bytes, symbols and node indexes, 9-bit child
references, and the bit sequences of `00_scope.md` R14. -/

namespace Sys2Proof

/-- Port data, command words and counters (`00_scope.md` R12). -/
abbrev Word := BitVec 32

/-- An output byte, a symbol, a node index or a byte offset of the port. -/
abbrev Byte := BitVec 8

/-- A child reference (`10_state.md` R41): bit 8 is LEAF, bits 7..0 a symbol or a node index. -/
abbrev Ref := BitVec 9

/-- A bit sequence, first bit first (`00_scope.md` R14). -/
abbrev Bits := List Bool

end Sys2Proof
end

