-- ==== Sys2Proof/Config.lean ====
section
/-! DEFINITION. What an implementation of HUFFBLK fixes (`00_scope.md`, section 4): the two queue depths. The spec
leaves no result of an instruction open, so there is no free value here. -/

namespace Sys2Proof

/-- The named parameters of `00_scope.md` R10 and R11: the capacities of the two output queues, each shared by
committed and pending entries. -/
structure Config where
  encDepth : Nat
  decDepth : Nat
  deriving DecidableEq, Repr

/-- The range R10 and R11 give each depth: an integer in `1..2^24`. -/
abbrev Config.Valid (c : Config) : Prop :=
  (1 ≤ c.encDepth ∧ c.encDepth ≤ 2 ^ 24) ∧ (1 ≤ c.decDepth ∧ c.decDepth ≤ 2 ^ 24)

/-- The depths the spec's vectors use "unless they say otherwise" (R10, R11). DESIGN CHOICE (log 5, unsafe): the depths
of the state after reset; no statement rests on them. -/
def Config.vectors : Config := { encDepth := 4096, decDepth := 4096 }

/-- `N_SYM` (R7): the symbols are the bytes. -/
abbrev numSymbols : Nat := 256

/-- `L_MAX` (R8): the longest codeword the block stores. -/
abbrev maxCodewordLen : Nat := 255

/-- `N_NODE` (R9): the entries of the node table. -/
abbrev numNodes : Nat := 256

end Sys2Proof
end

