-- ==== Sys2Proof/Syntax.lean ====
section
/-! DEFINITION. The instructions of HUFFBLK: the 17 command words of `30_encoding.md` R91 and the 28 register accesses
of `45_register_access.md`, one constructor per row of `spec/opcode_table.json`. -/

namespace Sys2Proof

/-- One constructor per row of the opcode table. An access keeps the whole byte offset the host gave (the row's operand
ADDR): `WellFormed` says which offsets belong to the row. A write also carries its write data. -/
inductive Instr where
  -- commands (`30_encoding.md` R91)
  | nop
  | reset
  | clrErr
  | cwDef (sym : Byte) (v : Bool) (len : Byte)
  | cwBits (sym : Byte) (idx : BitVec 5) (data : Byte)
  | nodeL (node : Byte) (leaf : Bool) (ref : Byte)
  | nodeR (node : Byte) (leaf : Bool) (ref : Byte)
  | treeRoot (leaf : Bool) (ref : Byte)
  | lock
  | unlock
  | encStart
  | encSym (sym : Byte)
  | encEnd
  | encAbort
  | decStart
  | decByte (last : Bool) (byte : Byte)
  | decAbort
  -- reads (`45_register_access.md`, section 1)
  | rdId (addr : Byte)
  | rdCmd (addr : Byte)
  | rdStatus (addr : Byte)
  | rdEncOut (addr : Byte)
  | rdDecOut (addr : Byte)
  | rdEncNsym (addr : Byte)
  | rdEncNbits (addr : Byte)
  | rdEncErrsym (addr : Byte)
  | rdDecNsym (addr : Byte)
  | rdDecNbits (addr : Byte)
  | rdDegCount (addr : Byte)
  | rdEncOlevel (addr : Byte)
  | rdDecOlevel (addr : Byte)
  | rdEncCap (addr : Byte)
  | rdDecCap (addr : Byte)
  | rdRsvd3C (addr : Byte)
  | rdRsvd40 (addr : Byte)
  | rdRsvd80 (addr : Byte)
  -- writes (`45_register_access.md`, section 2)
  | wrCmd (addr : Byte) (wdata : Word)
  | wrDegCount (addr : Byte) (wdata : Word)
  | wrIgnored00 (addr : Byte) (wdata : Word)
  | wrIgnored08 (addr : Byte) (wdata : Word)
  | wrIgnored10 (addr : Byte) (wdata : Word)
  | wrIgnored20 (addr : Byte) (wdata : Word)
  | wrIgnored2C (addr : Byte) (wdata : Word)
  | wrIgnored30 (addr : Byte) (wdata : Word)
  | wrIgnored40 (addr : Byte) (wdata : Word)
  | wrIgnored80 (addr : Byte) (wdata : Word)
  deriving DecidableEq, Repr

end Sys2Proof
end

