-- ==== Sys2Proof/WellFormed.lean ====
section
/-! DEFINITION. Which instructions the encoding of `30_encoding.md` can express. Every operand value of a command is
legal (R90); an access is well formed when its offset is one its descriptor row covers (R93). -/

namespace Sys2Proof

/-- The offset `addr` is one that a row with these low eight match and mask bits covers (`30_encoding.md` R93). -/
def offsetIn (pat mask addr : Byte) : Bool :=
  addr &&& mask == pat

/-- The encoding can express the instruction. -/
def Instr.wellFormed : Instr → Bool
  | .nop => true
  | .reset => true
  | .clrErr => true
  | .cwDef _ _ _ => true
  | .cwBits _ _ _ => true
  | .nodeL _ _ _ => true
  | .nodeR _ _ _ => true
  | .treeRoot _ _ => true
  | .lock => true
  | .unlock => true
  | .encStart => true
  | .encSym _ => true
  | .encEnd => true
  | .encAbort => true
  | .decStart => true
  | .decByte _ _ => true
  | .decAbort => true
  | .rdId a => offsetIn 0x00 0xFC a
  | .rdCmd a => offsetIn 0x04 0xFC a
  | .rdStatus a => offsetIn 0x08 0xFC a
  | .rdEncOut a => offsetIn 0x0C 0xFC a
  | .rdDecOut a => offsetIn 0x10 0xFC a
  | .rdEncNsym a => offsetIn 0x14 0xFC a
  | .rdEncNbits a => offsetIn 0x18 0xFC a
  | .rdEncErrsym a => offsetIn 0x1C 0xFC a
  | .rdDecNsym a => offsetIn 0x20 0xFC a
  | .rdDecNbits a => offsetIn 0x24 0xFC a
  | .rdDegCount a => offsetIn 0x28 0xFC a
  | .rdEncOlevel a => offsetIn 0x2C 0xFC a
  | .rdDecOlevel a => offsetIn 0x30 0xFC a
  | .rdEncCap a => offsetIn 0x34 0xFC a
  | .rdDecCap a => offsetIn 0x38 0xFC a
  | .rdRsvd3C a => offsetIn 0x3C 0xFC a
  | .rdRsvd40 a => offsetIn 0x40 0xC0 a
  | .rdRsvd80 a => offsetIn 0x80 0x80 a
  | .wrCmd a _ => offsetIn 0x04 0xFC a
  | .wrDegCount a _ => offsetIn 0x28 0xFC a
  | .wrIgnored00 a _ => offsetIn 0x00 0xFC a
  | .wrIgnored08 a _ => offsetIn 0x08 0xF8 a
  | .wrIgnored10 a _ => offsetIn 0x10 0xF0 a
  | .wrIgnored20 a _ => offsetIn 0x20 0xF8 a
  | .wrIgnored2C a _ => offsetIn 0x2C 0xFC a
  | .wrIgnored30 a _ => offsetIn 0x30 0xF0 a
  | .wrIgnored40 a _ => offsetIn 0x40 0xC0 a
  | .wrIgnored80 a _ => offsetIn 0x80 0x80 a

end Sys2Proof
end

