-- ==== Sys2Proof/Decode.lean ====
section
/-! DEFINITION. Decoding and encoding (`30_encoding.md`): the opcode map of R91 and the access descriptors of R93 as
rows of match and mask, the decoder that searches them, total on every word and every access, and the encoder. -/

namespace Sys2Proof

/-- A host access on the register port (`20_memory.md` R62): a read carries no write data. -/
inductive Access where
  | read (addr : Byte)
  | write (addr : Byte) (wdata : Word)
  deriving DecidableEq, Repr

/-- The two encodings of `30_encoding.md`: a 32-bit command word written to CMD, and a register access. -/
inductive Encoded where
  | command (w : Word)
  | access (a : Access)
  deriving DecidableEq, Repr

/-- Why a command word is illegal (`30_encoding.md` R95): its opcode is not in the opcode map, or a reserved bit of
its format is 1. -/
inductive Reject where
  | undefinedOpcode
  | reservedBits
  deriving DecidableEq, Repr

/-- A row of the opcode map (`30_encoding.md` R91): `w` encodes the command when `w & mask = pat` (R87). -/
structure CommandRow where
  pat : Word
  mask : Word
  build : Word → Instr

/-- A row of the access descriptors (`30_encoding.md` R93), over `we * 256 + addr`. -/
structure AccessRow where
  pat : BitVec 9
  mask : BitVec 9
  build : Byte → Word → Instr

/-! ## Fields of a command word (`30_encoding.md` R86) -/

/-- `OPC`, bits 31..24 of every format. -/
def opcField (w : Word) : Byte := w.extractLsb' 24 8

/-- `SYM` of formats D and K and `NODE` of format T: bits 23..16. -/
def highOperand (w : Word) : Byte := w.extractLsb' 16 8

/-- `LEN`, `DATA`, `REF`, `SYM` of format Y and `BYTE`: bits 7..0. -/
def lowOperand (w : Word) : Byte := w.extractLsb' 0 8

/-- `V` of format D: bit 15. -/
def vField (w : Word) : Bool := w.getLsbD 15

/-- `IDX` of format K: bits 15..11. -/
def idxField (w : Word) : BitVec 5 := w.extractLsb' 11 5

/-- `LEAF` of formats T and R and `LAST` of format B: bit 8. -/
def bit8Field (w : Word) : Bool := w.getLsbD 8

/-! ## The rows -/

/-- The opcode map, in the order of `30_encoding.md` R91. -/
def commandRows : List CommandRow :=
  [ ⟨0x00000000, 0xFFFFFFFF, fun _ => .nop⟩,
    ⟨0x01000000, 0xFFFFFFFF, fun _ => .reset⟩,
    ⟨0x02000000, 0xFFFFFFFF, fun _ => .clrErr⟩,
    ⟨0x10000000, 0xFF007F00, fun w => .cwDef (highOperand w) (vField w) (lowOperand w)⟩,
    ⟨0x11000000, 0xFF000700, fun w => .cwBits (highOperand w) (idxField w) (lowOperand w)⟩,
    ⟨0x18000000, 0xFF00FE00, fun w => .nodeL (highOperand w) (bit8Field w) (lowOperand w)⟩,
    ⟨0x19000000, 0xFF00FE00, fun w => .nodeR (highOperand w) (bit8Field w) (lowOperand w)⟩,
    ⟨0x1A000000, 0xFFFFFE00, fun w => .treeRoot (bit8Field w) (lowOperand w)⟩,
    ⟨0x20000000, 0xFFFFFFFF, fun _ => .lock⟩,
    ⟨0x21000000, 0xFFFFFFFF, fun _ => .unlock⟩ ] ++
  [ ⟨0x40000000, 0xFFFFFFFF, fun _ => .encStart⟩,
    ⟨0x41000000, 0xFFFFFF00, fun w => .encSym (lowOperand w)⟩,
    ⟨0x42000000, 0xFFFFFFFF, fun _ => .encEnd⟩,
    ⟨0x43000000, 0xFFFFFFFF, fun _ => .encAbort⟩,
    ⟨0x50000000, 0xFFFFFFFF, fun _ => .decStart⟩,
    ⟨0x51000000, 0xFFFFFE00, fun w => .decByte (bit8Field w) (lowOperand w)⟩,
    ⟨0x52000000, 0xFFFFFFFF, fun _ => .decAbort⟩ ]

/-- The read rows (`45_register_access.md` R196 to R210 and R214). -/
def readRows : List AccessRow :=
  [ ⟨0x000, 0x1FC, fun a _ => .rdId a⟩,
    ⟨0x004, 0x1FC, fun a _ => .rdCmd a⟩,
    ⟨0x008, 0x1FC, fun a _ => .rdStatus a⟩,
    ⟨0x00C, 0x1FC, fun a _ => .rdEncOut a⟩,
    ⟨0x010, 0x1FC, fun a _ => .rdDecOut a⟩,
    ⟨0x014, 0x1FC, fun a _ => .rdEncNsym a⟩,
    ⟨0x018, 0x1FC, fun a _ => .rdEncNbits a⟩,
    ⟨0x01C, 0x1FC, fun a _ => .rdEncErrsym a⟩,
    ⟨0x020, 0x1FC, fun a _ => .rdDecNsym a⟩,
    ⟨0x024, 0x1FC, fun a _ => .rdDecNbits a⟩,
    ⟨0x028, 0x1FC, fun a _ => .rdDegCount a⟩,
    ⟨0x02C, 0x1FC, fun a _ => .rdEncOlevel a⟩,
    ⟨0x030, 0x1FC, fun a _ => .rdDecOlevel a⟩,
    ⟨0x034, 0x1FC, fun a _ => .rdEncCap a⟩,
    ⟨0x038, 0x1FC, fun a _ => .rdDecCap a⟩,
    ⟨0x03C, 0x1FC, fun a _ => .rdRsvd3C a⟩,
    ⟨0x040, 0x1C0, fun a _ => .rdRsvd40 a⟩,
    ⟨0x080, 0x180, fun a _ => .rdRsvd80 a⟩ ]

/-- The write rows (`45_register_access.md` R211 to R213). -/
def writeRows : List AccessRow :=
  [ ⟨0x104, 0x1FC, .wrCmd⟩,
    ⟨0x128, 0x1FC, .wrDegCount⟩,
    ⟨0x100, 0x1FC, .wrIgnored00⟩,
    ⟨0x108, 0x1F8, .wrIgnored08⟩,
    ⟨0x110, 0x1F0, .wrIgnored10⟩,
    ⟨0x120, 0x1F8, .wrIgnored20⟩,
    ⟨0x12C, 0x1FC, .wrIgnored2C⟩,
    ⟨0x130, 0x1F0, .wrIgnored30⟩,
    ⟨0x140, 0x1C0, .wrIgnored40⟩,
    ⟨0x180, 0x180, .wrIgnored80⟩ ]

/-- Every access row of the opcode table. -/
def accessRows : List AccessRow := readRows ++ writeRows

/-! ## The decoder -/

/-- The row's match and mask take the word (`30_encoding.md` R87). -/
def CommandRow.hits (r : CommandRow) (w : Word) : Bool := w &&& r.mask == r.pat

/-- The row's match and mask take the descriptor (`30_encoding.md` R93). -/
def AccessRow.hits (r : AccessRow) (d : BitVec 9) : Bool := d &&& r.mask == r.pat

/-- Decode a command word: the one row that matches, or the reason it is illegal (`30_encoding.md` R92, R95). -/
def decodeCommand (w : Word) : Except Reject Instr :=
  match commandRows.find? (fun r => r.hits w) with
  | some r => .ok (r.build w)
  | none =>
    .error (if commandRows.any (fun r => opcField r.pat == opcField w) then .reservedBits else .undefinedOpcode)

/-- The 9-bit access descriptor `we * 256 + addr` (`30_encoding.md` R93). -/
def Access.descriptor : Access → BitVec 9
  | .read addr => 0#1 ++ addr
  | .write addr _ => 1#1 ++ addr

/-- The access's byte offset `addr[7:0]`. -/
def Access.addr : Access → Byte
  | .read addr => addr
  | .write addr _ => addr

/-- The access's write data; a read has none. -/
def Access.wdata : Access → Word
  | .read _ => 0
  | .write _ wdata => wdata

/-- Decode an access. The rows cover every descriptor (`45_register_access.md` R213, R214; proved in Laws/Decode.lean),
so the last line is never taken; a read of a reserved offset stands there to make the function total. -/
def decodeAccess (a : Access) : Instr :=
  match accessRows.find? (fun r => r.hits a.descriptor) with
  | some r => r.build a.addr a.wdata
  | none => .rdRsvd80 a.addr

/-- Decode either encoding; only a command word can be rejected. -/
def decode : Encoded → Except Reject Instr
  | .command w => decodeCommand w
  | .access a => .ok (decodeAccess a)

/-! ## The encoder, from the field diagrams of `30_encoding.md` R86 -/

/-- A field placed with its lowest bit at bit `lo` of a word. -/
def placeField {n : Nat} (x : BitVec n) (lo : Nat) : Word := x.setWidth 32 <<< lo

/-- Format N: the opcode alone. -/
def formatN (opc : Byte) : Encoded := .command (placeField opc 24)

/-- Format D: OPC, SYM, V at bit 15, LEN. -/
def formatD (opc sym : Byte) (v : Bool) (len : Byte) : Encoded :=
  .command (placeField opc 24 ||| placeField sym 16 ||| placeField (BitVec.ofBool v) 15 ||| placeField len 0)

/-- Format K: OPC, SYM, IDX at bits 15..11, DATA. -/
def formatK (opc sym : Byte) (idx : BitVec 5) (data : Byte) : Encoded :=
  .command (placeField opc 24 ||| placeField sym 16 ||| placeField idx 11 ||| placeField data 0)

/-- Format T: OPC, NODE, LEAF at bit 8, REF. -/
def formatT (opc node : Byte) (leaf : Bool) (ref : Byte) : Encoded :=
  .command (placeField opc 24 ||| placeField node 16 ||| placeField (BitVec.ofBool leaf) 8 ||| placeField ref 0)

/-- Formats R and B: OPC, LEAF or LAST at bit 8, REF or BYTE. -/
def formatRB (opc : Byte) (flag : Bool) (low : Byte) : Encoded :=
  .command (placeField opc 24 ||| placeField (BitVec.ofBool flag) 8 ||| placeField low 0)

/-- Format Y: OPC, SYM. -/
def formatY (opc sym : Byte) : Encoded := .command (placeField opc 24 ||| placeField sym 0)

/-- The encoding of an instruction: the command word of a command, the host access of a register access. -/
def encode : Instr → Encoded
  | .nop => formatN 0x00
  | .reset => formatN 0x01
  | .clrErr => formatN 0x02
  | .cwDef sym v len => formatD 0x10 sym v len
  | .cwBits sym idx data => formatK 0x11 sym idx data
  | .nodeL node leaf ref => formatT 0x18 node leaf ref
  | .nodeR node leaf ref => formatT 0x19 node leaf ref
  | .treeRoot leaf ref => formatRB 0x1A leaf ref
  | .lock => formatN 0x20
  | .unlock => formatN 0x21
  | .encStart => formatN 0x40
  | .encSym sym => formatY 0x41 sym
  | .encEnd => formatN 0x42
  | .encAbort => formatN 0x43
  | .decStart => formatN 0x50
  | .decByte last byte => formatRB 0x51 last byte
  | .decAbort => formatN 0x52
  | .rdId a => .access (.read a)
  | .rdCmd a => .access (.read a)
  | .rdStatus a => .access (.read a)
  | .rdEncOut a => .access (.read a)
  | .rdDecOut a => .access (.read a)
  | .rdEncNsym a => .access (.read a)
  | .rdEncNbits a => .access (.read a)
  | .rdEncErrsym a => .access (.read a)
  | .rdDecNsym a => .access (.read a)
  | .rdDecNbits a => .access (.read a)
  | .rdDegCount a => .access (.read a)
  | .rdEncOlevel a => .access (.read a)
  | .rdDecOlevel a => .access (.read a)
  | .rdEncCap a => .access (.read a)
  | .rdDecCap a => .access (.read a)
  | .rdRsvd3C a => .access (.read a)
  | .rdRsvd40 a => .access (.read a)
  | .rdRsvd80 a => .access (.read a)
  | .wrCmd a w => .access (.write a w)
  | .wrDegCount a w => .access (.write a w)
  | .wrIgnored00 a w => .access (.write a w)
  | .wrIgnored08 a w => .access (.write a w)
  | .wrIgnored10 a w => .access (.write a w)
  | .wrIgnored20 a w => .access (.write a w)
  | .wrIgnored2C a w => .access (.write a w)
  | .wrIgnored30 a w => .access (.write a w)
  | .wrIgnored40 a w => .access (.write a w)
  | .wrIgnored80 a w => .access (.write a w)

/-- The byte offset of CMD (`10_state.md` R23). -/
def cmdOffset : Byte := 0x04

/-- The host access that carries an encoding: "a bare command line means `WR CMD, <word>`" (`30_encoding.md` R98). -/
def Encoded.toAccess : Encoded → Access
  | .command w => .write cmdOffset w
  | .access a => a

/-! ## The opcode table's numbering (`spec/opcode_table.json`, log 13)

A command row has 32 bits; an access row has 9, given as 16 in whole bytes. -/

/-- The encoding that `nbits` bits with the value `w` stand for: at most 16 bits are an access descriptor, with write
data zero; more are a command word. None where `w` has a bit the encoding does not have. -/
def encodedOfBits (nbits w : Nat) : Option Encoded :=
  if nbits ≤ 16 then
    if w < 0x100 then some (.access (.read (BitVec.ofNat 8 w)))
    else if w < 0x200 then some (.access (.write (BitVec.ofNat 8 w) 0))
    else none
  else if w < 2 ^ 32 then some (.command (BitVec.ofNat 32 w))
  else none

/-- The instruction the decoder reads from a row's bits, numbered as the opcode table numbers them. -/
def decodeTableWord (nbits w : Nat) : Option Instr :=
  match encodedOfBits nbits w with
  | none => none
  | some e =>
    match decode e with
    | .ok i => some i
    | .error _ => none

end Sys2Proof
end

