-- ==== Sys2Proof/Machine/State.lean ====
section
/-! DEFINITION. The state of HUFFBLK (`10_state.md` R21), the reset values (R50), and the reasons a step can stop. -/

namespace Sys2Proof.Machine

/-- The state of a unit (`10_state.md` R46). The 2-bit value 3 "is never held", so it has no constructor (log 15). -/
inductive UnitState where
  | idle
  | active
  | error
  deriving DecidableEq, Repr

/-- The error codes of `10_state.md` R47. Codes 12 to 15 are "never produced" and have no constructor (log 15). -/
inductive ErrCode where
  | none
  | illegalCmd
  | tableLocked
  | busy
  | notLocked
  | sequence
  | unknownSymbol
  | overflow
  | malformedPadding
  | truncatedCode
  | tableError
  | excessBits
  deriving DecidableEq, Repr

/-- A codeword entry (`10_state.md` R40). Bit `i` of `bits` is the spec's `bits[i]`, the `i`-th codeword bit. -/
structure CodewordEntry where
  v : Bool
  len : Byte
  bits : BitVec 256
  deriving DecidableEq, Repr

/-- A node entry (`10_state.md` R42). -/
structure NodeEntry where
  lv : Bool
  l : Ref
  rv : Bool
  r : Ref
  deriving DecidableEq, Repr

/-- The root register (`10_state.md` R43). -/
structure Root where
  v : Bool
  leaf : Bool
  val : Byte
  deriving DecidableEq, Repr

/-- What a codeword entry holds after reset (`10_state.md` R50): `v = 0`. `len` and `bits` are unspecified there and
never read; zero is a DESIGN CHOICE (log 7, unsafe). -/
abbrev CodewordEntry.blank : CodewordEntry := { v := false, len := 0, bits := 0 }

/-- What a node entry holds after reset (`10_state.md` R50): `lv = rv = 0`. `l` and `r` are unspecified there and never
read; zero is a DESIGN CHOICE (log 8, unsafe). -/
abbrev NodeEntry.blank : NodeEntry := { lv := false, l := 0, rv := false, r := 0 }

/-- What happens on the port at one rising edge: reset is sampled low (`70_reset_and_hazards.md` R246), or an access
is acknowledged (`20_memory.md` R62). -/
inductive PortEvent where
  | resetEdge
  | access (a : Access)
  deriving DecidableEq, Repr

/-- A table of 256 entries by index, sparse: indexes strictly rising, no entry equal to what an unlisted index reads as
(Machine/Ops.lean's `tableWf`; log 12). -/
abbrev Table (α : Type) := List (Nat × α)

/-- The complete state of HUFFBLK (`10_state.md` R21), under the spec's names, and four fields of the model's own. -/
structure State where
  /-- ENC_DEPTH and DEC_DEPTH: configuration, written by no step (log 5). -/
  cfg : Config
  locked : Bool
  cwt : Table CodewordEntry
  nt : Table NodeEntry
  root : Root
  cmdErr : ErrCode
  encSt : UnitState
  encErr : ErrCode
  encAcc : Bits
  encPend : List Byte
  encQ : List (Byte × Bool)
  encNsym : Word
  encNbits : Word
  encErrsym : Byte
  decSt : UnitState
  decErr : ErrCode
  decPos : Byte
  decPend : List Byte
  decQ : List (Byte × Bool)
  decNsym : Word
  decNbits : Word
  degCount : Word
  /-- The port events the host has yet to present, first first: the block's input (R48; log 1). -/
  inputs : List PortEvent
  /-- The port output `ack` at the latest rising edge (`20_memory.md` R62; log 2). -/
  ack : Bool
  /-- The port output `rdata` at the latest rising edge; none where no read data is valid (`20_memory.md` R62; log 2). -/
  rdata : Option Word
  deriving DecidableEq, Repr

/-- The reasons the machine stops. HUFFBLK has none: no access can fail on the port (`45_register_access.md` R215) and
no command can hang the block (`60_exceptions.md` R242), so the type has no constructor and no step can raise it (safe).
The block's errors are next states with a code recorded (log 20). -/
inductive Fault where
  deriving DecidableEq, Repr

/-- The reasons a step has no meaning. -/
inductive Refusal where
  /-- Raised by `exec` for an instruction without a meaning yet, by its mnemonic; safe. Every instruction has its
  meaning, so no step answers it. -/
  | notModelled (mnemonic : String)
  deriving DecidableEq, Repr

/-- The outcome of an instruction or a step. -/
abbrev Result := Host.Outcome State Fault Refusal

/-- The state right after reset (`10_state.md` R50), for a block built with the depths `cfg` and a host that has not
presented anything. Unspecified fields hold zero (logs 7 to 10). -/
def State.resetWith (cfg : Config) : State :=
  { cfg := cfg
    locked := false
    cwt := []
    nt := []
    root := { v := false, leaf := false, val := 0 }
    cmdErr := .none
    encSt := .idle
    encErr := .none
    encAcc := []
    encPend := []
    encQ := []
    encNsym := 0
    encNbits := 0
    encErrsym := 0
    decSt := .idle
    decErr := .none
    decPos := 0
    decPend := []
    decQ := []
    decNsym := 0
    decNbits := 0
    degCount := 0
    inputs := []
    ack := false
    rdata := none }

/-- The machine right after reset, with the depths of the spec's vectors (log 5). -/
def State.reset : State := State.resetWith Config.vectors

end Sys2Proof.Machine
end

