-- ==== Sys2Proof/Machine/Flags.lean ====
section
/-! DEFINITION. The block's flags: the codes of unit states and errors, and the words the host reads: STATUS
(`10_state.md` R24), the output words (R30, R31), the levels (R39) and the capacities (R37). -/

namespace Sys2Proof.Machine

/-- The 2-bit unit state encoding (`10_state.md` R46). -/
def UnitState.code : UnitState → BitVec 2
  | .idle => 0
  | .active => 1
  | .error => 2

/-- The 4-bit error codes (`10_state.md` R47). -/
def ErrCode.code : ErrCode → BitVec 4
  | .none => 0
  | .illegalCmd => 1
  | .tableLocked => 2
  | .busy => 3
  | .notLocked => 4
  | .sequence => 5
  | .unknownSymbol => 6
  | .overflow => 7
  | .malformedPadding => 8
  | .truncatedCode => 9
  | .tableError => 10
  | .excessBits => 11

/-- STATUS.ROOT_LEAF: `root.leaf` if `root.v = 1`, else 0 (`10_state.md` R24). -/
def rootLeafFlag (r : Root) : Bool := r.v && r.leaf

/-- STATUS, field by field (`10_state.md` R24); every reserved bit is 0. -/
def statusWord (s : State) : Word :=
  placeField (BitVec.ofBool s.locked) 0 ||| placeField s.encSt.code 1 ||| placeField s.decSt.code 3 |||
    placeField s.encErr.code 8 ||| placeField s.decErr.code 12 ||| placeField s.cmdErr.code 16 |||
    placeField (BitVec.ofBool s.root.v) 20 ||| placeField (BitVec.ofBool (rootLeafFlag s.root)) 21

/-- An ENC_OUT or DEC_OUT word: LAST, VALID = 1 and the byte or symbol (`10_state.md` R30, R31). -/
def outWord (e : Byte × Bool) : Word :=
  placeField (BitVec.ofBool e.2) 9 ||| placeField 1#1 8 ||| placeField e.1 0

/-- The value of ID (`10_state.md` R22). -/
def idWord : Word := 0x48554631

/-- A count as a 32-bit register reads it (`00_scope.md` R12). -/
def countWord (n : Nat) : Word := BitVec.ofNat 32 n

/-- A counter plus one, modulo 2^32 (`10_state.md` R32, R35). -/
def counterIncr (c : Word) : Word := c + 1

/-- A bit counter plus a codeword length, modulo 2^32 (`10_state.md` R33). -/
def counterAddLen (c : Word) (len : Byte) : Word := c + len.setWidth 32

end Sys2Proof.Machine
end

