-- ==== Sys2Proof/Machine/Operands.lean ====
section
/-! DEFINITION. How operands and table fields are assembled and taken apart: child references, codeword bits, the
packing of bit sequences into bytes, the padding and its removal. -/

namespace Sys2Proof.Machine

/-! ## Child references (`10_state.md` R41, `30_encoding.md` R89) -/

/-- `ref = LEAF * 256 + REF`. -/
def refOf (leaf : Bool) (ref : Byte) : Ref := BitVec.ofBool leaf ++ ref

/-- `ref[8]`: the child is a Leaf. -/
def refIsLeaf (ref : Ref) : Bool := ref.getLsbD 8

/-- `ref[7:0]`: the symbol of a Leaf, the index of an Internal node. -/
def refVal (ref : Ref) : Byte := ref.extractLsb' 0 8

/-- The child reached from a node by bit `b`, where it is defined: 0 descends left, 1 descends right
(`44_decoder.md` R173). -/
def childOf (e : NodeEntry) (b : Bool) : Option Ref :=
  if b then (if e.rv then some e.r else none) else (if e.lv then some e.l else none)

/-! ## Codeword bits (`10_state.md` R40) -/

/-- The codeword of an entry: `bits[0], ..., bits[len - 1]`. -/
def codeword (e : CodewordEntry) : Bits :=
  (List.range e.len.toNat).map (fun i => e.bits.getLsbD i)

/-- `bits` with bit `i` set to `b`. -/
def putBit (bits : BitVec 256) (i : Nat) (b : Bool) : BitVec 256 :=
  if b then bits ||| (1#256 <<< i) else bits &&& ~~~(1#256 <<< i)

/-- `bits[8*IDX + j] <- DATA[7 - j]` for `j = 0 .. 7` (`42_table_load.md` R142). -/
def putChunk (bits : BitVec 256) (idx : BitVec 5) (data : Byte) : BitVec 256 :=
  [0, 1, 2, 3, 4, 5, 6, 7].foldl (fun bs j => putBit bs (8 * idx.toNat + j) (data.getLsbD (7 - j))) bits

/-! ## Bytes and bit sequences, most significant bit first (`20_memory.md` R63, R64) -/

/-- `byte(t)` for a bit sequence of length 8: bit `7 - j` is `t[j]` (`43_encoder.md` R152). -/
def packByte (t : Bits) : Byte :=
  t.foldl (fun acc b => acc <<< 1 ||| (BitVec.ofBool b).setWidth 8) 0

/-- The first `k` whole bytes of a bit sequence: the loop of `43_encoder.md` R153. -/
def packBytes : Nat → Bits → List Byte
  | 0, _ => []
  | k + 1, t => packByte (t.take 8) :: packBytes k (t.drop 8)

/-- The bits of a byte in stream order, bit 7 first (`20_memory.md` R64). -/
def byteBits (b : Byte) : Bits := [7, 6, 5, 4, 3, 2, 1, 0].map (fun i => b.getLsbD i)

/-- The padding appended to the last `r` bits of a message: a 1 and then 0 bits, `8 - r` bits long for `r < 8`
(`43_encoder.md` R156). -/
def paddingFor (r : Nat) : Bits := true :: List.replicate (7 - r) false

/-- `ctz8(b)`: the index of the lowest set bit of a nonzero byte (`00_scope.md` R15); 8 for zero, which no rule asks. -/
def ctz8 (b : Byte) : Nat := ([0, 1, 2, 3, 4, 5, 6, 7].find? (fun i => b.getLsbD i)).getD 8

/-- The payload bits of a nonzero final byte, `BYTE[7]` down to `BYTE[k + 1]` with `k = ctz8(BYTE)` (`44_decoder.md`
R174, R175). -/
def finalPayload (b : Byte) : Bits := (byteBits b).take (7 - ctz8 b)

/-! ## Commit (`43_encoder.md` R156, `44_decoder.md` R174) -/

/-- The entries of a committed message, in order, with `last` set on the final one. -/
def tagLast : List Byte → List (Byte × Bool)
  | [] => []
  | [x] => [(x, true)]
  | x :: y :: rest => (x, false) :: tagLast (y :: rest)

end Sys2Proof.Machine
end

