-- ==== Sys2Proof/Machine/Ops.lean ====
section
/-! DEFINITION. The shared operations over the state: the two tables, recording an error and clearing it
(`60_exceptions.md` R224 to R226, R233), reset (`70_reset_and_hazards.md` R246), the queues and the port. -/

namespace Sys2Proof.Machine

/-! ## Sparse tables -/

/-- The entry at index `k`; an unlisted index reads as `d`. -/
def tableGet {α : Type} (d : α) : Table α → Nat → α
  | [], _ => d
  | (k', v) :: t, k => if k' = k then v else tableGet d t k

/-- The table with `v` at index `k`, kept in canonical form: storing `d` takes the entry out. -/
def tableSet {α : Type} [DecidableEq α] (d : α) : Table α → Nat → α → Table α
  | [], k, v => if v = d then [] else [(k, v)]
  | (k', v') :: t, k, v =>
    if k < k' then (if v = d then (k', v') :: t else (k, v) :: (k', v') :: t)
    else if k = k' then (if v = d then t else (k, v) :: t)
    else (k', v') :: tableSet d t k v

/-- The canonical form: indexes below 256 and strictly rising, no entry equal to what an unlisted index reads as. -/
def tableWf {α : Type} [DecidableEq α] (d : α) : Table α → Bool
  | [] => true
  | (k, v) :: t => decide (k < 256) && decide (v ≠ d) && t.all (fun e => decide (k < e.1)) && tableWf d t

/-- `cwt[sym]` (`10_state.md` R40). -/
def cwEntry (s : State) (sym : Byte) : CodewordEntry := tableGet CodewordEntry.blank s.cwt sym.toNat

/-- `cwt[sym] <- e`. -/
def setCwEntry (s : State) (sym : Byte) (e : CodewordEntry) : State :=
  { s with cwt := tableSet CodewordEntry.blank s.cwt sym.toNat e }

/-- `nt[node]` (`10_state.md` R42). -/
def ntEntry (s : State) (node : Byte) : NodeEntry := tableGet NodeEntry.blank s.nt node.toNat

/-- `nt[node] <- e`. -/
def setNtEntry (s : State) (node : Byte) (e : NodeEntry) : State :=
  { s with nt := tableSet NodeEntry.blank s.nt node.toNat e }

/-! ## Errors: the block's exceptions (`60_exceptions.md`)

Entry saves nothing and transfers nothing (R232); what it does is one of these three. -/

/-- `cmd_error(c)` (`60_exceptions.md` R224): only the first command error is kept. -/
def cmdError (c : ErrCode) (s : State) : State :=
  if s.cmdErr = .none then { s with cmdErr := c } else s

/-- `enc_fail(c)` (`60_exceptions.md` R225): the message's pending bytes are discarded. -/
def encFail (c : ErrCode) (s : State) : State :=
  { s with encSt := .error, encErr := c, encAcc := [], encPend := [] }

/-- `dec_fail(c)` (`60_exceptions.md` R226): the message's pending symbols are discarded. -/
def decFail (c : ErrCode) (s : State) : State :=
  { s with decSt := .error, decErr := c, decPend := [] }

/-! ## The ways back (`60_exceptions.md` R233) -/

/-- Clear the command error (`40_system_commands.md` R113). -/
def clearCmdErr (s : State) : State := { s with cmdErr := .none }

/-- Return the encoder to IDLE without an error (`43_encoder.md` R159). -/
def encRecover (s : State) : State :=
  { s with encSt := .idle, encErr := .none, encAcc := [], encPend := [] }

/-- Return the decoder to IDLE without an error (`44_decoder.md` R180). -/
def decRecover (s : State) : State :=
  { s with decSt := .idle, decErr := .none, decPend := [] }

/-- Every component of `10_state.md` R21 takes its reset value (R50): the effect of `rst_n` (`70_reset_and_hazards.md`
R246) and of RESET (`40_system_commands.md` R112). The depths and the port are no components of R21 (log 11). -/
def resetBlock (s : State) : State :=
  { State.resetWith s.cfg with inputs := s.inputs, ack := s.ack, rdata := s.rdata }

/-! ## The lock guard and the unlock condition -/

/-- The guard of every table-load command (`42_table_load.md` R140): while locked, TABLE_LOCKED and nothing else. -/
def guardUnlocked (s : State) (write : State) : State :=
  if s.locked then cmdError .tableLocked s else write

/-- A unit is ACTIVE (`40_system_commands.md` R115). -/
def unitActive (s : State) : Bool := s.encSt = .active || s.decSt = .active

/-! ## The port -/

/-- Answer a read with `v` (`20_memory.md` R62). -/
def returnData (v : Word) (s : State) : State := { s with rdata := some v }

/-- The rising edge at which the host's next access is acknowledged: the access is taken from the inputs; until it is
performed no read data is valid (`20_memory.md` R62). -/
def acceptAccess (s : State) : State := { s with inputs := s.inputs.tail, ack := true, rdata := none }

/-- A rising edge with `rst_n = 0`: the block is reset and nothing is acknowledged (`70_reset_and_hazards.md` R246). -/
def resetEdge (s : State) : State := resetBlock { s with inputs := s.inputs.tail, ack := false, rdata := none }

/-- A rising edge at which the host presents nothing: the units take no step of their own (`00_scope.md` R19). -/
def idleEdge (s : State) : State := { s with ack := false, rdata := none }

/-! ## The output queues (`20_memory.md` R78) -/

/-- The room test of the encoder: `n` more bytes would not fit (`43_encoder.md` R153, R156). -/
def encFull (s : State) (n : Nat) : Bool := s.encQ.length + s.encPend.length + n > s.cfg.encDepth

/-- The room test of the decoder for one more pending symbol (`44_decoder.md` R173). -/
def decFull (s : State) : Bool := s.decQ.length + s.decPend.length + 1 > s.cfg.decDepth

end Sys2Proof.Machine
end

