-- ==== Sys2Proof/Machine/Decoder.lean ====
section
/-! DEFINITION. The decoder commands (`44_decoder.md`): DEC_START, DEC_BYTE over FEED, DEC_ABORT. A unit in ERROR ignores
the first two (R170); a failure ends the command (`60_exceptions.md` R226), which `Except.error` carries: the state the
command ends in. -/

namespace Sys2Proof.Machine

/-- DEC_START (R171). -/
def execDecStart (s : State) : Result :=
  if s.decSt = .error then .next s
  else if s.locked = false then .next (decFail .notLocked s)
  else if s.decSt = .active then .next (decFail .sequence s)
  else if s.root.v = false then .next (decFail .tableError s)
  else .next { s with decSt := .active, decPos := s.root.val, decPend := [], decNsym := 0, decNbits := 0 }

/-- A Leaf is reached: its symbol is emitted and the walk restarts at the root (R173). -/
def emitSymbol (sym : Byte) (s : State) : State :=
  { s with
    decNbits := counterIncr s.decNbits
    decPend := s.decPend ++ [sym]
    decNsym := counterIncr s.decNsym
    decPos := s.root.val }

/-- An Internal node is reached (R173). -/
def descend (node : Byte) (s : State) : State :=
  { s with decNbits := counterIncr s.decNbits, decPos := node }

/-- `FEED(b)` (R173): consume one payload bit. -/
def feed (b : Bool) (s : State) : Except State State :=
  if s.root.leaf then .error (decFail .excessBits s)
  else
    match childOf (ntEntry s s.decPos) b with
    | none => .error (decFail .tableError s)
    | some ref =>
      if refIsLeaf ref then
        if decFull s then .error (decFail .overflow s) else .ok (emitSymbol (refVal ref) s)
      else .ok (descend (refVal ref) s)

/-- FEED bit by bit, up to the first failure (R174). -/
def feedBits : Bits → State → Except State State
  | [], s => .ok s
  | b :: bs, s =>
    match feed b s with
    | .ok s' => feedBits bs s'
    | .error s' => .error s'

/-- The commit of a message with the pending symbols `pend` (R174). -/
def commitDecoder (pend : List Byte) (s : State) : State :=
  { s with decQ := s.decQ ++ tagLast pend, decPend := [], decSt := .idle }

/-- The end of a message after its payload bits (R174, R176, R178). -/
def finishMessage (s : State) : State :=
  if s.root.leaf then
    if s.decQ.length + s.degCount.toNat > s.cfg.decDepth then decFail .overflow s
    else commitDecoder (List.replicate s.degCount.toNat s.root.val) { s with decNsym := s.degCount }
  else if s.decPos ≠ s.root.val then decFail .truncatedCode s
  else commitDecoder s.decPend s

/-- A byte that is not the final one: all eight bits are payload (R174). -/
def feedWholeByte (byte : Byte) (s : State) : State :=
  match feedBits (byteBits byte) s with
  | .ok s' => s'
  | .error s' => s'

/-- The final byte: the padding is removed (R175), the payload fed, the message ended (R174). -/
def feedFinalByte (byte : Byte) (s : State) : State :=
  if byte = 0 then decFail .malformedPadding s
  else
    match feedBits (finalPayload byte) s with
    | .ok s' => finishMessage s'
    | .error s' => s'

/-- DEC_BYTE (R174). -/
def execDecByte (last : Bool) (byte : Byte) (s : State) : Result :=
  if s.decSt = .error then .next s
  else if s.decSt = .idle then .next (decFail .sequence s)
  else if last then .next (feedFinalByte byte s)
  else .next (feedWholeByte byte s)

/-- DEC_ABORT (R180): legal in every state. -/
def execDecAbort (s : State) : Result := .next (decRecover s)

end Sys2Proof.Machine
end

