-- ==== Sys2Proof/Machine/Encoder.lean ====
section
/-! DEFINITION. The encoder commands (`43_encoder.md`): ENC_START, ENC_SYM, ENC_END, ENC_ABORT. A unit in ERROR ignores
the first three (R150); each failure ends the command (`60_exceptions.md` R225). -/

namespace Sys2Proof.Machine

/-- ENC_START (R151). -/
def execEncStart (s : State) : Result :=
  if s.encSt = .error then .next s
  else if s.locked = false then .next (encFail .notLocked s)
  else if s.encSt = .active then .next (encFail .sequence s)
  else .next { s with encSt := .active, encAcc := [], encPend := [], encNsym := 0, encNbits := 0 }

/-- The bytes a symbol completes: `k = (len(enc_acc) + len) div 8` (R153, R155). -/
def completedBytes (s : State) (e : CodewordEntry) : Nat := (s.encAcc.length + e.len.toNat) / 8

/-- The last part of ENC_SYM (R153): the codeword `e` is appended and whole bytes move to `enc_pend`. -/
def appendCodeword (e : CodewordEntry) (s : State) : State :=
  let t := s.encAcc ++ codeword e
  let k := completedBytes s e
  { s with
    encPend := s.encPend ++ packBytes k t
    encAcc := t.drop (8 * k)
    encNsym := counterIncr s.encNsym
    encNbits := counterAddLen s.encNbits e.len }

/-- ENC_SYM (R153), its checks in the order of `60_exceptions.md` R230. -/
def execEncSym (sym : Byte) (s : State) : Result :=
  if s.encSt = .error then .next s
  else if s.encSt = .idle then .next (encFail .sequence s)
  else if (cwEntry s sym).v = false then .next (encFail .unknownSymbol { s with encErrsym := sym })
  else if encFull s (completedBytes s (cwEntry s sym)) then .next (encFail .overflow s)
  else .next (appendCodeword (cwEntry s sym) s)

/-- The last part of ENC_END (R156): the padding, the final byte and the commit. -/
def commitEncoder (s : State) : State :=
  let final := packByte (s.encAcc ++ paddingFor s.encAcc.length)
  { s with
    encQ := s.encQ ++ tagLast (s.encPend ++ [final])
    encPend := []
    encAcc := []
    encSt := .idle }

/-- ENC_END (R156). -/
def execEncEnd (s : State) : Result :=
  if s.encSt = .error then .next s
  else if s.encSt = .idle then .next (encFail .sequence s)
  else if encFull s 1 then .next (encFail .overflow s)
  else .next (commitEncoder s)

/-- ENC_ABORT (R159): legal in every state. -/
def execEncAbort (s : State) : Result := .next (encRecover s)

end Sys2Proof.Machine
end

