-- ==== Sys2Proof/Machine/System.lean ====
section
/-! DEFINITION. The system commands (`40_system_commands.md`): NOP, RESET, CLR_ERR, LOCK, UNLOCK. -/

namespace Sys2Proof.Machine

/-- NOP (R111). -/
def execNop (s : State) : Result := .next s

/-- RESET (R112). -/
def execReset (s : State) : Result := .next (resetBlock s)

/-- CLR_ERR (R113). -/
def execClrErr (s : State) : Result := .next (clearCmdErr s)

/-- LOCK (R114): no check of the tables. -/
def execLock (s : State) : Result := .next { s with locked := true }

/-- UNLOCK (R115): refused with BUSY while a unit is ACTIVE. -/
def execUnlock (s : State) : Result :=
  if unitActive s then .next (cmdError .busy s) else .next { s with locked := false }

end Sys2Proof.Machine
end

