-- ==== Sys2Proof/Machine/TableLoad.lean ====
section
/-! DEFINITION. The table-load commands (`42_table_load.md`), each behind the lock guard of R140. -/

namespace Sys2Proof.Machine

/-- CW_DEF (R141): valid bit and length, and the codeword bits cleared. -/
def execCwDef (sym : Byte) (v : Bool) (len : Byte) (s : State) : Result :=
  .next (guardUnlocked s (setCwEntry s sym { v := v, len := len, bits := 0 }))

/-- CW_BITS (R142): eight codeword bits; `v` and `len` are kept. -/
def execCwBits (sym : Byte) (idx : BitVec 5) (data : Byte) (s : State) : Result :=
  let e := cwEntry s sym
  .next (guardUnlocked s (setCwEntry s sym { e with bits := putChunk e.bits idx data }))

/-- NODE_L (R143): the left child. -/
def execNodeL (node : Byte) (leaf : Bool) (ref : Byte) (s : State) : Result :=
  .next (guardUnlocked s (setNtEntry s node { ntEntry s node with lv := true, l := refOf leaf ref }))

/-- NODE_R (R144): the right child. -/
def execNodeR (node : Byte) (leaf : Bool) (ref : Byte) (s : State) : Result :=
  .next (guardUnlocked s (setNtEntry s node { ntEntry s node with rv := true, r := refOf leaf ref }))

/-- TREE_ROOT (R145): the root register. -/
def execTreeRoot (leaf : Bool) (ref : Byte) (s : State) : Result :=
  .next (guardUnlocked s { s with root := { v := true, leaf := leaf, val := ref } })

end Sys2Proof.Machine
end

