-- ==== Sys2Proof/Machine/Access.lean ====
section
/-! DEFINITION. The register accesses (`45_register_access.md`). No access raises an error on the port (R215), and the
offset's low bits play no part (`20_memory.md` R66). -/

namespace Sys2Proof.Machine

/-! ## Reads -/

/-- RD_ID (R196). -/
def execRdId (_addr : Byte) (s : State) : Result := .next (returnData idWord s)

/-- RD_CMD (R197): the last command is neither returned nor executed again. -/
def execRdCmd (_addr : Byte) (s : State) : Result := .next (returnData 0 s)

/-- RD_STATUS (R198). -/
def execRdStatus (_addr : Byte) (s : State) : Result := .next (returnData (statusWord s) s)

/-- RD_ENC_OUT (R199): pops the oldest committed byte; an empty queue reads 0. -/
def execRdEncOut (_addr : Byte) (s : State) : Result :=
  match s.encQ with
  | [] => .next (returnData 0 s)
  | e :: rest => .next (returnData (outWord e) { s with encQ := rest })

/-- RD_DEC_OUT (R200): pops the oldest committed symbol; an empty queue reads 0. -/
def execRdDecOut (_addr : Byte) (s : State) : Result :=
  match s.decQ with
  | [] => .next (returnData 0 s)
  | e :: rest => .next (returnData (outWord e) { s with decQ := rest })

/-- RD_ENC_NSYM (R201). -/
def execRdEncNsym (_addr : Byte) (s : State) : Result := .next (returnData s.encNsym s)

/-- RD_ENC_NBITS (R202). -/
def execRdEncNbits (_addr : Byte) (s : State) : Result := .next (returnData s.encNbits s)

/-- RD_ENC_ERRSYM (R203). -/
def execRdEncErrsym (_addr : Byte) (s : State) : Result := .next (returnData (s.encErrsym.setWidth 32) s)

/-- RD_DEC_NSYM (R204). -/
def execRdDecNsym (_addr : Byte) (s : State) : Result := .next (returnData s.decNsym s)

/-- RD_DEC_NBITS (R205). -/
def execRdDecNbits (_addr : Byte) (s : State) : Result := .next (returnData s.decNbits s)

/-- RD_DEG_COUNT (R206). -/
def execRdDegCount (_addr : Byte) (s : State) : Result := .next (returnData s.degCount s)

/-- RD_ENC_OLEVEL (R207): committed bytes only. -/
def execRdEncOlevel (_addr : Byte) (s : State) : Result := .next (returnData (countWord s.encQ.length) s)

/-- RD_DEC_OLEVEL (R208): committed symbols only. -/
def execRdDecOlevel (_addr : Byte) (s : State) : Result := .next (returnData (countWord s.decQ.length) s)

/-- RD_ENC_CAP (R209). -/
def execRdEncCap (_addr : Byte) (s : State) : Result := .next (returnData (countWord s.cfg.encDepth) s)

/-- RD_DEC_CAP (R210). -/
def execRdDecCap (_addr : Byte) (s : State) : Result := .next (returnData (countWord s.cfg.decDepth) s)

/-- RD_RSVD_3C (R214). -/
def execRdRsvd3C (_addr : Byte) (s : State) : Result := .next (returnData 0 s)

/-- RD_RSVD_40 (R214). -/
def execRdRsvd40 (_addr : Byte) (s : State) : Result := .next (returnData 0 s)

/-- RD_RSVD_80 (R214). -/
def execRdRsvd80 (_addr : Byte) (s : State) : Result := .next (returnData 0 s)

/-! ## Writes -/

/-- `execute(w)` (R211): the rule of the command that `w` decodes to, or ILLEGAL_CMD and nothing else
(`30_encoding.md` R95). No word decodes to a register access (Laws/Decode.lean), so that last arm is never taken. -/
def executeWord (w : Word) (s : State) : Result :=
  match decodeCommand w with
  | .error _ => .next (cmdError .illegalCmd s)
  | .ok .nop => execNop s
  | .ok .reset => execReset s
  | .ok .clrErr => execClrErr s
  | .ok (.cwDef sym v len) => execCwDef sym v len s
  | .ok (.cwBits sym idx data) => execCwBits sym idx data s
  | .ok (.nodeL node leaf ref) => execNodeL node leaf ref s
  | .ok (.nodeR node leaf ref) => execNodeR node leaf ref s
  | .ok (.treeRoot leaf ref) => execTreeRoot leaf ref s
  | .ok .lock => execLock s
  | .ok .unlock => execUnlock s
  | .ok .encStart => execEncStart s
  | .ok (.encSym sym) => execEncSym sym s
  | .ok .encEnd => execEncEnd s
  | .ok .encAbort => execEncAbort s
  | .ok .decStart => execDecStart s
  | .ok (.decByte last byte) => execDecByte last byte s
  | .ok .decAbort => execDecAbort s
  | .ok (.rdId _) | .ok (.rdCmd _) | .ok (.rdStatus _) | .ok (.rdEncOut _) | .ok (.rdDecOut _)
  | .ok (.rdEncNsym _) | .ok (.rdEncNbits _) | .ok (.rdEncErrsym _) | .ok (.rdDecNsym _) | .ok (.rdDecNbits _)
  | .ok (.rdDegCount _) | .ok (.rdEncOlevel _) | .ok (.rdDecOlevel _) | .ok (.rdEncCap _) | .ok (.rdDecCap _)
  | .ok (.rdRsvd3C _) | .ok (.rdRsvd40 _) | .ok (.rdRsvd80 _) | .ok (.wrCmd _ _) | .ok (.wrDegCount _ _)
  | .ok (.wrIgnored00 _ _) | .ok (.wrIgnored08 _ _) | .ok (.wrIgnored10 _ _) | .ok (.wrIgnored20 _ _)
  | .ok (.wrIgnored2C _ _) | .ok (.wrIgnored30 _ _) | .ok (.wrIgnored40 _ _) | .ok (.wrIgnored80 _ _) =>
    .next (cmdError .illegalCmd s)

/-- WR_CMD (R211): every write executes exactly once. -/
def execWrCmd (_addr : Byte) (wdata : Word) (s : State) : Result := executeWord wdata s

/-- WR_DEG_COUNT (R212): accepted in every state. -/
def execWrDegCount (_addr : Byte) (wdata : Word) (s : State) : Result := .next { s with degCount := wdata }

/-- A write that reaches neither CMD nor DEG_COUNT has no effect (R213). -/
def ignoreWrite (s : State) : Result := .next s

/-- WR_IGNORED_00 (R213): ID. -/
def execWrIgnored00 (_addr : Byte) (_wdata : Word) (s : State) : Result := ignoreWrite s

/-- WR_IGNORED_08 (R213): STATUS and ENC_OUT. -/
def execWrIgnored08 (_addr : Byte) (_wdata : Word) (s : State) : Result := ignoreWrite s

/-- WR_IGNORED_10 (R213): DEC_OUT, ENC_NSYM, ENC_NBITS and ENC_ERRSYM. -/
def execWrIgnored10 (_addr : Byte) (_wdata : Word) (s : State) : Result := ignoreWrite s

/-- WR_IGNORED_20 (R213): DEC_NSYM and DEC_NBITS. -/
def execWrIgnored20 (_addr : Byte) (_wdata : Word) (s : State) : Result := ignoreWrite s

/-- WR_IGNORED_2C (R213): ENC_OLEVEL. -/
def execWrIgnored2C (_addr : Byte) (_wdata : Word) (s : State) : Result := ignoreWrite s

/-- WR_IGNORED_30 (R213): DEC_OLEVEL, ENC_CAP, DEC_CAP and the reserved offset 0x3C. -/
def execWrIgnored30 (_addr : Byte) (_wdata : Word) (s : State) : Result := ignoreWrite s

/-- WR_IGNORED_40 (R213): the reserved offsets 0x40 to 0x7C. -/
def execWrIgnored40 (_addr : Byte) (_wdata : Word) (s : State) : Result := ignoreWrite s

/-- WR_IGNORED_80 (R213): the reserved offsets 0x80 to 0xFC. -/
def execWrIgnored80 (_addr : Byte) (_wdata : Word) (s : State) : Result := ignoreWrite s

end Sys2Proof.Machine
end

