-- ==== Sys2Proof/Machine/Dispatch.lean ====
section
/-! DEFINITION. One arm per instruction, each a call of its meaning. -/

namespace Sys2Proof.Machine

/-- The meaning of an instruction in a state. -/
def exec (i : Instr) (s : State) : Host.Outcome State Fault Refusal :=
    match i with
    | .nop => Sys2Proof.Machine.execNop s
    | .reset => Sys2Proof.Machine.execReset s
    | .clrErr => Sys2Proof.Machine.execClrErr s
    | .cwDef sym v len => Sys2Proof.Machine.execCwDef sym v len s
    | .cwBits sym idx data => Sys2Proof.Machine.execCwBits sym idx data s
    | .nodeL node leaf ref => Sys2Proof.Machine.execNodeL node leaf ref s
    | .nodeR node leaf ref => Sys2Proof.Machine.execNodeR node leaf ref s
    | .treeRoot leaf ref => Sys2Proof.Machine.execTreeRoot leaf ref s
    | .lock => Sys2Proof.Machine.execLock s
    | .unlock => Sys2Proof.Machine.execUnlock s
    | .encStart => Sys2Proof.Machine.execEncStart s
    | .encSym sym => Sys2Proof.Machine.execEncSym sym s
    | .encEnd => Sys2Proof.Machine.execEncEnd s
    | .encAbort => Sys2Proof.Machine.execEncAbort s
    | .decStart => Sys2Proof.Machine.execDecStart s
    | .decByte last byte => Sys2Proof.Machine.execDecByte last byte s
    | .decAbort => Sys2Proof.Machine.execDecAbort s
    | .rdId addr => Sys2Proof.Machine.execRdId addr s
    | .rdCmd addr => Sys2Proof.Machine.execRdCmd addr s
    | .rdStatus addr => Sys2Proof.Machine.execRdStatus addr s
    | .rdEncOut addr => Sys2Proof.Machine.execRdEncOut addr s
    | .rdDecOut addr => Sys2Proof.Machine.execRdDecOut addr s
    | .rdEncNsym addr => Sys2Proof.Machine.execRdEncNsym addr s
    | .rdEncNbits addr => Sys2Proof.Machine.execRdEncNbits addr s
    | .rdEncErrsym addr => Sys2Proof.Machine.execRdEncErrsym addr s
    | .rdDecNsym addr => Sys2Proof.Machine.execRdDecNsym addr s
    | .rdDecNbits addr => Sys2Proof.Machine.execRdDecNbits addr s
    | .rdDegCount addr => Sys2Proof.Machine.execRdDegCount addr s
    | .rdEncOlevel addr => Sys2Proof.Machine.execRdEncOlevel addr s
    | .rdDecOlevel addr => Sys2Proof.Machine.execRdDecOlevel addr s
    | .rdEncCap addr => Sys2Proof.Machine.execRdEncCap addr s
    | .rdDecCap addr => Sys2Proof.Machine.execRdDecCap addr s
    | .rdRsvd3C addr => Sys2Proof.Machine.execRdRsvd3C addr s
    | .rdRsvd40 addr => Sys2Proof.Machine.execRdRsvd40 addr s
    | .rdRsvd80 addr => Sys2Proof.Machine.execRdRsvd80 addr s
    | .wrCmd addr wdata => Sys2Proof.Machine.execWrCmd addr wdata s
    | .wrDegCount addr wdata => Sys2Proof.Machine.execWrDegCount addr wdata s
    | .wrIgnored00 addr wdata => Sys2Proof.Machine.execWrIgnored00 addr wdata s
    | .wrIgnored08 addr wdata => Sys2Proof.Machine.execWrIgnored08 addr wdata s
    | .wrIgnored10 addr wdata => Sys2Proof.Machine.execWrIgnored10 addr wdata s
    | .wrIgnored20 addr wdata => Sys2Proof.Machine.execWrIgnored20 addr wdata s
    | .wrIgnored2C addr wdata => Sys2Proof.Machine.execWrIgnored2C addr wdata s
    | .wrIgnored30 addr wdata => Sys2Proof.Machine.execWrIgnored30 addr wdata s
    | .wrIgnored40 addr wdata => Sys2Proof.Machine.execWrIgnored40 addr wdata s
    | .wrIgnored80 addr wdata => Sys2Proof.Machine.execWrIgnored80 addr wdata s

end Sys2Proof.Machine
end

