-- ==== Sys2Proof/Machine/Step.lean ====
section
/-! DEFINITION. One step of the block: one event on the port (`20_memory.md` R62, `70_reset_and_hazards.md` R246). -/

namespace Sys2Proof.Machine

/-- One step: the host's next event. An access is acknowledged and performed as one atomic transition (`00_scope.md`
R16); a reset edge resets the block; with nothing presented, nothing happens (log 3). -/
def step (s : State) : Host.Outcome State Fault Refusal :=
  match s.inputs with
  | [] => .next (idleEdge s)
  | .resetEdge :: _ => .next (resetEdge s)
  | .access a :: _ => exec (decodeAccess a) (acceptAccess s)

/-- The state in which the host presents the encoding next: a command word as a write of CMD (`30_encoding.md` R98), an
access descriptor as that access with write data zero. Bits that no encoding has leave the state as it is (log 13). -/
def State.withFetchWord (s : State) (nbits w : Nat) : State :=
  match encodedOfBits nbits w with
  | none => s
  | some e => { s with inputs := .access e.toAccess :: s.inputs }

end Sys2Proof.Machine
end

