-- ==== Sys2Proof/Machine/Pseudo.lean ====
section
/-! DEFINITION. Sequences of instructions: the pseudo-commands of `30_encoding.md` R99, the written form of R98, and how
a sequence is performed in order (`20_memory.md` R71) or presented on the port. -/

namespace Sys2Proof.Machine

/-- Codeword bits `8*i .. 8*i + 7` as a CW_BITS byte, "with bits beyond `n` set to 0" (`30_encoding.md` R99). -/
def chunkByte (cw : Bits) (i : Nat) : Byte :=
  packByte ([0, 1, 2, 3, 4, 5, 6, 7].map (fun j => cw.getD (8 * i + j) false))

/-- `CW_LOAD sym, cw` for a codeword of at most 255 bits (`30_encoding.md` R99). -/
def cwLoad (sym : Byte) (cw : Bits) : List Instr :=
  .cwDef sym true (BitVec.ofNat 8 cw.length) ::
    (List.range ((cw.length + 7) / 8)).map (fun i => .cwBits sym (BitVec.ofNat 5 i) (chunkByte cw i))

/-- `CW_ABSENT sym` (`30_encoding.md` R99). -/
def cwAbsent (sym : Byte) : List Instr := [.cwDef sym false 0]

/-- `ENC_MSG s1, ..., sk` (`30_encoding.md` R99). -/
def encMsg (syms : List Byte) : List Instr := .encStart :: (syms.map .encSym ++ [.encEnd])

/-- The DEC_BYTE commands of a message: LAST on the final byte (`30_encoding.md` R99). -/
def decBytes : List Byte → List Instr
  | [] => []
  | [b] => [.decByte true b]
  | b :: b' :: rest => .decByte false b :: decBytes (b' :: rest)

/-- `DEC_MSG b1, ..., bn` (`30_encoding.md` R99); the spec gives it for `n >= 1`. -/
def decMsg (bytes : List Byte) : List Instr := .decStart :: decBytes bytes

/-- The source's Step 1 on a whole bit sequence, last bit first: strip the trailing 0 bits, then the one 1 bit before
them; none where no 1 is found (`44_decoder.md` R175). -/
def stripFromEnd : Bits → Option Bits
  | [] => none
  | true :: rest => some rest
  | false :: rest => stripFromEnd rest

/-- Step 1 on a bit sequence in stream order (`44_decoder.md` R175, R182). -/
def stripPadding (t : Bits) : Option Bits := (stripFromEnd t.reverse).map List.reverse

/-- The accesses performed one after the other, each complete before the next begins (`20_memory.md` R71). -/
def runInstrs : List Instr → State → Result
  | [], s => .next s
  | i :: is, s =>
    match exec i s with
    | .next s' => runInstrs is s'
    | .fault r => .fault r
    | .refused r => .refused r

/-- The host presents the instructions on the port after what it has already presented. -/
def present (is : List Instr) (s : State) : State :=
  { s with inputs := s.inputs ++ is.map (fun i => .access (encode i).toAccess) }

/-! ## The written form (`30_encoding.md` R98) -/

/-- A child reference: `L:<symbol>` or `N:<index>`. -/
def refText (leaf : Bool) (ref : Byte) : String := (if leaf then "L:" else "N:") ++ toString ref.toNat

/-- A mnemonic and its operands, separated by commas. -/
def asmLine (mnemonic : String) (operands : List String) : String :=
  if operands.isEmpty then mnemonic else mnemonic ++ " " ++ ", ".intercalate operands

/-- A write to an offset that has no writable register. -/
def asmIgnored (addr : Byte) (wdata : Word) : String :=
  asmLine "WR" [toString addr.toNat, toString wdata.toNat]

/-- The written form of an instruction, numbers in decimal; a reserved offset stands as a number. -/
def assembly : Instr → String
  | .nop => "NOP"
  | .reset => "RESET"
  | .clrErr => "CLR_ERR"
  | .cwDef sym v len => asmLine "CW_DEF" [toString sym.toNat, toString v.toNat, toString len.toNat]
  | .cwBits sym idx data => asmLine "CW_BITS" [toString sym.toNat, toString idx.toNat, toString data.toNat]
  | .nodeL node leaf ref => asmLine "NODE_L" [toString node.toNat, refText leaf ref]
  | .nodeR node leaf ref => asmLine "NODE_R" [toString node.toNat, refText leaf ref]
  | .treeRoot leaf ref => asmLine "TREE_ROOT" [refText leaf ref]
  | .lock => "LOCK"
  | .unlock => "UNLOCK"
  | .encStart => "ENC_START"
  | .encSym sym => asmLine "ENC_SYM" [toString sym.toNat]
  | .encEnd => "ENC_END"
  | .encAbort => "ENC_ABORT"
  | .decStart => "DEC_START"
  | .decByte last byte => asmLine "DEC_BYTE" (toString byte.toNat :: if last then ["LAST"] else [])
  | .decAbort => "DEC_ABORT"
  | .rdId _ => "RD ID"
  | .rdCmd _ => "RD CMD"
  | .rdStatus _ => "RD STATUS"
  | .rdEncOut _ => "RD ENC_OUT"
  | .rdDecOut _ => "RD DEC_OUT"
  | .rdEncNsym _ => "RD ENC_NSYM"
  | .rdEncNbits _ => "RD ENC_NBITS"
  | .rdEncErrsym _ => "RD ENC_ERRSYM"
  | .rdDecNsym _ => "RD DEC_NSYM"
  | .rdDecNbits _ => "RD DEC_NBITS"
  | .rdDegCount _ => "RD DEG_COUNT"
  | .rdEncOlevel _ => "RD ENC_OLEVEL"
  | .rdDecOlevel _ => "RD DEC_OLEVEL"
  | .rdEncCap _ => "RD ENC_CAP"
  | .rdDecCap _ => "RD DEC_CAP"
  | .rdRsvd3C a => asmLine "RD" [toString a.toNat]
  | .rdRsvd40 a => asmLine "RD" [toString a.toNat]
  | .rdRsvd80 a => asmLine "RD" [toString a.toNat]
  | .wrCmd _ w => asmLine "WR" ["CMD", toString w.toNat]
  | .wrDegCount _ w => asmLine "WR" ["DEG_COUNT", toString w.toNat]
  | .wrIgnored00 a w => asmIgnored a w
  | .wrIgnored08 a w => asmIgnored a w
  | .wrIgnored10 a w => asmIgnored a w
  | .wrIgnored20 a w => asmIgnored a w
  | .wrIgnored2C a w => asmIgnored a w
  | .wrIgnored30 a w => asmIgnored a w
  | .wrIgnored40 a w => asmIgnored a w
  | .wrIgnored80 a w => asmIgnored a w

end Sys2Proof.Machine
end

