-- ==== Sys2Proof/Machine/Compile.lean ====
section
/-! DEFINITION. The host-side reference compile (`41_host_reference_compile.md`): pure functions of the host, "in scope
as host-side reference functions, not as hardware" (`00_scope.md` R5). They say what the Compiled Code of a frequency
table is, and the command sequence that loads it. Weights are exact rationals (R121, log 17). -/

namespace Sys2Proof.Machine

/-- Occurrence counts, one for every symbol (R121). -/
abbrev Counts := Byte → Nat

/-- The typed failure of the compile (R121, `60_exceptions.md` R222): no hardware code stands for it. -/
inductive CompileError where
  | degenerateInput
  deriving DecidableEq, Repr

/-- A Code Tree node (R124): every Internal node has exactly two children, and caches its weight and least symbol. -/
inductive CodeTree where
  | leaf (sym : Byte) (weight : Rat)
  | node (left right : CodeTree) (weight : Rat) (minsym : Byte)
  deriving DecidableEq, Repr

/-- The 256 symbols in increasing order (`00_scope.md` R7). -/
def allSymbols : List Byte := (List.range 256).map (BitVec.ofNat 8)

/-! ## NORMALIZE (R121) -/

/-- `T`, the sum of all counts. -/
def totalCount (c : Counts) : Nat := (allSymbols.map c).sum

/-- `w[s] = c[s] / T`; fails when `T = 0`. -/
def normalizeCounts (c : Counts) : Except CompileError (Byte → Rat) :=
  if totalCount c = 0 then .error .degenerateInput
  else .ok (fun s => (c s : Rat) / (totalCount c : Rat))

/-! ## BUILD (R123 to R127) -/

/-- The weight of a node (R124). -/
def treeWeight : CodeTree → Rat
  | .leaf _ w => w
  | .node _ _ w _ => w

/-- `minsym` of a node (R124). -/
def treeMinsym : CodeTree → Byte
  | .leaf s _ => s
  | .node _ _ _ m => m

/-- The key order, lexicographic on `(weight, minsym)` (R126). -/
def keyLt (x y : CodeTree) : Bool :=
  decide (treeWeight x < treeWeight y) ||
    (decide (treeWeight x = treeWeight y) && decide ((treeMinsym x).toNat < (treeMinsym y).toNat))

/-- The Internal node of two popped nodes, the first on the left (R125). -/
def mergeNodes (a b : CodeTree) : CodeTree :=
  .node a b (treeWeight a + treeWeight b)
    (if (treeMinsym a).toNat ≤ (treeMinsym b).toNat then treeMinsym a else treeMinsym b)

/-- `pop_min`: the node with the least key, and the others (R125). -/
def popMin : List CodeTree → Option (CodeTree × List CodeTree)
  | [] => none
  | x :: q =>
    match popMin q with
    | none => some (x, [])
    | some (m, rest) => if keyLt x m then some (x, q) else some (m, x :: rest)

/-- One Leaf for each symbol of non-zero weight (R123). -/
def treeLeaves (w : Byte → Rat) : List CodeTree :=
  (allSymbols.filter (fun s => decide (0 < w s))).map (fun s => .leaf s (w s))

/-- The merge loop; `n` rounds are enough for a queue of `n` nodes. -/
def buildLoop : Nat → List CodeTree → Option CodeTree
  | _, [] => none
  | _, [t] => some t
  | 0, _ => none
  | n + 1, q =>
    match popMin q with
    | none => none
    | some (a, q₁) =>
      match popMin q₁ with
      | none => some a
      | some (b, q₂) => buildLoop n (mergeNodes a b :: q₂)

/-- BUILD (R125): none only for an empty leaf set, which NORMALIZE has already refused. -/
def buildTree (w : Byte → Rat) : Option CodeTree := buildLoop (treeLeaves w).length (treeLeaves w)

/-! ## DERIVE (R128) -/

/-- `walk(node, path)`: the codewords below a node, left (bit 0) before right (bit 1). -/
def walkTree : CodeTree → Bits → List (Byte × Bits)
  | .leaf s _, path => [(s, path)]
  | .node l r _ _, path => walkTree l (path ++ [false]) ++ walkTree r (path ++ [true])

/-- `cw[s]`, where the symbol has a Leaf. -/
def codewordOf (t : CodeTree) (s : Byte) : Option Bits := (walkTree t []).lookup s

/-! ## LAYOUT (R130) -/

/-- The number of Internal nodes. -/
def internalCount : CodeTree → Nat
  | .leaf _ _ => 0
  | .node l r _ _ => 1 + internalCount l + internalCount r

/-- `(LEAF, REF)` of a node: a Leaf's symbol, or the number `n` of an Internal node. -/
def treeRef (n : Nat) : CodeTree → Bool × Byte
  | .leaf s _ => (true, s)
  | .node _ _ _ _ => (false, BitVec.ofNat 8 n)

/-- The Internal nodes in preorder from number `n`: number, left reference, right reference. -/
def layoutFrom : Nat → CodeTree → List (Nat × (Bool × Byte) × (Bool × Byte))
  | _, .leaf _ _ => []
  | n, .node l r _ _ =>
    (n, treeRef (n + 1) l, treeRef (n + 1 + internalCount l) r) ::
      (layoutFrom (n + 1) l ++ layoutFrom (n + 1 + internalCount l) r)

/-! ## LOAD (R131) -/

/-- The codeword commands of one symbol: CW_LOAD, or CW_ABSENT for a symbol without a codeword. -/
def loadSymbol (t : CodeTree) (s : Byte) : List Instr :=
  match codewordOf t s with
  | some cw => cwLoad s cw
  | none => cwAbsent s

/-- The node commands of one Internal node. -/
def loadNode (e : Nat × (Bool × Byte) × (Bool × Byte)) : List Instr :=
  [.nodeL (BitVec.ofNat 8 e.1) e.2.1.1 e.2.1.2, .nodeR (BitVec.ofNat 8 e.1) e.2.2.1 e.2.2.2]

/-- LOAD of a Code Tree without its final LOCK (`70_reset_and_hazards.md` R249, step 4). -/
def loadTables (t : CodeTree) : List Instr :=
  allSymbols.flatMap (loadSymbol t) ++ (layoutFrom 0 t).flatMap loadNode ++
    [.treeRoot (treeRef 0 t).1 (treeRef 0 t).2]

/-- LOAD, the command sequence that installs the Compiled Code of a Code Tree (R131); `LOAD_CODE` of `30_encoding.md`
R99. -/
def loadCode (t : CodeTree) : List Instr := loadTables t ++ [.lock]

/-- The load sequence of a frequency table given by its counts: NORMALIZE, BUILD, then LOAD of the tree. -/
def compileCounts (c : Counts) : Except CompileError (List Instr) :=
  match normalizeCounts c with
  | .error e => .error e
  | .ok w =>
    match buildTree w with
    | none => .error .degenerateInput
    | some t => .ok (loadCode t)

end Sys2Proof.Machine
end

