-- ==== Sys2Proof/Safety.lean ====
section
/-! DEFINITION. The vocabulary of the claims: the invariants of `10_state.md` R44 and R45 and of the lock, the errors and
the counters; the reset values of R50; what a consistent load is (`41_host_reference_compile.md` R132, `44_decoder.md` R182); which parts of a
state the host can ever see (R50, `93_implementation_defined.md` U1 to U5). -/

namespace Sys2Proof.Machine

/-! ## Invariants -/

/-- The encoder's invariants (`10_state.md` R44). -/
def EncoderInv (s : State) : Prop :=
  s.encAcc.length < 8 ∧
  (s.encSt ≠ .active → s.encAcc = [] ∧ s.encPend = []) ∧
  s.encQ.length + s.encPend.length ≤ s.cfg.encDepth

/-- The decoder's invariants on its lists (`10_state.md` R45). -/
def DecoderInv (s : State) : Prop :=
  (s.decSt ≠ .active → s.decPend = []) ∧
  s.decQ.length + s.decPend.length ≤ s.cfg.decDepth

/-- A unit is ACTIVE only while the Compiled Code is locked, the decoder only with a root (`20_memory.md` R75). -/
def LockInv (s : State) : Prop :=
  (s.encSt = .active → s.locked = true) ∧
  (s.decSt = .active → s.locked = true ∧ s.root.v = true)

/-- A unit is in ERROR exactly while its error field is not NONE, and each error field holds only codes that
`60_exceptions.md` R221 records there. -/
def ErrorInv (s : State) : Prop :=
  (s.encSt = .error ↔ s.encErr ≠ .none) ∧
  (s.decSt = .error ↔ s.decErr ≠ .none) ∧
  s.cmdErr ∈ [.none, .illegalCmd, .tableLocked, .busy] ∧
  s.encErr ∈ [.none, .notLocked, .sequence, .unknownSymbol, .overflow] ∧
  s.decErr ∈ [.none, .notLocked, .sequence, .overflow, .malformedPadding, .truncatedCode, .tableError, .excessBits]

/-- Both tables are in canonical form (log 12). -/
def TablesInv (s : State) : Prop :=
  tableWf CodewordEntry.blank s.cwt = true ∧ tableWf NodeEntry.blank s.nt = true

/-- During a message the counters measure the pending output without a wrap: ENC_NBITS the packed and the held bits
(`43_encoder.md` R156), DEC_NSYM the pending symbols (`44_decoder.md` R173). -/
def CountersInv (s : State) : Prop :=
  (s.encSt = .active → s.encNbits.toNat = 8 * s.encPend.length + s.encAcc.length) ∧
  (s.decSt = .active → s.decNsym.toNat = s.decPend.length)

/-- The invariant of the machine. -/
def MachineInv (s : State) : Prop :=
  s.cfg.Valid ∧ TablesInv s ∧ EncoderInv s ∧ DecoderInv s ∧ LockInv s ∧ ErrorInv s ∧ CountersInv s

/-! ## Reset -/

/-- Every component has its value of `10_state.md` R50; the values R50 leaves unspecified are not constrained. -/
def ResetValues (s : State) : Prop :=
  s.locked = false ∧
  (∀ sym, (cwEntry s sym).v = false) ∧
  (∀ n, (ntEntry s n).lv = false ∧ (ntEntry s n).rv = false) ∧
  s.root.v = false ∧
  s.cmdErr = .none ∧ s.encErr = .none ∧ s.decErr = .none ∧
  s.encSt = .idle ∧ s.decSt = .idle ∧
  s.encAcc = [] ∧ s.encPend = [] ∧ s.encQ = [] ∧ s.decPend = [] ∧ s.decQ = [] ∧
  s.encNsym = 0 ∧ s.encNbits = 0 ∧ s.decNsym = 0 ∧ s.decNbits = 0 ∧
  s.encErrsym = 0 ∧ s.degCount = 0

/-! ## What an instruction performs -/

/-- Performing `i` performs the command `c`: it is `c`, or a write of CMD whose word decodes to `c`
(`45_register_access.md` R211). -/
def Performs (i c : Instr) : Prop :=
  i = c ∨ ∃ addr w, i = .wrCmd addr w ∧ decodeCommand w = .ok c

/-! ## Consistent loads (`41_host_reference_compile.md` R132, `44_decoder.md` R182) -/

/-- Walk from the Internal node `pos` through `nt` by the bits: the Leaf reached exactly after the last bit, if the
walk passes only Internal nodes with the needed reference defined. -/
def walkNodes (s : State) : Byte → Bits → Option Byte
  | _, [] => none
  | pos, b :: bs =>
    match childOf (ntEntry s pos) b with
    | none => none
    | some ref =>
      if refIsLeaf ref then (if bs = [] then some (refVal ref) else none)
      else walkNodes s (refVal ref) bs

/-- The Leaf reached from the root exactly after the last bit; the degenerate root is itself a Leaf. -/
def walkRoot (s : State) (bits : Bits) : Option Byte :=
  if s.root.v = false then none
  else if s.root.leaf then (if bits = [] then some s.root.val else none)
  else walkNodes s s.root.val bits

/-- The two conditions of R132: the codewords and the node table say one thing. -/
def CodewordsMatchTree (s : State) : Prop :=
  (∀ sym, (cwEntry s sym).v = true → walkRoot s (codeword (cwEntry s sym)) = some sym) ∧
  (∀ bits sym, walkRoot s bits = some sym → (cwEntry s sym).v = true)

/-- The node table describes, from the reference `ref`, a full tree of the shape of the Code Tree: a Leaf with its symbol, or
an Internal node with both children defined (R124, R130). The weights of the Code Tree play no part. -/
def refDescribes (s : State) : Ref → CodeTree → Prop
  | ref, .leaf sym _ => refIsLeaf ref = true ∧ refVal ref = sym
  | ref, .node left right _ _ =>
    refIsLeaf ref = false ∧
      (∃ l, childOf (ntEntry s (refVal ref)) false = some l ∧ refDescribes s l left) ∧
      ∃ r, childOf (ntEntry s (refVal ref)) true = some r ∧ refDescribes s r right

/-- `nt` and `root` describe one full tree (U16 of `93_implementation_defined.md`). -/
def FullTree (s : State) : Prop :=
  s.root.v = true ∧ ∃ tree, refDescribes s (refOf s.root.leaf s.root.val) tree

/-- The loaded Compiled Code is consistent (the host's duty by `70_reset_and_hazards.md` R252): the two conditions of R132,
and one full tree, which `44_decoder.md` R182, C6 of `90_conflicts.md` and U16 of `93_implementation_defined.md` take a
consistent load to be. Read together from these rules (DEDUCED, log 24). -/
def Consistent (s : State) : Prop := CodewordsMatchTree s ∧ FullTree s

/-- During a message under a tree with two or more leaves the decoder's position is an Internal node of a full tree. -/
def DecoderInTree (s : State) : Prop :=
  s.decSt = .active → s.root.leaf = false → ∃ tree, refDescribes s (refOf false s.decPos) tree

/-! ## The payload of a byte (`44_decoder.md` R174) -/

/-- The payload bits that a DEC_BYTE feeds, in order: all eight, or those of a nonzero final byte above its padding; a
zero final byte has none. -/
def bytePayload (last : Bool) (byte : Byte) : Bits := if last then finalPayload byte else byteBits byte

/-! ## What the host can see (`10_state.md` R50) -/

/-- Two codeword entries agree where a rule may read them: `len` where `v = 1`, `bits` below `len` (U1, U5). -/
def SameCodeword (a b : CodewordEntry) : Prop :=
  a.v = b.v ∧ (a.v = true → a.len = b.len ∧ ∀ i, i < a.len.toNat → a.bits.getLsbD i = b.bits.getLsbD i)

/-- Two node entries agree where a rule may read them: a reference where it is defined (U2). -/
def SameNode (a b : NodeEntry) : Prop :=
  a.lv = b.lv ∧ a.rv = b.rv ∧ (a.lv = true → a.l = b.l) ∧ (a.rv = true → a.r = b.r)

/-- Two states agree on everything but the contents that `10_state.md` R50 calls unspecified and unobservable and the
codeword bits beyond their length: U1 to U5 of `93_implementation_defined.md`. -/
def SameVisible (s t : State) : Prop :=
  (∀ sym, SameCodeword (cwEntry s sym) (cwEntry t sym)) ∧
  (∀ n, SameNode (ntEntry s n) (ntEntry t n)) ∧
  (s.root.v = t.root.v ∧ (s.root.v = true → s.root = t.root)) ∧
  (s.decSt = .active → s.decPos = t.decPos) ∧
  { s with cwt := t.cwt, nt := t.nt, root := t.root, decPos := t.decPos } = t

/-! ## The state of each unit (`20_memory.md` R72) -/

/-- The encoder's own components. -/
def encoderView (s : State) : UnitState × ErrCode × Bits × List Byte × List (Byte × Bool) × Word × Word × Byte :=
  (s.encSt, s.encErr, s.encAcc, s.encPend, s.encQ, s.encNsym, s.encNbits, s.encErrsym)

/-- The decoder's own components, DEG_COUNT among them. -/
def decoderView (s : State) : UnitState × ErrCode × Byte × List Byte × List (Byte × Bool) × Word × Word × Word :=
  (s.decSt, s.decErr, s.decPos, s.decPend, s.decQ, s.decNsym, s.decNbits, s.degCount)

/-- The commands that write the Compiled Code (`42_table_load.md`). -/
def TableLoadCommand (i : Instr) : Prop :=
  (∃ sym v len, i = .cwDef sym v len) ∨ (∃ sym idx data, i = .cwBits sym idx data) ∨
  (∃ node leaf ref, i = .nodeL node leaf ref) ∨ (∃ node leaf ref, i = .nodeR node leaf ref) ∨
  ∃ leaf ref, i = .treeRoot leaf ref

/-- The commands of the encoder (`43_encoder.md`). -/
def EncoderCommand (i : Instr) : Prop :=
  i = .encStart ∨ (∃ sym, i = .encSym sym) ∨ i = .encEnd ∨ i = .encAbort

/-- The commands of the decoder (`44_decoder.md`). -/
def DecoderCommand (i : Instr) : Prop :=
  i = .decStart ∨ (∃ last byte, i = .decByte last byte) ∨ i = .decAbort

end Sys2Proof.Machine
end

