-- ==== Sys2Proof/Certificates/Slice0/Obligations.lean ====
section
/-! DEFINITION. The statements for the provers. Each docstring says which rule of spec/ it formalises; a statement that
rests on a choice of the model's own names the log entry. -/

open Sys2Proof Sys2Proof.Machine

/-! ## System commands -/

/-- `40_system_commands.md` R111, R113, R114: NOP changes nothing, CLR_ERR clears only CMD_ERR, LOCK sets only LOCKED and
checks nothing; their words; and a word with opcode 0x00 and another bit set only records ILLEGAL_CMD. -/
def Obligations.NopClrErrLockResults : Prop :=
  (∀ s : State,
    exec .nop s = .next s ∧
    exec .clrErr s = .next { s with cmdErr := .none } ∧
    exec .lock s = .next { s with locked := true }) ∧
  encode .nop = .command 0x00000000 ∧ encode .clrErr = .command 0x02000000 ∧ encode .lock = .command 0x20000000 ∧
  ∀ w : Word, w.extractLsb' 24 8 = 0 → w ≠ 0 →
    decodeCommand w = .error .reservedBits ∧
    ∀ (s : State) (a : Byte), exec (.wrCmd a w) s =
      .next { s with cmdErr := if s.cmdErr = .none then .illegalCmd else s.cmdErr }

/-- `40_system_commands.md` R115: UNLOCK clears LOCKED exactly when no unit is ACTIVE; otherwise it is refused with BUSY
and LOCKED stays. A unit in ERROR does not block it. -/
def Obligations.UnlockResult : Prop :=
  (∀ s : State,
    (s.encSt ≠ .active → s.decSt ≠ .active → exec .unlock s = .next { s with locked := false }) ∧
    (s.encSt = .active ∨ s.decSt = .active →
      exec .unlock s = .next { s with cmdErr := if s.cmdErr = .none then .busy else s.cmdErr })) ∧
  encode .unlock = .command 0x21000000

/-- `40_system_commands.md` R112: RESET gives every component of `10_state.md` R21 its reset value (R50), from every state,
and all STATUS fields become 0; its word. The depths are configuration and stay; so do the port fields, which are the
model's own (log 11). -/
def Obligations.SoftResetGivesResetValues : Prop :=
  (∀ s : State, ∃ t, exec .reset s = .next t ∧ ResetValues t ∧ statusWord t = 0 ∧ t.cfg = s.cfg) ∧
  encode .reset = .command 0x01000000

/-- `70_reset_and_hazards.md` R246, as events on the model's input list (the model's choice, logs 1, 2, 11 and 22): a rising
edge with `rst_n = 0` gives every component its reset value from every state and acknowledges nothing; an access the host
holds waits, and the first one acknowledged afterwards sees the reset state. `State.reset` has the reset values too. -/
def Obligations.ResetEdgeGivesResetValues : Prop :=
  (ResetValues State.reset ∧ statusWord State.reset = 0) ∧
  ∀ (s : State) (es : List PortEvent), s.inputs = .resetEdge :: es →
    ∃ t, step s = .next t ∧ ResetValues t ∧ statusWord t = 0 ∧
      t.cfg = s.cfg ∧ t.inputs = es ∧ t.ack = false ∧ t.rdata = none ∧
      ∀ a es', es = .access a :: es' →
        step t = exec (decodeAccess a) { t with inputs := es', ack := true, rdata := none }

/-! ## Table load -/

/-- `42_table_load.md` R140: while locked every table-load command only records TABLE_LOCKED. -/
def Obligations.TableCommandsRefusedWhileLocked : Prop :=
  ∀ s : State, s.locked = true →
    (∀ sym v len, exec (.cwDef sym v len) s =
      .next { s with cmdErr := if s.cmdErr = .none then .tableLocked else s.cmdErr }) ∧
    (∀ sym idx data, exec (.cwBits sym idx data) s =
      .next { s with cmdErr := if s.cmdErr = .none then .tableLocked else s.cmdErr }) ∧
    (∀ node leaf ref, exec (.nodeL node leaf ref) s =
      .next { s with cmdErr := if s.cmdErr = .none then .tableLocked else s.cmdErr }) ∧
    (∀ node leaf ref, exec (.nodeR node leaf ref) s =
      .next { s with cmdErr := if s.cmdErr = .none then .tableLocked else s.cmdErr }) ∧
    (∀ leaf ref, exec (.treeRoot leaf ref) s =
      .next { s with cmdErr := if s.cmdErr = .none then .tableLocked else s.cmdErr })

/-- `42_table_load.md` R141: CW_DEF while unlocked defines the symbol's valid bit and length, clears its bits, and changes
no other entry and nothing else; its word; while locked it is refused. The premise `TablesInv` is the canonical form of
the model's tables (log 12), which every step keeps. -/
def Obligations.CwDefResult : Prop :=
  ∀ (s : State) (sym : Byte) (v : Bool) (len : Byte),
    (TablesInv s → s.locked = false →
      ∃ t, exec (.cwDef sym v len) s = .next t ∧
        cwEntry t sym = { v := v, len := len, bits := 0 } ∧
        (∀ y, y ≠ sym → cwEntry t y = cwEntry s y) ∧
        t = { s with cwt := t.cwt }) ∧
    (s.locked = true → exec (.cwDef sym v len) s =
      .next { s with cmdErr := if s.cmdErr = .none then .tableLocked else s.cmdErr }) ∧
    encode (.cwDef sym v len) = .command
      (0x10000000 ||| sym.setWidth 32 <<< 16 ||| (if v then 0x8000 else 0) ||| len.setWidth 32)

/-- `42_table_load.md` R142: CW_BITS while unlocked writes codeword bits `8*IDX .. 8*IDX+7`, DATA bit 7 first, and keeps
every other bit, `v`, `len`, every other entry and everything else; its word; while locked it is refused. -/
def Obligations.CwBitsResult : Prop :=
  ∀ (s : State) (sym : Byte) (idx : BitVec 5) (data : Byte),
    (TablesInv s → s.locked = false →
      ∃ t, exec (.cwBits sym idx data) s = .next t ∧
        (cwEntry t sym).v = (cwEntry s sym).v ∧ (cwEntry t sym).len = (cwEntry s sym).len ∧
        (∀ j, j < 8 → (cwEntry t sym).bits.getLsbD (8 * idx.toNat + j) = data.getLsbD (7 - j)) ∧
        (∀ n, n < 256 → n / 8 ≠ idx.toNat → (cwEntry t sym).bits.getLsbD n = (cwEntry s sym).bits.getLsbD n) ∧
        (∀ y, y ≠ sym → cwEntry t y = cwEntry s y) ∧
        t = { s with cwt := t.cwt }) ∧
    (s.locked = true → exec (.cwBits sym idx data) s =
      .next { s with cmdErr := if s.cmdErr = .none then .tableLocked else s.cmdErr }) ∧
    encode (.cwBits sym idx data) = .command
      (0x11000000 ||| sym.setWidth 32 <<< 16 ||| idx.setWidth 32 <<< 11 ||| data.setWidth 32)

/-- `42_table_load.md` R143, R144: NODE_L and NODE_R while unlocked define one child reference `LEAF*256 + REF` of one
node and change nothing else; their words; while locked they are refused. -/
def Obligations.NodeCommandResults : Prop :=
  ∀ (s : State) (node : Byte) (leaf : Bool) (ref : Byte),
    (TablesInv s → s.locked = false →
      (∃ t, exec (.nodeL node leaf ref) s = .next t ∧
        (ntEntry t node).lv = true ∧ (ntEntry t node).l.toNat = leaf.toNat * 256 + ref.toNat ∧
        (ntEntry t node).rv = (ntEntry s node).rv ∧ (ntEntry t node).r = (ntEntry s node).r ∧
        (∀ y, y ≠ node → ntEntry t y = ntEntry s y) ∧ t = { s with nt := t.nt }) ∧
      (∃ t, exec (.nodeR node leaf ref) s = .next t ∧
        (ntEntry t node).rv = true ∧ (ntEntry t node).r.toNat = leaf.toNat * 256 + ref.toNat ∧
        (ntEntry t node).lv = (ntEntry s node).lv ∧ (ntEntry t node).l = (ntEntry s node).l ∧
        (∀ y, y ≠ node → ntEntry t y = ntEntry s y) ∧ t = { s with nt := t.nt })) ∧
    (s.locked = true →
      exec (.nodeL node leaf ref) s = .next { s with cmdErr := if s.cmdErr = .none then .tableLocked else s.cmdErr } ∧
      exec (.nodeR node leaf ref) s = .next { s with cmdErr := if s.cmdErr = .none then .tableLocked else s.cmdErr }) ∧
    encode (.nodeL node leaf ref) = .command
      (0x18000000 ||| node.setWidth 32 <<< 16 ||| (if leaf then 0x100 else 0) ||| ref.setWidth 32) ∧
    encode (.nodeR node leaf ref) = .command
      (0x19000000 ||| node.setWidth 32 <<< 16 ||| (if leaf then 0x100 else 0) ||| ref.setWidth 32)

/-- `42_table_load.md` R145: TREE_ROOT while unlocked defines the root register and nothing else, and STATUS then shows
ROOT_V = 1 and ROOT_LEAF = LEAF; its word; while locked it is refused. -/
def Obligations.TreeRootResult : Prop :=
  ∀ (s : State) (leaf : Bool) (ref : Byte),
    (s.locked = false →
      ∃ t, exec (.treeRoot leaf ref) s = .next t ∧
        t = { s with root := { v := true, leaf := leaf, val := ref } } ∧
        (statusWord t).getLsbD 20 = true ∧ (statusWord t).getLsbD 21 = leaf) ∧
    (s.locked = true → exec (.treeRoot leaf ref) s =
      .next { s with cmdErr := if s.cmdErr = .none then .tableLocked else s.cmdErr }) ∧
    encode (.treeRoot leaf ref) = .command (0x1A000000 ||| (if leaf then 0x100 else 0) ||| ref.setWidth 32)

/-! ## Encoder -/

/-- `43_encoder.md` R152 and `20_memory.md` R64: `byte(t)` has `t[j]` as its bit `7 - j`, and the bits of a byte in stream
order are its bit 7 first. -/
def Obligations.BytePackingIsMostSignificantBitFirst : Prop :=
  (∀ (t : Bits) (h : t.length = 8) (j : Nat) (hj : j < 8), (packByte t).getLsbD (7 - j) = t[j]) ∧
  (∀ (b : Byte) (j : Nat), j < 8 → (byteBits b)[j]? = some (b.getLsbD (7 - j))) ∧
  ∀ b : Byte, (byteBits b).length = 8

/-- `43_encoder.md` R151: ENC_START in every state of the unit and the lock; committed bytes and ENC_ERRSYM stay. -/
def Obligations.EncStartResult : Prop :=
  (∀ s : State,
    (s.encSt = .error → exec .encStart s = .next s) ∧
    (s.encSt ≠ .error → s.locked = false → exec .encStart s =
      .next { s with encSt := .error, encErr := .notLocked, encAcc := [], encPend := [] }) ∧
    (s.encSt = .active → s.locked = true → exec .encStart s =
      .next { s with encSt := .error, encErr := .sequence, encAcc := [], encPend := [] }) ∧
    (s.encSt = .idle → s.locked = true → exec .encStart s =
      .next { s with encSt := .active, encAcc := [], encPend := [], encNsym := 0, encNbits := 0 })) ∧
  encode .encStart = .command 0x40000000

/-- `43_encoder.md` R153: ENC_SYM, its checks in order, and its effect: the held bits and the codeword, in order, are the
bits of the bytes that become pending and of the fewer than eight bits that stay held; the counters count. -/
def Obligations.EncSymResult : Prop :=
  ∀ (s : State) (sym : Byte),
    (s.encSt = .error → exec (.encSym sym) s = .next s) ∧
    (s.encSt = .idle → exec (.encSym sym) s =
      .next { s with encSt := .error, encErr := .sequence, encAcc := [], encPend := [] }) ∧
    (s.encSt = .active → (cwEntry s sym).v = false → exec (.encSym sym) s =
      .next { s with encErrsym := sym, encSt := .error, encErr := .unknownSymbol, encAcc := [], encPend := [] }) ∧
    (s.encSt = .active → (cwEntry s sym).v = true →
      s.encQ.length + s.encPend.length + (s.encAcc.length + (cwEntry s sym).len.toNat) / 8 > s.cfg.encDepth →
      exec (.encSym sym) s =
        .next { s with encSt := .error, encErr := .overflow, encAcc := [], encPend := [] }) ∧
    (s.encSt = .active → (cwEntry s sym).v = true →
      s.encQ.length + s.encPend.length + (s.encAcc.length + (cwEntry s sym).len.toNat) / 8 ≤ s.cfg.encDepth →
      ∃ bytes acc,
        bytes.length = (s.encAcc.length + (cwEntry s sym).len.toNat) / 8 ∧ acc.length < 8 ∧
        bytes.flatMap byteBits ++ acc =
          s.encAcc ++ (List.range (cwEntry s sym).len.toNat).map (fun i => (cwEntry s sym).bits.getLsbD i) ∧
        exec (.encSym sym) s = .next { s with
          encPend := s.encPend ++ bytes
          encAcc := acc
          encNsym := s.encNsym + 1
          encNbits := s.encNbits + (cwEntry s sym).len.setWidth 32 }) ∧
    encode (.encSym sym) = .command (0x41000000 ||| sym.setWidth 32)

/-- `43_encoder.md` R155, which the spec derives from R153, R156 and `10_state.md` R44: how many bytes one ENC_SYM and one
ENC_END push; and the sentence after R156 that the spec derives, "`r = enc_nbits mod 8` holds because `enc_nbits` cannot
wrap within one message", under the machine's invariant. -/
def Obligations.BytesPushedPerCommand : Prop :=
  (∀ (s t : State) (sym : Byte), EncoderInv s → s.encSt = .active → exec (.encSym sym) s = .next t →
    t.encSt = .active →
    t.encPend.length = s.encPend.length + (s.encAcc.length + (cwEntry s sym).len.toNat) / 8 ∧
    (s.encAcc.length + (cwEntry s sym).len.toNat) / 8 ≤ 32) ∧
  (∀ s t : State, s.encSt = .active → exec .encEnd s = .next t → t.encSt = .idle →
    t.encQ.length = s.encQ.length + (s.encPend.length + 1)) ∧
  ∀ s : State, MachineInv s → s.encSt = .active → s.encAcc.length = s.encNbits.toNat % 8

/-- `43_encoder.md` R156: ENC_END in every state of the unit: the padding is a 1 and then 0 bits up to a whole byte, never
empty, and the message commits in order with LAST on its final byte; the counters stay. The premise on `encAcc` is part of
`EncoderInv`, which every step keeps. -/
def Obligations.EncEndResult : Prop :=
  (∀ s : State,
    (s.encSt = .error → exec .encEnd s = .next s) ∧
    (s.encSt = .idle → exec .encEnd s =
      .next { s with encSt := .error, encErr := .sequence, encAcc := [], encPend := [] }) ∧
    (s.encSt = .active → s.encQ.length + s.encPend.length + 1 > s.cfg.encDepth → exec .encEnd s =
      .next { s with encSt := .error, encErr := .overflow, encAcc := [], encPend := [] }) ∧
    (s.encSt = .active → s.encQ.length + s.encPend.length + 1 ≤ s.cfg.encDepth → s.encAcc.length < 8 →
      ∃ final, byteBits final = s.encAcc ++ [true] ++ List.replicate (8 - s.encAcc.length - 1) false ∧
        exec .encEnd s = .next { s with
          encQ := s.encQ ++ (s.encPend.map (fun b => (b, false)) ++ [(final, true)])
          encPend := []
          encAcc := []
          encSt := .idle })) ∧
  encode .encEnd = .command 0x42000000

/-- `43_encoder.md` R159, `44_decoder.md` R180: the aborts return their unit to IDLE without an error from every state,
discard its pending output and keep everything else. -/
def Obligations.AbortResults : Prop :=
  (∀ s : State,
    exec .encAbort s = .next { s with encSt := .idle, encErr := .none, encAcc := [], encPend := [] } ∧
    exec .decAbort s = .next { s with decSt := .idle, decErr := .none, decPend := [] }) ∧
  encode .encAbort = .command 0x43000000 ∧ encode .decAbort = .command 0x52000000

/-- `43_encoder.md` R150, `44_decoder.md` R170: a unit in ERROR ignores every command of its own but ABORT. -/
def Obligations.UnitsInErrorIgnoreTheirCommands : Prop :=
  ∀ s : State,
    (s.encSt = .error → ∀ i, EncoderCommand i → i ≠ .encAbort → exec i s = .next s) ∧
    (s.decSt = .error → ∀ i, DecoderCommand i → i ≠ .decAbort → exec i s = .next s)

/-- `43_encoder.md` R157, which the spec derives from R153 and R156: a message of symbols that all have a codeword, with room for it, commits the packing of its
codewords followed by the padding; only the final byte has LAST, and it is never zero. -/
def Obligations.CommittedMessageBytes : Prop :=
  ∀ (s : State) (syms : List Byte),
    s.encSt = .idle → s.locked = true → (∀ x ∈ syms, (cwEntry s x).v = true) →
    s.encQ.length + ((syms.flatMap (fun x => codeword (cwEntry s x))).length / 8 + 1) ≤ s.cfg.encDepth →
    ∃ t bytes final,
      runInstrs (encMsg syms) s = .next t ∧
      t.encQ = s.encQ ++ (bytes.map (fun b => (b, false)) ++ [(final, true)]) ∧
      (bytes ++ [final]).flatMap byteBits =
        syms.flatMap (fun x => codeword (cwEntry s x)) ++
          true :: List.replicate (7 - (syms.flatMap (fun x => codeword (cwEntry s x))).length % 8) false ∧
      final ≠ 0 ∧
      t = { s with encQ := t.encQ, encAcc := [], encPend := [],
                   encNsym := BitVec.ofNat 32 syms.length,
                   encNbits := BitVec.ofNat 32 (syms.flatMap (fun x => codeword (cwEntry s x))).length }

/-! ## Decoder -/

/-- `44_decoder.md` R171: DEC_START in every state of the unit, the lock and the root; committed symbols and DEG_COUNT
stay. -/
def Obligations.DecStartResult : Prop :=
  (∀ s : State,
    (s.decSt = .error → exec .decStart s = .next s) ∧
    (s.decSt ≠ .error → s.locked = false → exec .decStart s =
      .next { s with decSt := .error, decErr := .notLocked, decPend := [] }) ∧
    (s.decSt = .active → s.locked = true → exec .decStart s =
      .next { s with decSt := .error, decErr := .sequence, decPend := [] }) ∧
    (s.decSt = .idle → s.locked = true → s.root.v = false → exec .decStart s =
      .next { s with decSt := .error, decErr := .tableError, decPend := [] }) ∧
    (s.decSt = .idle → s.locked = true → s.root.v = true → exec .decStart s =
      .next { s with decSt := .active, decPos := s.root.val, decPend := [], decNsym := 0, decNbits := 0 })) ∧
  encode .decStart = .command 0x50000000

/-- `44_decoder.md` R173: FEED of one bit: where it fails and with which code, and what it does otherwise. `ok` and `ref`
are the valid bit and the reference of the child that the bit selects. And `feedBits`
is FEED bit by bit: no bits change nothing, a bit that succeeds hands its state to the rest, and the first failure ends it
("a failure in it ends the DEC_BYTE command"). -/
def Obligations.FeedResult : Prop :=
  (∀ s : State, feedBits [] s = .ok s) ∧
  (∀ (b : Bool) (bs : Bits) (s t : State), feed b s = .ok t → feedBits (b :: bs) s = feedBits bs t) ∧
  (∀ (b : Bool) (bs : Bits) (s t : State), feed b s = .error t → feedBits (b :: bs) s = .error t) ∧
  ∀ (s : State) (b : Bool),
    (s.root.leaf = true → feed b s = .error { s with decSt := .error, decErr := .excessBits, decPend := [] }) ∧
    ∀ (ok : Bool) (ref : Ref),
      (b = false → ok = (ntEntry s s.decPos).lv ∧ ref = (ntEntry s s.decPos).l) →
      (b = true → ok = (ntEntry s s.decPos).rv ∧ ref = (ntEntry s s.decPos).r) →
      s.root.leaf = false →
      (ok = false → feed b s = .error { s with decSt := .error, decErr := .tableError, decPend := [] }) ∧
      (ok = true → ref.getLsbD 8 = true → s.decQ.length + s.decPend.length + 1 > s.cfg.decDepth →
        feed b s = .error { s with decSt := .error, decErr := .overflow, decPend := [] }) ∧
      (ok = true → ref.getLsbD 8 = true → s.decQ.length + s.decPend.length + 1 ≤ s.cfg.decDepth →
        feed b s = .ok { s with
          decNbits := s.decNbits + 1
          decPend := s.decPend ++ [ref.extractLsb' 0 8]
          decNsym := s.decNsym + 1
          decPos := s.root.val }) ∧
      (ok = true → ref.getLsbD 8 = false →
        feed b s = .ok { s with decNbits := s.decNbits + 1, decPos := ref.extractLsb' 0 8 })

/-- `44_decoder.md` R174: DEC_BYTE: the checks in order, the bits fed and their order, and the end of the message after
the payload bits of a final byte. `feedBits` is FEED (R173) bit by bit up to the first failure. -/
def Obligations.DecByteResult : Prop :=
  (∀ (s : State) (last : Bool) (byte : Byte),
    (s.decSt = .error → exec (.decByte last byte) s = .next s) ∧
    (s.decSt = .idle → exec (.decByte last byte) s =
      .next { s with decSt := .error, decErr := .sequence, decPend := [] })) ∧
  (∀ (s : State) (byte : Byte), s.decSt = .active →
    (∀ t, feedBits [byte.getLsbD 7, byte.getLsbD 6, byte.getLsbD 5, byte.getLsbD 4, byte.getLsbD 3, byte.getLsbD 2,
        byte.getLsbD 1, byte.getLsbD 0] s = .ok t → exec (.decByte false byte) s = .next t) ∧
    (∀ t, feedBits [byte.getLsbD 7, byte.getLsbD 6, byte.getLsbD 5, byte.getLsbD 4, byte.getLsbD 3, byte.getLsbD 2,
        byte.getLsbD 1, byte.getLsbD 0] s = .error t → exec (.decByte false byte) s = .next t) ∧
    (byte = 0 → exec (.decByte true byte) s =
      .next { s with decSt := .error, decErr := .malformedPadding, decPend := [] }) ∧
    ∀ k, k < 8 → byte.getLsbD k = true → (∀ j, j < k → byte.getLsbD j = false) →
      (∀ t, feedBits ((List.range (7 - k)).map (fun j => byte.getLsbD (7 - j))) s = .error t →
        exec (.decByte true byte) s = .next t) ∧
      ∀ t, feedBits ((List.range (7 - k)).map (fun j => byte.getLsbD (7 - j))) s = .ok t →
        (s.root.leaf = true → s.decQ.length + s.degCount.toNat > s.cfg.decDepth →
          exec (.decByte true byte) s =
            .next { t with decSt := .error, decErr := .overflow, decPend := [] }) ∧
        (s.root.leaf = true → s.decQ.length + s.degCount.toNat ≤ s.cfg.decDepth →
          exec (.decByte true byte) s =
            .next { t with
              decNsym := s.degCount
              decQ := s.decQ ++ tagLast (List.replicate s.degCount.toNat s.root.val)
              decPend := []
              decSt := .idle }) ∧
        (s.root.leaf = false → t.decPos ≠ s.root.val →
          exec (.decByte true byte) s =
            .next { t with decSt := .error, decErr := .truncatedCode, decPend := [] }) ∧
        (s.root.leaf = false → t.decPos = s.root.val →
          exec (.decByte true byte) s =
            .next { t with decQ := s.decQ ++ tagLast t.decPend, decPend := [], decSt := .idle })) ∧
  ∀ (last : Bool) (byte : Byte),
    encode (.decByte last byte) = .command (0x51000000 ||| (if last then 0x100 else 0) ||| byte.setWidth 32)

/-- `44_decoder.md` R178: under a degenerate tree every payload bit is EXCESS_BITS, and the final byte `0x80` commits
`deg_count` copies of the root's symbol, or fails with OVERFLOW where they do not fit. -/
def Obligations.DegenerateMessageResult : Prop :=
  ∀ s : State, s.decSt = .active → s.root.leaf = true →
    (∀ byte, exec (.decByte false byte) s =
      .next { s with decSt := .error, decErr := .excessBits, decPend := [] }) ∧
    (∀ byte, byte ≠ 0 → byte ≠ 0x80 → exec (.decByte true byte) s =
      .next { s with decSt := .error, decErr := .excessBits, decPend := [] }) ∧
    (s.decQ.length + s.degCount.toNat > s.cfg.decDepth → exec (.decByte true 0x80) s =
      .next { s with decSt := .error, decErr := .overflow, decPend := [] }) ∧
    (s.decQ.length + s.degCount.toNat ≤ s.cfg.decDepth → ∃ out, exec (.decByte true 0x80) s = .next { s with
        decQ := s.decQ ++ out
        decPend := []
        decNsym := s.degCount
        decSt := .idle } ∧
      out.map Prod.fst = List.replicate s.degCount.toNat s.root.val ∧
      ∀ j (h : j < out.length), out[j].2 = decide (j + 1 = out.length))

/-- `44_decoder.md` R175, and R182's "exactly the source's Step 1 result", which the spec derives: on the bits of a byte sequence whose final byte is not zero, the source's Step 1 strips
exactly what the block strips from the final byte, 1 to 8 bits; with a zero final byte it would strip more than 8. -/
def Obligations.PaddingRemovalIsTheSourcesStep1 : Prop :=
  ∀ (init : List Byte) (final : Byte),
    (final ≠ 0 →
      stripPadding ((init ++ [final]).flatMap byteBits) = some (init.flatMap byteBits ++ finalPayload final) ∧
      ∃ k, 1 ≤ k ∧ k ≤ 8 ∧ (finalPayload final).length + k = 8) ∧
    (final = 0 → ∀ p, stripPadding ((init ++ [final]).flatMap byteBits) = some p →
      p.length + 8 < ((init ++ [final]).flatMap byteBits).length)

/-- `44_decoder.md` R182, which the spec derives from R173 to R176: a message of `n >= 1` bytes with a nonzero final byte is decoded as one run of FEED over the
payload of all its bytes, whatever the byte boundaries. -/
def Obligations.MessageDecodesAsOnePayload : Prop :=
  ∀ (s : State) (init : List Byte) (final : Byte),
    s.decSt = .idle → s.locked = true → s.root.v = true → final ≠ 0 →
    ∃ s₀, exec .decStart s = .next s₀ ∧
      (∀ t, feedBits (init.flatMap byteBits ++ finalPayload final) s₀ = .ok t →
        runInstrs (decMsg (init ++ [final])) s = .next (finishMessage t)) ∧
      (∀ t, feedBits (init.flatMap byteBits ++ finalPayload final) s₀ = .error t →
        runInstrs (decMsg (init ++ [final])) s = .next t)

/-! ## Register accesses -/

/-- `45_register_access.md` R196, R197, R198, R209, R210, R214: the offsets of these reads, and what they return: a constant,
STATUS or a parameter; nothing but the port's read data changes. -/
def Obligations.ConstantStatusAndCapacityReads : Prop :=
  ∀ (s : State) (a : Byte),
    ((a &&& 0xFC = 0x00 → decodeAccess (.read a) = .rdId a) ∧
      exec (.rdId a) s = .next { s with rdata := some 0x48554631 }) ∧
    ((a &&& 0xFC = 0x04 → decodeAccess (.read a) = .rdCmd a) ∧
      exec (.rdCmd a) s = .next { s with rdata := some 0 }) ∧
    ((a &&& 0xFC = 0x08 → decodeAccess (.read a) = .rdStatus a) ∧
      exec (.rdStatus a) s = .next { s with rdata := some (statusWord s) }) ∧
    ((a &&& 0xFC = 0x34 → decodeAccess (.read a) = .rdEncCap a) ∧
      exec (.rdEncCap a) s = .next { s with rdata := some (BitVec.ofNat 32 s.cfg.encDepth) }) ∧
    ((a &&& 0xFC = 0x38 → decodeAccess (.read a) = .rdDecCap a) ∧
      exec (.rdDecCap a) s = .next { s with rdata := some (BitVec.ofNat 32 s.cfg.decDepth) }) ∧
    ((a &&& 0xFC = 0x3C → decodeAccess (.read a) = .rdRsvd3C a) ∧
      exec (.rdRsvd3C a) s = .next { s with rdata := some 0 }) ∧
    ((a &&& 0xC0 = 0x40 → decodeAccess (.read a) = .rdRsvd40 a) ∧
      exec (.rdRsvd40 a) s = .next { s with rdata := some 0 }) ∧
    ((a &&& 0x80 = 0x80 → decodeAccess (.read a) = .rdRsvd80 a) ∧
      exec (.rdRsvd80 a) s = .next { s with rdata := some 0 })

/-- `45_register_access.md` R201 to R208: the offsets of these reads, and what they return: a counter or a level, exactly
under the machine's invariant; nothing but the port's read data changes. -/
def Obligations.CounterAndLevelReads : Prop :=
  ∀ (s : State) (a : Byte),
    ((a &&& 0xFC = 0x14 → decodeAccess (.read a) = .rdEncNsym a) ∧
      exec (.rdEncNsym a) s = .next { s with rdata := some s.encNsym }) ∧
    ((a &&& 0xFC = 0x18 → decodeAccess (.read a) = .rdEncNbits a) ∧
      exec (.rdEncNbits a) s = .next { s with rdata := some s.encNbits }) ∧
    ((a &&& 0xFC = 0x1C → decodeAccess (.read a) = .rdEncErrsym a) ∧
      exec (.rdEncErrsym a) s = .next { s with rdata := some (s.encErrsym.setWidth 32) }) ∧
    ((a &&& 0xFC = 0x20 → decodeAccess (.read a) = .rdDecNsym a) ∧
      exec (.rdDecNsym a) s = .next { s with rdata := some s.decNsym }) ∧
    ((a &&& 0xFC = 0x24 → decodeAccess (.read a) = .rdDecNbits a) ∧
      exec (.rdDecNbits a) s = .next { s with rdata := some s.decNbits }) ∧
    ((a &&& 0xFC = 0x28 → decodeAccess (.read a) = .rdDegCount a) ∧
      exec (.rdDegCount a) s = .next { s with rdata := some s.degCount }) ∧
    ((a &&& 0xFC = 0x2C → decodeAccess (.read a) = .rdEncOlevel a) ∧
      ∃ v, exec (.rdEncOlevel a) s = .next { s with rdata := some v } ∧ (MachineInv s → v.toNat = s.encQ.length)) ∧
    ((a &&& 0xFC = 0x30 → decodeAccess (.read a) = .rdDecOlevel a) ∧
      ∃ v, exec (.rdDecOlevel a) s = .next { s with rdata := some v } ∧ (MachineInv s → v.toNat = s.decQ.length))

/-- `45_register_access.md` R199, R200: the offsets of ENC_OUT and DEC_OUT; a read pops the oldest entry and returns it with
VALID and LAST; an empty queue reads 0 and nothing changes. -/
def Obligations.OutputReadsPop : Prop :=
  ∀ (s : State) (a : Byte),
    (a &&& 0xFC = 0x0C → decodeAccess (.read a) = .rdEncOut a) ∧
    (a &&& 0xFC = 0x10 → decodeAccess (.read a) = .rdDecOut a) ∧
    (s.encQ = [] → exec (.rdEncOut a) s = .next { s with rdata := some 0 }) ∧
    (∀ b last rest, s.encQ = (b, last) :: rest → exec (.rdEncOut a) s = .next { s with
      encQ := rest
      rdata := some ((if last then 1#32 else 0) <<< 9 ||| 1 <<< 8 ||| b.setWidth 32) }) ∧
    (s.decQ = [] → exec (.rdDecOut a) s = .next { s with rdata := some 0 }) ∧
    (∀ b last rest, s.decQ = (b, last) :: rest → exec (.rdDecOut a) s = .next { s with
      decQ := rest
      rdata := some ((if last then 1#32 else 0) <<< 9 ||| 1 <<< 8 ||| b.setWidth 32) })

/-- `45_register_access.md` R212, R213: a write of DEG_COUNT stores its 32 bits; a write to any other offset but CMD has
no effect, by whichever row it is decoded. -/
def Obligations.DegCountAndIgnoredWrites : Prop :=
  ∀ (s : State) (a : Byte) (w : Word),
    ((a &&& 0xFC = 0x28 → decodeAccess (.write a w) = .wrDegCount a w) ∧
      exec (.wrDegCount a w) s = .next { s with degCount := w }) ∧
    (a &&& 0xFC ≠ 0x04 → a &&& 0xFC ≠ 0x28 → exec (decodeAccess (.write a w)) s = .next s) ∧
    exec (.wrIgnored00 a w) s = .next s ∧ exec (.wrIgnored08 a w) s = .next s ∧
    exec (.wrIgnored10 a w) s = .next s ∧ exec (.wrIgnored20 a w) s = .next s ∧
    exec (.wrIgnored2C a w) s = .next s ∧ exec (.wrIgnored30 a w) s = .next s ∧
    exec (.wrIgnored40 a w) s = .next s ∧ exec (.wrIgnored80 a w) s = .next s

/-- `45_register_access.md` R211: a write of CMD decodes its word and performs that command, once; an illegal word only
records ILLEGAL_CMD (`30_encoding.md` R95). -/
def Obligations.CmdWriteExecutesItsWord : Prop :=
  ∀ (s : State) (a : Byte) (w : Word),
    (a &&& 0xFC = 0x04 → decodeAccess (.write a w) = .wrCmd a w) ∧
    (∀ c, decodeCommand w = .ok c → ∃ t, exec (.wrCmd a w) s = .next t ∧ exec c s = .next t) ∧
    (∀ r, decodeCommand w = .error r → exec (.wrCmd a w) s =
      .next { s with cmdErr := if s.cmdErr = .none then .illegalCmd else s.cmdErr })

/-- `10_state.md` R24: every field of STATUS, with the codes of R46 and R47, and zero in every reserved bit; writes to STATUS
have no effect; and each error field is cleared only by its own command or a reset. -/
def Obligations.StatusFields : Prop :=
  ∀ s : State,
    ((statusWord s).getLsbD 0 = s.locked ∧
      (statusWord s).extractLsb' 1 2 = s.encSt.code ∧
      (statusWord s).extractLsb' 3 2 = s.decSt.code ∧
      (statusWord s).extractLsb' 5 3 = 0 ∧
      (statusWord s).extractLsb' 8 4 = s.encErr.code ∧
      (statusWord s).extractLsb' 12 4 = s.decErr.code ∧
      (statusWord s).extractLsb' 16 4 = s.cmdErr.code ∧
      (statusWord s).getLsbD 20 = s.root.v ∧
      (statusWord s).getLsbD 21 = (if s.root.v then s.root.leaf else false) ∧
      (statusWord s).extractLsb' 22 10 = 0) ∧
    [UnitState.idle, .active, .error].map UnitState.code = [0, 1, 2] ∧
    [ErrCode.none, .illegalCmd, .tableLocked, .busy, .notLocked, .sequence, .unknownSymbol, .overflow, .malformedPadding,
      .truncatedCode, .tableError, .excessBits].map ErrCode.code = [0, 1, 2, 3, 4, 5, 6, 7, 8, 9, 10, 11] ∧
    (∀ a w, a &&& 0xFC = 0x08 → exec (decodeAccess (.write a w)) s = .next s) ∧
    ∀ i t, exec i s = .next t →
      (s.cmdErr ≠ .none → t.cmdErr = .none → Performs i .clrErr ∨ Performs i .reset) ∧
      (s.encErr ≠ .none → t.encErr = .none → Performs i .encAbort ∨ Performs i .reset) ∧
      (s.decErr ≠ .none → t.decErr = .none → Performs i .decAbort ∨ Performs i .reset)

/-! ## Encoding -/

/-- `30_encoding.md` R95 (with the opcode map R91 and the reserved masks R87): a word decodes exactly when its opcode is
one of the seventeen and every reserved bit of its format is 0; any other word only records ILLEGAL_CMD. -/
def Obligations.IllegalWordsOnlyRecordIllegalCmd : Prop :=
  (∀ w : Word,
    (∃ c, decodeCommand w = .ok c) ↔
      (w.extractLsb' 24 8 ∈ [0x00#8, 0x01, 0x02, 0x20, 0x21, 0x40, 0x42, 0x43, 0x50, 0x52] ∧ w &&& 0x00FFFFFF = 0) ∨
      (w.extractLsb' 24 8 = 0x10#8 ∧ w &&& 0x00007F00 = 0) ∨
      (w.extractLsb' 24 8 = 0x11#8 ∧ w &&& 0x00000700 = 0) ∨
      (w.extractLsb' 24 8 ∈ [0x18#8, 0x19] ∧ w &&& 0x0000FE00 = 0) ∨
      (w.extractLsb' 24 8 ∈ [0x1A#8, 0x51] ∧ w &&& 0x00FFFE00 = 0) ∨
      (w.extractLsb' 24 8 = 0x41#8 ∧ w &&& 0x00FFFF00 = 0)) ∧
  ∀ (s : State) (a : Byte) (w : Word), (∀ c, decodeCommand w ≠ .ok c) →
    exec (.wrCmd a w) s = .next { s with cmdErr := if s.cmdErr = .none then .illegalCmd else s.cmdErr }

/-- `30_encoding.md` R92, R93: at most one row of the opcode map takes a command word, and exactly one row of the access
map takes an access descriptor. -/
def Obligations.RowsAreExclusive : Prop :=
  (∀ w : Word, (commandRows.filter (fun r => r.hits w)).length ≤ 1) ∧
  (∀ d : BitVec 9, (accessRows.filter (fun r => r.hits d)).length = 1)

/-- `30_encoding.md` R86 to R93: decoding the encoding of a well-formed instruction gives it back, with every operand at
every value. -/
def Obligations.DecodeOfEncode : Prop :=
  ∀ i : Instr, i.wellFormed = true → decode (encode i) = .ok i

/-- `30_encoding.md` R86 to R95: what decodes is well formed and encodes to what was decoded: no bit of a legal word or
an access is lost, and no two encodings mean one instruction. -/
def Obligations.EncodeOfDecode : Prop :=
  ∀ (e : Encoded) (i : Instr), decode e = .ok i → i.wellFormed = true ∧ encode i = e

/-- `20_memory.md` R66: `addr[1:0]` are ignored: two offsets that agree in bits 7..2 do the same, whatever the access, and no
offset makes an access fail. -/
def Obligations.LowAddressBitsIgnored : Prop :=
  ∀ (s : State) (a a' : Byte), a.extractLsb' 2 6 = a'.extractLsb' 2 6 →
    (∃ t, exec (decodeAccess (.read a)) s = .next t ∧ exec (decodeAccess (.read a')) s = .next t) ∧
    ∀ w, ∃ t, exec (decodeAccess (.write a w)) s = .next t ∧ exec (decodeAccess (.write a' w)) s = .next t

/-- Words of the spec decode to the instructions they stand for, through the opcode table's numbering: the command words of
`40_system_commands.md` R115, `42_table_load.md` R141 to R145, `43_encoder.md` R153 and `44_decoder.md` R174; the illegal word
`0x10414002` of vector S11 of `95_test_vectors.md`; and two access descriptors `we*256 + addr` of `30_encoding.md` R93, the
last offsets of STATUS and of DEG_COUNT. That a word of at most 16 bits is a descriptor, with write data 0, is the model's own
reading of the table (DEDUCED, log 13). -/
def Obligations.SpecWordsDecode : Prop :=
  decodeTableWord 32 0x10418002 = some (.cwDef 0x41 true 2) ∧
  decodeTableWord 32 0x114200C0 = some (.cwBits 0x42 0 0xC0) ∧
  decodeTableWord 32 0x18000143 = some (.nodeL 0 true 0x43) ∧
  decodeTableWord 32 0x19000001 = some (.nodeR 0 false 1) ∧
  decodeTableWord 32 0x1A000158 = some (.treeRoot true 0x58) ∧
  decodeTableWord 32 0x21000000 = some .unlock ∧
  decodeTableWord 32 0x41000041 = some (.encSym 0x41) ∧
  decodeTableWord 32 0x510001A0 = some (.decByte true 0xA0) ∧
  decodeTableWord 32 0x10414002 = none ∧
  decodeTableWord 16 0x00B = some (.rdStatus 0x0B) ∧
  decodeTableWord 16 0x12B = some (.wrDegCount 0x2B 0)

/-! ## The step -/

/-- `00_scope.md` R16, `20_memory.md` R62 and R71, `30_encoding.md` R98: when the host presents the encoding of a
well-formed instruction next, a command word as a write of CMD, the step is that instruction, in the state in which the
access has been taken from the inputs and acknowledged. The port fields are the model's own (logs 1 and 2). -/
def Obligations.StepRunsPresentedInstruction : Prop :=
  ∀ (s : State) (i : Instr) (es : List PortEvent), i.wellFormed = true →
    s.inputs = .access (encode i).toAccess :: es →
    step s = exec i { s with inputs := es, ack := true, rdata := none }

/-- `00_scope.md` R19: with nothing presented the units take no step of their own (the model's reading, log 3). -/
def Obligations.IdleStepChangesNoState : Prop :=
  ∀ s : State, s.inputs = [] → step s = .next { s with ack := false, rdata := none }

/-- `45_register_access.md` R215 and `60_exceptions.md` R242, which the spec derives ("every access is acknowledged"): every
instruction and every step completes with a next state, and none writes the depths. The clauses on `t.inputs` and `t.ack`
are about the model's own input list and port fields (DESIGN CHOICE, logs 1 and 2): an instruction leaves them, and a step
takes one input. -/
def Obligations.EveryAccessCompletes : Prop :=
  (∀ (i : Instr) (s : State), ∃ t, exec i s = .next t ∧ t.cfg = s.cfg ∧ t.inputs = s.inputs ∧ t.ack = s.ack) ∧
  ∀ s : State, ∃ t, step s = .next t ∧ t.cfg = s.cfg ∧ t.inputs = s.inputs.tail

/-! ## Errors and flags -/

/-- `60_exceptions.md` R224: a command error has no other effect, and the first one stays until CLR_ERR or RESET. -/
def Obligations.FirstCommandErrorKept : Prop :=
  ∀ (i : Instr) (s t : State), exec i s = .next t →
    (s.cmdErr = .none → t.cmdErr ≠ .none → t = { s with cmdErr := t.cmdErr }) ∧
    (s.cmdErr ≠ .none → t.cmdErr ≠ s.cmdErr → t.cmdErr = .none ∧ (Performs i .clrErr ∨ Performs i .reset))

/-- `60_exceptions.md` R225, R226: a unit that enters ERROR records a code and discards its message's pending output;
committed output and the counters stay, the decoder's with the values that the FEEDs before the failure (of the bits `bs`, to
the state `u`) gave them, and nothing outside the unit changes. The bits are those of the failing command's own byte: none for
DEC_START, for SEQUENCE and for MALFORMED_PADDING; those before the failing bit where a FEED fails; the whole payload of the
final byte for the errors at the end of a message (`44_decoder.md` R174). -/
def Obligations.UnitErrorEntry : Prop :=
  ∀ (i : Instr) (s t : State), exec i s = .next t →
    (s.encSt ≠ .error → t.encSt = .error →
      t.encErr ∈ [.notLocked, .sequence, .unknownSymbol, .overflow] ∧
      t = { s with encSt := .error, encErr := t.encErr, encAcc := [], encPend := [], encErrsym := t.encErrsym } ∧
      (t.encErr ≠ .unknownSymbol → t.encErrsym = s.encErrsym)) ∧
    (s.decSt ≠ .error → t.decSt = .error →
      t.decErr ∈ [.notLocked, .sequence, .overflow, .malformedPadding, .truncatedCode, .tableError, .excessBits] ∧
      ∃ bs u, feedBits bs s = .ok u ∧ t = { u with decSt := .error, decErr := t.decErr, decPend := [] } ∧
        ((Performs i .decStart ∧ bs = [] ∧ t.decErr ∈ [.notLocked, .sequence, .tableError]) ∨
          ∃ last byte, Performs i (.decByte last byte) ∧
            ((s.decSt = .idle ∧ t.decErr = .sequence ∧ bs = []) ∨
              (s.decSt = .active ∧ last = true ∧ byte = 0 ∧ t.decErr = .malformedPadding ∧ bs = []) ∨
              (s.decSt = .active ∧ (last = true → byte ≠ 0) ∧ t.decErr ∈ [.excessBits, .tableError, .overflow] ∧
                ∃ b rest, bytePayload last byte = bs ++ b :: rest ∧ feed b u = .error t) ∨
              (s.decSt = .active ∧ last = true ∧ byte ≠ 0 ∧ bs = finalPayload byte ∧
                ((s.root.leaf = true ∧ t.decErr = .overflow) ∨
                  (s.root.leaf = false ∧ u.decPos ≠ s.root.val ∧ t.decErr = .truncatedCode))))))

/-- `60_exceptions.md` R227, which the spec derives from R225, R226 and the two units' rules, and R233: a unit leaves ERROR, or changes the code it recorded, only by its ABORT or a RESET. -/
def Obligations.UnitErrorsAreSticky : Prop :=
  ∀ (i : Instr) (s t : State), exec i s = .next t →
    (s.encSt = .error → ¬ Performs i .encAbort → ¬ Performs i .reset → encoderView t = encoderView s ∨
      ∃ a, i = .rdEncOut a ∧ encoderView t = encoderView { s with encQ := s.encQ.tail }) ∧
    (s.decSt = .error → ¬ Performs i .decAbort → ¬ Performs i .reset → decoderView t = decoderView s ∨
      (∃ a, i = .rdDecOut a ∧ decoderView t = decoderView { s with decQ := s.decQ.tail }) ∨
      ∃ a w, i = .wrDegCount a w ∧ decoderView t = decoderView { s with degCount := w })

/-- `10_state.md` R53: which commands write each STATUS field, and who raises each command error (`60_exceptions.md` R221): a
table-load command while locked, UNLOCK while a unit is ACTIVE, a write of CMD whose word is illegal. A register read performs
no command, so no field is written by a read. -/
def Obligations.StatusFieldWriters : Prop :=
  ∀ (i : Instr) (s t : State), exec i s = .next t →
    (t.locked ≠ s.locked →
      (Performs i .lock ∧ t.locked = true) ∨
      (Performs i .unlock ∧ t.locked = false ∧ s.encSt ≠ .active ∧ s.decSt ≠ .active) ∨
      (Performs i .reset ∧ t.locked = false)) ∧
    (t.encSt ≠ s.encSt ∨ t.encErr ≠ s.encErr →
      Performs i .encStart ∨ (∃ x, Performs i (.encSym x)) ∨ Performs i .encEnd ∨ Performs i .encAbort ∨
        Performs i .reset) ∧
    (t.decSt ≠ s.decSt ∨ t.decErr ≠ s.decErr →
      Performs i .decStart ∨ (∃ l b, Performs i (.decByte l b)) ∨ Performs i .decAbort ∨ Performs i .reset) ∧
    (t.cmdErr ≠ s.cmdErr →
      (s.cmdErr = .none ∧ t.cmdErr = .tableLocked ∧ s.locked = true ∧ ∃ c, TableLoadCommand c ∧ Performs i c) ∨
      (s.cmdErr = .none ∧ t.cmdErr = .busy ∧ (s.encSt = .active ∨ s.decSt = .active) ∧ Performs i .unlock) ∨
      (s.cmdErr = .none ∧ t.cmdErr = .illegalCmd ∧ ∃ a w, i = .wrCmd a w ∧ ∀ c, decodeCommand w ≠ .ok c) ∨
      (t.cmdErr = .none ∧ (Performs i .clrErr ∨ Performs i .reset))) ∧
    (t.root ≠ s.root → (∃ l r, Performs i (.treeRoot l r)) ∨ Performs i .reset)

/-- `10_state.md` R32 to R36 and R38: what writes the counters, ENC_ERRSYM and DEG_COUNT, and with which value. The decoder's
counters change only by DEC_START, by the FEEDs of a DEC_BYTE (of the bits `bs` of its byte, to the state `u`), by the commit
of a degenerate message, which sets DEC_NSYM, and by a reset; so any other commit, an error and ABORT keep them. -/
def Obligations.CounterWriters : Prop :=
  ∀ (i : Instr) (s t : State), exec i s = .next t →
    (t.encNsym ≠ s.encNsym →
      (Performs i .encStart ∧ t.encNsym = 0) ∨ (∃ x, Performs i (.encSym x) ∧ t.encNsym = s.encNsym + 1) ∨
      (Performs i .reset ∧ t.encNsym = 0)) ∧
    (t.encNbits ≠ s.encNbits →
      (Performs i .encStart ∧ t.encNbits = 0) ∨
      (∃ x, Performs i (.encSym x) ∧ t.encNbits = s.encNbits + (cwEntry s x).len.setWidth 32) ∨
      (Performs i .reset ∧ t.encNbits = 0)) ∧
    (t.encErrsym ≠ s.encErrsym →
      (∃ x, Performs i (.encSym x) ∧ t.encErr = .unknownSymbol ∧ t.encErrsym = x) ∨
      (Performs i .reset ∧ t.encErrsym = 0)) ∧
    (t.decNsym ≠ s.decNsym ∨ t.decNbits ≠ s.decNbits →
      (Performs i .decStart ∧ t.decNsym = 0 ∧ t.decNbits = 0) ∨
      (∃ last byte, Performs i (.decByte last byte) ∧ s.decSt = .active ∧
        ∃ bs rest u, bytePayload last byte = bs ++ rest ∧ feedBits bs s = .ok u ∧
          (rest = [] ∨ ∃ b bs' e, rest = b :: bs' ∧ feed b u = .error e) ∧
          t.decNbits = s.decNbits + BitVec.ofNat 32 bs.length ∧
          (t.decNsym = u.decNsym ∨
            (last = true ∧ byte ≠ 0 ∧ s.root.leaf = true ∧ rest = [] ∧ t.decSt = .idle ∧ t.decNsym = s.degCount))) ∨
      (Performs i .reset ∧ t.decNsym = 0 ∧ t.decNbits = 0)) ∧
    (t.degCount ≠ s.degCount →
      (∃ a w, i = .wrDegCount a w ∧ t.degCount = w) ∨ (Performs i .reset ∧ t.degCount = 0))

/-- `20_memory.md` R61 and R78, `43_encoder.md` R158, `44_decoder.md` R179: a queue changes only by the commit of a whole
message at its tail, by a pop at its head, or by a reset. -/
def Obligations.QueueWriters : Prop :=
  ∀ (i : Instr) (s t : State), exec i s = .next t →
    (t.encQ ≠ s.encQ →
      (Performs i .encEnd ∧ s.encSt = .active ∧ t.encSt = .idle ∧
        ∃ final, t.encQ = s.encQ ++ (s.encPend.map (fun b => (b, false)) ++ [(final, true)])) ∨
      ((∃ a, i = .rdEncOut a) ∧ t.encQ = s.encQ.tail) ∨
      (Performs i .reset ∧ t.encQ = [])) ∧
    (t.decQ ≠ s.decQ →
      ((∃ b, Performs i (.decByte true b)) ∧ s.decSt = .active ∧ t.decSt = .idle ∧
        ∃ out, t.decQ = s.decQ ++ tagLast out ∧ (MachineInv s → t.decNsym.toNat = out.length)) ∨
      ((∃ a, i = .rdDecOut a) ∧ t.decQ = s.decQ.tail) ∨
      (Performs i .reset ∧ t.decQ = []))

/-! ## Whole-machine rules -/

/-- `20_memory.md` R75, which the spec derives from the lock rules: while a message is ACTIVE nothing but a reset changes the Compiled Code or the lock. The premise is
the lock invariant, which every step keeps. -/
def Obligations.CompiledCodeFixedWhileActive : Prop :=
  ∀ (i : Instr) (s t : State), LockInv s → (s.encSt = .active ∨ s.decSt = .active) → ¬ Performs i .reset →
    exec i s = .next t →
    t.locked = true ∧ t.cwt = s.cwt ∧ t.nt = s.nt ∧ t.root = s.root

/-- `20_memory.md` R72, `43_encoder.md` R160, `44_decoder.md` R181: a unit's command writes only that unit's components,
and what it does to them depends only on them, the lock, the depths and the part of the Compiled Code the unit reads;
commands of the two units commute. -/
def Obligations.UnitsAreIndependent : Prop :=
  (∀ (c : Instr) (s s' : State), EncoderCommand c →
    encoderView s = encoderView s' → s.cwt = s'.cwt → s.locked = s'.locked → s.cfg = s'.cfg →
    ∃ t t', exec c s = .next t ∧ exec c s' = .next t' ∧ encoderView t = encoderView t' ∧
      t = { s with encSt := t.encSt, encErr := t.encErr, encAcc := t.encAcc, encPend := t.encPend, encQ := t.encQ,
                   encNsym := t.encNsym, encNbits := t.encNbits, encErrsym := t.encErrsym }) ∧
  (∀ (c : Instr) (s s' : State), DecoderCommand c →
    decoderView s = decoderView s' → s.nt = s'.nt → s.root = s'.root → s.locked = s'.locked → s.cfg = s'.cfg →
    ∃ t t', exec c s = .next t ∧ exec c s' = .next t' ∧ decoderView t = decoderView t' ∧
      t = { s with decSt := t.decSt, decErr := t.decErr, decPos := t.decPos, decPend := t.decPend, decQ := t.decQ,
                   decNsym := t.decNsym, decNbits := t.decNbits }) ∧
  (∀ (c d : Instr) (s : State), EncoderCommand c → DecoderCommand d → runInstrs [c, d] s = runInstrs [d, c] s)

/-- The last paragraph of `10_state.md` R50, which the spec derives (and U1 to U5 of `93_implementation_defined.md`): the
contents that the spec leaves unspecified are
unobservable: two states that agree on everything else step to states that agree on everything else, the port's answer
among it. So no run can show the values the model chose for them (logs 7 to 10). -/
def Obligations.UnspecifiedContentsUnobservable : Prop :=
  ∀ s s' : State, MachineInv s → MachineInv s' → SameVisible s s' →
    ∃ t t', step s = .next t ∧ step s' = .next t' ∧ SameVisible t t'

/-! ## Invariants -/

/-- `10_state.md` R44, "Every rule ... keeps them", which the spec derives: the encoder's invariants are kept by every step, from every state that has them. -/
def Obligations.EncoderInvariantKept : Prop :=
  ∀ s t : State, EncoderInv s → step s = .next t → EncoderInv t

/-- The machine's invariant is kept by every step from every state that has it: the depths stay legal, the tables
canonical (log 12), R44 and R45 of `10_state.md`, the lock behind every message (`20_memory.md` R75), the error fields
(`60_exceptions.md` R221, R227), and the counters of a message without a wrap (`43_encoder.md` R156). -/
def Obligations.InvariantKept : Prop :=
  ∀ s t : State, MachineInv s → step s = .next t → MachineInv t

/-- The state after reset has the machine's invariant, whatever legal depths the block was built with
(`10_state.md` R50). -/
def Obligations.ResetStateHasInvariant : Prop :=
  MachineInv State.reset ∧ ∀ c : Config, c.Valid → MachineInv (State.resetWith c)

/-- The tables' canonical form (the model's own, log 12): a write keeps it, a read after a write sees the write and
nothing else, and two tables that read alike at every index are one. -/
def Obligations.TablesAreCanonical : Prop :=
  ∀ (α : Type) [DecidableEq α] (d : α) (t : Table α), tableWf d t = true →
    (∀ k v, k < 256 → tableWf d (tableSet d t k v) = true) ∧
    (∀ k v j, tableGet d (tableSet d t k v) j = if j = k then v else tableGet d t j) ∧
    (∀ t', tableWf d t' = true → (∀ k, k < 256 → tableGet d t k = tableGet d t' k) → t = t')

/-! ## The whole block: round trip -/

/-- `41_host_reference_compile.md` R134, which the spec derives: with a consistent load, both units IDLE and room for the
message, a message encoded and fed back decodes to itself: the decoder commits exactly its symbols. Of a consistent load
(`Consistent`) only the two conditions of R132 are asked. Under a degenerate tree the host first writes DEG_COUNT with
ENC_NSYM. -/
def Obligations.EncodeThenDecodeIsIdentity : Prop :=
  ∀ (s : State) (syms : List Byte), MachineInv s → CodewordsMatchTree s → s.locked = true → s.root.v = true →
    s.encSt = .idle → s.decSt = .idle → (∀ x ∈ syms, (cwEntry s x).v = true) →
    s.encQ.length + ((syms.flatMap (fun x => codeword (cwEntry s x))).length / 8 + 1) ≤ s.cfg.encDepth →
    s.decQ.length + syms.length ≤ s.cfg.decDepth →
    ∃ t out u,
      runInstrs (encMsg syms) s = .next t ∧ t.encQ = s.encQ ++ out ∧
      runInstrs ((if s.root.leaf then [.wrDegCount 0x28 t.encNsym] else []) ++ decMsg (out.map Prod.fst)) t =
        .next u ∧
      u.decQ = s.decQ ++ tagLast syms ∧ u.decSt = .idle ∧ u.decErr = .none

/-! ## The host-side reference compile -/

/-- `41_host_reference_compile.md` R121, R122: NORMALIZE fails exactly when the counts sum to 0; otherwise the 256 weights
are the exact quotients, non-negative, with sum exactly 1. -/
def Obligations.NormalizeResult : Prop :=
  (allSymbols.Nodup ∧ allSymbols.length = 256 ∧ ∀ x : Byte, x ∈ allSymbols) ∧
  ∀ c : Counts,
    ((allSymbols.map c).sum = 0 → normalizeCounts c = .error .degenerateInput) ∧
    ((allSymbols.map c).sum ≠ 0 → ∃ w, normalizeCounts c = .ok w ∧
      (∀ x, w x = (c x : Rat) / ((allSymbols.map c).sum : Nat)) ∧ (∀ x, 0 ≤ w x) ∧ (allSymbols.map w).sum = 1)

/-- `41_host_reference_compile.md` R122, which the spec derives: "The tree can therefore be built from the counts directly": the weights and the
counts give the same load. -/
def Obligations.CountsAndWeightsBuildTheSameCode : Prop :=
  ∀ (c : Counts) (w : Byte → Rat), normalizeCounts c = .ok w →
    (buildTree w).map loadCode = (buildTree (fun x => (c x : Rat))).map loadCode

/-- `41_host_reference_compile.md` R125, R126: `pop_min` takes out one node, and none is less than it in the key order. -/
def Obligations.PopMinTakesTheLeast : Prop :=
  (∀ q : List CodeTree, (popMin q).isSome = !q.isEmpty) ∧
  ∀ (q rest : List CodeTree) (m : CodeTree), popMin q = some (m, rest) →
    (m :: rest).Perm q ∧
    ∀ x ∈ q, ¬ (treeWeight x < treeWeight m ∨
      (treeWeight x = treeWeight m ∧ (treeMinsym x).toNat < (treeMinsym m).toNat))

/-- `41_host_reference_compile.md` R127: one symbol of non-zero weight gives its single Leaf as the tree, with the empty
codeword. -/
def Obligations.SingleSymbolGivesALeaf : Prop :=
  ∀ (w : Byte → Rat) (x : Byte), 0 < w x → (∀ y, y ≠ x → ¬ 0 < w y) →
    buildTree w = some (.leaf x (w x)) ∧ codewordOf (.leaf x (w x)) x = some []

/-- `41_host_reference_compile.md` R128: the walk, and that every symbol of non-zero weight has exactly one codeword, and no
other has one. -/
def Obligations.DeriveCoversExactlyTheWeights : Prop :=
  (∀ x w path, walkTree (.leaf x w) path = [(x, path)]) ∧
  (∀ l r w m path, walkTree (.node l r w m) path = walkTree l (path ++ [false]) ++ walkTree r (path ++ [true])) ∧
  ∀ (w : Byte → Rat) (t : CodeTree), buildTree w = some t →
    ((walkTree t []).map Prod.fst).Nodup ∧ ∀ x, (codewordOf t x).isSome = true ↔ 0 < w x

/-- `41_host_reference_compile.md` R129, part of which the spec derives: the codewords of a built tree are prefix-free, of length 1 to 255 with two or
more leaves, and empty with one. -/
def Obligations.CodewordsArePrefixFree : Prop :=
  ∀ (w : Byte → Rat) (t : CodeTree), buildTree w = some t →
    (∀ a b x y, a ≠ b → codewordOf t a = some x → codewordOf t b = some y → ¬ x <+: y) ∧
    (∀ a x, codewordOf t a = some x →
      (internalCount t = 0 → x = []) ∧ (internalCount t ≠ 0 → 1 ≤ x.length ∧ x.length ≤ 255))

/-- `41_host_reference_compile.md` R131 and the sentence of R132 that the spec derives, "LOAD of a Compiled Code from rules
R125 to R130 is consistent": LOAD of the Compiled Code of a frequency table, from any unlocked state,
raises no error and leaves a locked, consistent load in which exactly the symbols of non-zero count have a codeword.
Consistent: R132's two conditions, and one full tree, as the last sentence of `44_decoder.md` R182 has it (log 24). -/
def Obligations.LoadIsConsistent : Prop :=
  ∀ (c : Counts) (load : List Instr) (s : State), compileCounts c = .ok load → TablesInv s → s.locked = false →
    ∃ t, runInstrs load s = .next t ∧ Consistent t ∧ t.locked = true ∧ t.root.v = true ∧
      (∀ x, (cwEntry t x).v = true ↔ 0 < c x) ∧
      t = { s with cwt := t.cwt, nt := t.nt, root := t.root, locked := true }

/-- The last sentence of `44_decoder.md` R182, which the spec derives ("Under a consistent load FEED never raises TABLE_ERROR,
because every Internal node of a full tree has both children"), and C6 of `90_conflicts.md`: no run of FEEDs from a position
in the tree raises it, no message does, and no instruction: the position stays in the tree, and the load stays consistent until
a table-load command or a reset. What a consistent load is, is read together from several rules (DEDUCED, log 24). -/
def Obligations.ConsistentLoadNeverRaisesTableError : Prop :=
  (∀ (s : State) (bs : Bits) (t : State), Consistent s → s.decSt = .active → DecoderInTree s →
    feedBits bs s = .error t → t.decErr ≠ .tableError) ∧
  (∀ (s t : State) (bytes : List Byte), Consistent s → s.locked = true → s.decSt = .idle → s.decErr = .none →
    runInstrs (decMsg bytes) s = .next t → t.decErr ≠ .tableError) ∧
  ∀ (i : Instr) (s t : State), LockInv s → Consistent s → DecoderInTree s → exec i s = .next t →
    (s.decErr ≠ .tableError → t.decErr ≠ .tableError) ∧ DecoderInTree t ∧
    ((∀ c, TableLoadCommand c → ¬ Performs i c) → ¬ Performs i .reset → Consistent t)
end

