-- ==== Sys2Proof/Laws/Bits.lean ====
section
/-! SUPPORT. What the bit-level helpers do: codeword bits, chunks, the packing of bytes and its inverse, the padding, the
lowest set bit, the tags of a committed message. -/

namespace Sys2Proof.Machine

/-! ## Codeword bits -/

/-- A codeword has the entry's length. -/
@[simp] theorem codeword_length (e : CodewordEntry) : (codeword e).length = e.len.toNat := by simp [codeword]

/-- Bit `i` of a codeword is `bits[i]`. -/
theorem codeword_getElem (e : CodewordEntry) (i : Nat) (h : i < (codeword e).length) :
    (codeword e)[i] = e.bits.getLsbD i := by simp [codeword]

/-- Two entries of one length with the same bits below it have the same codeword. -/
theorem codeword_congr {a b : CodewordEntry} (hl : a.len = b.len)
    (hb : ∀ i, i < a.len.toNat → a.bits.getLsbD i = b.bits.getLsbD i) : codeword a = codeword b := by
  simp only [codeword, ← hl]
  exact List.map_congr_left (fun i hi => hb i (List.mem_range.mp hi))

/-- Setting one bit shows at that bit only. -/
theorem putBit_getLsbD (bits : BitVec 256) (i : Nat) (b : Bool) (n : Nat) (hn : n < 256) :
    (putBit bits i b).getLsbD n = if n = i then b else bits.getLsbD n := by
  unfold putBit
  cases b
  · by_cases h : n = i
    · simp [h]
    · rcases Nat.lt_or_gt_of_ne h with h' | h'
      · simp [h, hn, h']
      · have : n - i ≠ 0 := by omega
        simp [h, hn, this]
  · by_cases h : n = i
    · simp [h]; right; omega
    · rcases Nat.lt_or_gt_of_ne h with h' | h'
      · simp [h, hn, h']
      · have : n - i ≠ 0 := by omega
        simp [h, hn, this]

/-- A chunk write shows at the eight bits of its chunk, DATA bit 7 first (`42_table_load.md` R142). -/
theorem putChunk_getLsbD (bits : BitVec 256) (idx : BitVec 5) (data : Byte) (n : Nat) (hn : n < 256) :
    (putChunk bits idx data).getLsbD n =
      if n / 8 = idx.toNat then data.getLsbD (7 - n % 8) else bits.getLsbD n := by
  simp only [putChunk, List.foldl, putBit_getLsbD _ _ _ n hn]
  have h8 : n = 8 * (n / 8) + n % 8 := by omega
  by_cases hc : n / 8 = idx.toNat
  · have hm : n % 8 < 8 := by omega
    simp only [hc, if_true]
    generalize n % 8 = m at *
    rw [hc] at h8
    subst h8
    interval_cases m <;> simp
  · simp only [hc, if_false]
    repeat rw [if_neg (by omega)]

/-! ## Packing (`43_encoder.md` R152) -/

/-- A byte has eight bits. -/
@[simp] theorem byteBits_length (b : Byte) : (byteBits b).length = 8 := rfl

/-- Packing the bits of a byte gives the byte. -/
@[simp] theorem packByte_byteBits (b : Byte) : packByte (byteBits b) = b := by
  revert b; decide +kernel

/-- Eight bits are the bits of the byte they pack into. -/
theorem byteBits_packByte {t : Bits} (h : t.length = 8) : byteBits (packByte t) = t := by
  match t, h with
  | [a, b, c, d, e, f, g, h], _ => revert a b c d e f g h; decide +kernel

/-- `packBytes k` gives `k` bytes. -/
@[simp] theorem packBytes_length (k : Nat) (t : Bits) : (packBytes k t).length = k := by
  induction k generalizing t with
  | zero => rfl
  | succ k ih => simp [packBytes, ih]

/-- The bits of the packed bytes are the first `8 * k` bits of the sequence. -/
theorem packBytes_bits {k : Nat} {t : Bits} (h : 8 * k ≤ t.length) :
    (packBytes k t).flatMap byteBits = t.take (8 * k) := by
  induction k generalizing t with
  | zero => simp [packBytes]
  | succ k ih =>
    have h8 : (t.take 8).length = 8 := by simp; omega
    have hd : 8 * k ≤ (t.drop 8).length := by simp; omega
    simp only [packBytes, List.flatMap_cons, byteBits_packByte h8, ih hd]
    rw [show 8 * (k + 1) = 8 + 8 * k by omega, List.take_add]

/-- Nothing is lost: packed bits and remaining bits together are the sequence. -/
theorem packBytes_append_drop {k : Nat} {t : Bits} (h : 8 * k ≤ t.length) :
    (packBytes k t).flatMap byteBits ++ t.drop (8 * k) = t := by
  rw [packBytes_bits h, List.take_append_drop]

/-- The bytes with the same bits are the same bytes. -/
theorem byteBits_injective {a b : Byte} (h : byteBits a = byteBits b) : a = b := by
  rw [← packByte_byteBits a, h, packByte_byteBits]

/-- The bytes of a stream have eight bits each. -/
theorem flatMap_byteBits_length (bs : List Byte) : (bs.flatMap byteBits).length = 8 * bs.length := by
  induction bs with
  | nil => rfl
  | cons b bs ih => simp [ih]; omega

/-! ## Padding (`43_encoder.md` R156, `44_decoder.md` R175) -/

/-- The padding of `r < 8` held bits fills the byte. -/
theorem paddingFor_length {r : Nat} (h : r < 8) : (paddingFor r).length = 8 - r := by simp [paddingFor]; omega

/-- The lowest set bit of a nonzero byte. -/
theorem ctz8_spec {b : Byte} (h : b ≠ 0) :
    ctz8 b < 8 ∧ b.getLsbD (ctz8 b) = true ∧ ∀ j, j < ctz8 b → b.getLsbD j = false := by
  revert b; decide +kernel

/-- Every byte's bits are its final payload, a 1 and zeros: what removal strips is a padding (R175). -/
theorem byteBits_eq_finalPayload {b : Byte} (h : b ≠ 0) :
    byteBits b = finalPayload b ++ true :: List.replicate (ctz8 b) false := by
  revert b; decide +kernel

/-- The padding added to fewer than eight bits is what removal takes off. -/
theorem finalPayload_packByte {t : Bits} (h : t.length < 8) :
    packByte (t ++ paddingFor t.length) ≠ 0 ∧ finalPayload (packByte (t ++ paddingFor t.length)) = t := by
  match t, h with
  | [], _ => decide +kernel
  | [a], _ => revert a; decide +kernel
  | [a, b], _ => revert a b; decide +kernel
  | [a, b, c], _ => revert a b c; decide +kernel
  | [a, b, c, d], _ => revert a b c d; decide +kernel
  | [a, b, c, d, e], _ => revert a b c d e; decide +kernel
  | [a, b, c, d, e, f], _ => revert a b c d e f; decide +kernel
  | [a, b, c, d, e, f, g], _ => revert a b c d e f g; decide +kernel

/-! ## Commit tags (`43_encoder.md` R156) -/

/-- Tagging keeps the entries and their order. -/
@[simp] theorem tagLast_map_fst (l : List Byte) : (tagLast l).map Prod.fst = l := by
  induction l using tagLast.induct <;> simp_all [tagLast]

/-- Tagging keeps the number of entries. -/
@[simp] theorem tagLast_length (l : List Byte) : (tagLast l).length = l.length := by
  have h := congrArg List.length (tagLast_map_fst l)
  rwa [List.length_map] at h

/-- Exactly the final entry is tagged. -/
theorem tagLast_append_singleton (l : List Byte) (x : Byte) :
    tagLast (l ++ [x]) = l.map (fun y => (y, false)) ++ [(x, true)] := by
  induction l using tagLast.induct <;> simp_all [tagLast]

/-! ## Child references (`10_state.md` R41) -/

/-- LEAF of an assembled reference. -/
@[simp] theorem refIsLeaf_refOf (leaf : Bool) (ref : Byte) : refIsLeaf (refOf leaf ref) = leaf := by
  revert leaf ref; decide +kernel

/-- REF of an assembled reference. -/
@[simp] theorem refVal_refOf (leaf : Bool) (ref : Byte) : refVal (refOf leaf ref) = ref := by
  revert leaf ref; decide +kernel

end Sys2Proof.Machine
end

