-- ==== Sys2Proof/Laws/Decode.lean ====
section
/-! SUPPORT. The encoding tables: the rows cover every access descriptor, what a decoded command word is, and `executeWord`
as the command's own meaning. -/

namespace Sys2Proof.Machine

/-- The instruction is a command, not a register access. -/
def isCommand : Instr → Bool
  | .nop | .reset | .clrErr | .cwDef _ _ _ | .cwBits _ _ _ | .nodeL _ _ _ | .nodeR _ _ _ | .treeRoot _ _
  | .lock | .unlock | .encStart | .encSym _ | .encEnd | .encAbort | .decStart | .decByte _ _ | .decAbort => true
  | _ => false

/-- Every row of the opcode map builds a command. -/
theorem commandRows_build {r : CommandRow} (h : r ∈ commandRows) (w : Word) : isCommand (r.build w) = true := by
  fin_cases h <;> rfl

/-- A word that decodes does so by a row of the opcode map that takes it (`30_encoding.md` R92). -/
theorem decodeCommand_ok {w : Word} {i : Instr} (h : decodeCommand w = .ok i) :
    ∃ r ∈ commandRows, r.hits w = true ∧ i = r.build w := by
  unfold decodeCommand at h
  split at h
  · rename_i r hr
    exact ⟨r, List.mem_of_find?_eq_some hr, by simpa using List.find?_some hr, (Except.ok.inj h).symm⟩
  · cases h

/-- No word decodes to a register access. -/
theorem decodeCommand_isCommand {w : Word} {i : Instr} (h : decodeCommand w = .ok i) : isCommand i = true := by
  obtain ⟨r, hr, -, rfl⟩ := decodeCommand_ok h
  exact commandRows_build hr w

/-- A write of CMD performs the command its word decodes to (`45_register_access.md` R211). -/
theorem executeWord_ok {w : Word} {i : Instr} (h : decodeCommand w = .ok i) (s : State) :
    executeWord w s = exec i s := by
  have hc := decodeCommand_isCommand h
  unfold executeWord
  rw [h]
  cases i <;> first | rfl | cases hc

/-- An illegal word only records ILLEGAL_CMD (`30_encoding.md` R95). -/
theorem executeWord_error {w : Word} {r : Reject} (h : decodeCommand w = .error r) (s : State) :
    executeWord w s = .next (cmdError .illegalCmd s) := by
  unfold executeWord
  rw [h]

/-- Every access descriptor is taken by a row (`45_register_access.md` R213, R214). -/
theorem accessRows_cover (d : BitVec 9) : (accessRows.find? (fun r => r.hits d)).isSome = true := by
  revert d; decide +kernel

/-- An access decodes by a row that takes its descriptor. -/
theorem decodeAccess_eq (a : Access) :
    ∃ r ∈ accessRows, r.hits a.descriptor = true ∧ decodeAccess a = r.build a.addr a.wdata := by
  obtain ⟨r, hr⟩ := Option.isSome_iff_exists.mp (accessRows_cover a.descriptor)
  refine ⟨r, List.mem_of_find?_eq_some hr, by simpa using List.find?_some hr, ?_⟩
  unfold decodeAccess
  rw [hr]

end Sys2Proof.Machine
end

