-- ==== Sys2Proof/Laws/State.lean ====
section
/-! SUPPORT. For every named update of the state, each field after it: true by unfolding once, so that no later proof
unfolds a record update. -/

namespace Sys2Proof.Machine

/-! ## encFail -/

@[simp] theorem encFail_cfg (c : ErrCode) (s : State) : (encFail c s).cfg = s.cfg := rfl
@[simp] theorem encFail_locked (c : ErrCode) (s : State) : (encFail c s).locked = s.locked := rfl
@[simp] theorem encFail_cwt (c : ErrCode) (s : State) : (encFail c s).cwt = s.cwt := rfl
@[simp] theorem encFail_nt (c : ErrCode) (s : State) : (encFail c s).nt = s.nt := rfl
@[simp] theorem encFail_root (c : ErrCode) (s : State) : (encFail c s).root = s.root := rfl
@[simp] theorem encFail_cmdErr (c : ErrCode) (s : State) : (encFail c s).cmdErr = s.cmdErr := rfl
@[simp] theorem encFail_encSt (c : ErrCode) (s : State) : (encFail c s).encSt = .error := rfl
@[simp] theorem encFail_encErr (c : ErrCode) (s : State) : (encFail c s).encErr = c := rfl
@[simp] theorem encFail_encAcc (c : ErrCode) (s : State) : (encFail c s).encAcc = [] := rfl
@[simp] theorem encFail_encPend (c : ErrCode) (s : State) : (encFail c s).encPend = [] := rfl
@[simp] theorem encFail_encQ (c : ErrCode) (s : State) : (encFail c s).encQ = s.encQ := rfl
@[simp] theorem encFail_encNsym (c : ErrCode) (s : State) : (encFail c s).encNsym = s.encNsym := rfl
@[simp] theorem encFail_encNbits (c : ErrCode) (s : State) : (encFail c s).encNbits = s.encNbits := rfl
@[simp] theorem encFail_encErrsym (c : ErrCode) (s : State) : (encFail c s).encErrsym = s.encErrsym := rfl
@[simp] theorem encFail_decSt (c : ErrCode) (s : State) : (encFail c s).decSt = s.decSt := rfl
@[simp] theorem encFail_decErr (c : ErrCode) (s : State) : (encFail c s).decErr = s.decErr := rfl
@[simp] theorem encFail_decPos (c : ErrCode) (s : State) : (encFail c s).decPos = s.decPos := rfl
@[simp] theorem encFail_decPend (c : ErrCode) (s : State) : (encFail c s).decPend = s.decPend := rfl
@[simp] theorem encFail_decQ (c : ErrCode) (s : State) : (encFail c s).decQ = s.decQ := rfl
@[simp] theorem encFail_decNsym (c : ErrCode) (s : State) : (encFail c s).decNsym = s.decNsym := rfl
@[simp] theorem encFail_decNbits (c : ErrCode) (s : State) : (encFail c s).decNbits = s.decNbits := rfl
@[simp] theorem encFail_degCount (c : ErrCode) (s : State) : (encFail c s).degCount = s.degCount := rfl
@[simp] theorem encFail_inputs (c : ErrCode) (s : State) : (encFail c s).inputs = s.inputs := rfl
@[simp] theorem encFail_ack (c : ErrCode) (s : State) : (encFail c s).ack = s.ack := rfl
@[simp] theorem encFail_rdata (c : ErrCode) (s : State) : (encFail c s).rdata = s.rdata := rfl

/-! ## decFail -/

@[simp] theorem decFail_cfg (c : ErrCode) (s : State) : (decFail c s).cfg = s.cfg := rfl
@[simp] theorem decFail_locked (c : ErrCode) (s : State) : (decFail c s).locked = s.locked := rfl
@[simp] theorem decFail_cwt (c : ErrCode) (s : State) : (decFail c s).cwt = s.cwt := rfl
@[simp] theorem decFail_nt (c : ErrCode) (s : State) : (decFail c s).nt = s.nt := rfl
@[simp] theorem decFail_root (c : ErrCode) (s : State) : (decFail c s).root = s.root := rfl
@[simp] theorem decFail_cmdErr (c : ErrCode) (s : State) : (decFail c s).cmdErr = s.cmdErr := rfl
@[simp] theorem decFail_encSt (c : ErrCode) (s : State) : (decFail c s).encSt = s.encSt := rfl
@[simp] theorem decFail_encErr (c : ErrCode) (s : State) : (decFail c s).encErr = s.encErr := rfl
@[simp] theorem decFail_encAcc (c : ErrCode) (s : State) : (decFail c s).encAcc = s.encAcc := rfl
@[simp] theorem decFail_encPend (c : ErrCode) (s : State) : (decFail c s).encPend = s.encPend := rfl
@[simp] theorem decFail_encQ (c : ErrCode) (s : State) : (decFail c s).encQ = s.encQ := rfl
@[simp] theorem decFail_encNsym (c : ErrCode) (s : State) : (decFail c s).encNsym = s.encNsym := rfl
@[simp] theorem decFail_encNbits (c : ErrCode) (s : State) : (decFail c s).encNbits = s.encNbits := rfl
@[simp] theorem decFail_encErrsym (c : ErrCode) (s : State) : (decFail c s).encErrsym = s.encErrsym := rfl
@[simp] theorem decFail_decSt (c : ErrCode) (s : State) : (decFail c s).decSt = .error := rfl
@[simp] theorem decFail_decErr (c : ErrCode) (s : State) : (decFail c s).decErr = c := rfl
@[simp] theorem decFail_decPos (c : ErrCode) (s : State) : (decFail c s).decPos = s.decPos := rfl
@[simp] theorem decFail_decPend (c : ErrCode) (s : State) : (decFail c s).decPend = [] := rfl
@[simp] theorem decFail_decQ (c : ErrCode) (s : State) : (decFail c s).decQ = s.decQ := rfl
@[simp] theorem decFail_decNsym (c : ErrCode) (s : State) : (decFail c s).decNsym = s.decNsym := rfl
@[simp] theorem decFail_decNbits (c : ErrCode) (s : State) : (decFail c s).decNbits = s.decNbits := rfl
@[simp] theorem decFail_degCount (c : ErrCode) (s : State) : (decFail c s).degCount = s.degCount := rfl
@[simp] theorem decFail_inputs (c : ErrCode) (s : State) : (decFail c s).inputs = s.inputs := rfl
@[simp] theorem decFail_ack (c : ErrCode) (s : State) : (decFail c s).ack = s.ack := rfl
@[simp] theorem decFail_rdata (c : ErrCode) (s : State) : (decFail c s).rdata = s.rdata := rfl

/-! ## clearCmdErr -/

@[simp] theorem clearCmdErr_cfg (s : State) : (clearCmdErr s).cfg = s.cfg := rfl
@[simp] theorem clearCmdErr_locked (s : State) : (clearCmdErr s).locked = s.locked := rfl
@[simp] theorem clearCmdErr_cwt (s : State) : (clearCmdErr s).cwt = s.cwt := rfl
@[simp] theorem clearCmdErr_nt (s : State) : (clearCmdErr s).nt = s.nt := rfl
@[simp] theorem clearCmdErr_root (s : State) : (clearCmdErr s).root = s.root := rfl
@[simp] theorem clearCmdErr_cmdErr (s : State) : (clearCmdErr s).cmdErr = .none := rfl
@[simp] theorem clearCmdErr_encSt (s : State) : (clearCmdErr s).encSt = s.encSt := rfl
@[simp] theorem clearCmdErr_encErr (s : State) : (clearCmdErr s).encErr = s.encErr := rfl
@[simp] theorem clearCmdErr_encAcc (s : State) : (clearCmdErr s).encAcc = s.encAcc := rfl
@[simp] theorem clearCmdErr_encPend (s : State) : (clearCmdErr s).encPend = s.encPend := rfl
@[simp] theorem clearCmdErr_encQ (s : State) : (clearCmdErr s).encQ = s.encQ := rfl
@[simp] theorem clearCmdErr_encNsym (s : State) : (clearCmdErr s).encNsym = s.encNsym := rfl
@[simp] theorem clearCmdErr_encNbits (s : State) : (clearCmdErr s).encNbits = s.encNbits := rfl
@[simp] theorem clearCmdErr_encErrsym (s : State) : (clearCmdErr s).encErrsym = s.encErrsym := rfl
@[simp] theorem clearCmdErr_decSt (s : State) : (clearCmdErr s).decSt = s.decSt := rfl
@[simp] theorem clearCmdErr_decErr (s : State) : (clearCmdErr s).decErr = s.decErr := rfl
@[simp] theorem clearCmdErr_decPos (s : State) : (clearCmdErr s).decPos = s.decPos := rfl
@[simp] theorem clearCmdErr_decPend (s : State) : (clearCmdErr s).decPend = s.decPend := rfl
@[simp] theorem clearCmdErr_decQ (s : State) : (clearCmdErr s).decQ = s.decQ := rfl
@[simp] theorem clearCmdErr_decNsym (s : State) : (clearCmdErr s).decNsym = s.decNsym := rfl
@[simp] theorem clearCmdErr_decNbits (s : State) : (clearCmdErr s).decNbits = s.decNbits := rfl
@[simp] theorem clearCmdErr_degCount (s : State) : (clearCmdErr s).degCount = s.degCount := rfl
@[simp] theorem clearCmdErr_inputs (s : State) : (clearCmdErr s).inputs = s.inputs := rfl
@[simp] theorem clearCmdErr_ack (s : State) : (clearCmdErr s).ack = s.ack := rfl
@[simp] theorem clearCmdErr_rdata (s : State) : (clearCmdErr s).rdata = s.rdata := rfl

/-! ## encRecover -/

@[simp] theorem encRecover_cfg (s : State) : (encRecover s).cfg = s.cfg := rfl
@[simp] theorem encRecover_locked (s : State) : (encRecover s).locked = s.locked := rfl
@[simp] theorem encRecover_cwt (s : State) : (encRecover s).cwt = s.cwt := rfl
@[simp] theorem encRecover_nt (s : State) : (encRecover s).nt = s.nt := rfl
@[simp] theorem encRecover_root (s : State) : (encRecover s).root = s.root := rfl
@[simp] theorem encRecover_cmdErr (s : State) : (encRecover s).cmdErr = s.cmdErr := rfl
@[simp] theorem encRecover_encSt (s : State) : (encRecover s).encSt = .idle := rfl
@[simp] theorem encRecover_encErr (s : State) : (encRecover s).encErr = .none := rfl
@[simp] theorem encRecover_encAcc (s : State) : (encRecover s).encAcc = [] := rfl
@[simp] theorem encRecover_encPend (s : State) : (encRecover s).encPend = [] := rfl
@[simp] theorem encRecover_encQ (s : State) : (encRecover s).encQ = s.encQ := rfl
@[simp] theorem encRecover_encNsym (s : State) : (encRecover s).encNsym = s.encNsym := rfl
@[simp] theorem encRecover_encNbits (s : State) : (encRecover s).encNbits = s.encNbits := rfl
@[simp] theorem encRecover_encErrsym (s : State) : (encRecover s).encErrsym = s.encErrsym := rfl
@[simp] theorem encRecover_decSt (s : State) : (encRecover s).decSt = s.decSt := rfl
@[simp] theorem encRecover_decErr (s : State) : (encRecover s).decErr = s.decErr := rfl
@[simp] theorem encRecover_decPos (s : State) : (encRecover s).decPos = s.decPos := rfl
@[simp] theorem encRecover_decPend (s : State) : (encRecover s).decPend = s.decPend := rfl
@[simp] theorem encRecover_decQ (s : State) : (encRecover s).decQ = s.decQ := rfl
@[simp] theorem encRecover_decNsym (s : State) : (encRecover s).decNsym = s.decNsym := rfl
@[simp] theorem encRecover_decNbits (s : State) : (encRecover s).decNbits = s.decNbits := rfl
@[simp] theorem encRecover_degCount (s : State) : (encRecover s).degCount = s.degCount := rfl
@[simp] theorem encRecover_inputs (s : State) : (encRecover s).inputs = s.inputs := rfl
@[simp] theorem encRecover_ack (s : State) : (encRecover s).ack = s.ack := rfl
@[simp] theorem encRecover_rdata (s : State) : (encRecover s).rdata = s.rdata := rfl

/-! ## decRecover -/

@[simp] theorem decRecover_cfg (s : State) : (decRecover s).cfg = s.cfg := rfl
@[simp] theorem decRecover_locked (s : State) : (decRecover s).locked = s.locked := rfl
@[simp] theorem decRecover_cwt (s : State) : (decRecover s).cwt = s.cwt := rfl
@[simp] theorem decRecover_nt (s : State) : (decRecover s).nt = s.nt := rfl
@[simp] theorem decRecover_root (s : State) : (decRecover s).root = s.root := rfl
@[simp] theorem decRecover_cmdErr (s : State) : (decRecover s).cmdErr = s.cmdErr := rfl
@[simp] theorem decRecover_encSt (s : State) : (decRecover s).encSt = s.encSt := rfl
@[simp] theorem decRecover_encErr (s : State) : (decRecover s).encErr = s.encErr := rfl
@[simp] theorem decRecover_encAcc (s : State) : (decRecover s).encAcc = s.encAcc := rfl
@[simp] theorem decRecover_encPend (s : State) : (decRecover s).encPend = s.encPend := rfl
@[simp] theorem decRecover_encQ (s : State) : (decRecover s).encQ = s.encQ := rfl
@[simp] theorem decRecover_encNsym (s : State) : (decRecover s).encNsym = s.encNsym := rfl
@[simp] theorem decRecover_encNbits (s : State) : (decRecover s).encNbits = s.encNbits := rfl
@[simp] theorem decRecover_encErrsym (s : State) : (decRecover s).encErrsym = s.encErrsym := rfl
@[simp] theorem decRecover_decSt (s : State) : (decRecover s).decSt = .idle := rfl
@[simp] theorem decRecover_decErr (s : State) : (decRecover s).decErr = .none := rfl
@[simp] theorem decRecover_decPos (s : State) : (decRecover s).decPos = s.decPos := rfl
@[simp] theorem decRecover_decPend (s : State) : (decRecover s).decPend = [] := rfl
@[simp] theorem decRecover_decQ (s : State) : (decRecover s).decQ = s.decQ := rfl
@[simp] theorem decRecover_decNsym (s : State) : (decRecover s).decNsym = s.decNsym := rfl
@[simp] theorem decRecover_decNbits (s : State) : (decRecover s).decNbits = s.decNbits := rfl
@[simp] theorem decRecover_degCount (s : State) : (decRecover s).degCount = s.degCount := rfl
@[simp] theorem decRecover_inputs (s : State) : (decRecover s).inputs = s.inputs := rfl
@[simp] theorem decRecover_ack (s : State) : (decRecover s).ack = s.ack := rfl
@[simp] theorem decRecover_rdata (s : State) : (decRecover s).rdata = s.rdata := rfl

/-! ## returnData -/

@[simp] theorem returnData_cfg (v : Word) (s : State) : (returnData v s).cfg = s.cfg := rfl
@[simp] theorem returnData_locked (v : Word) (s : State) : (returnData v s).locked = s.locked := rfl
@[simp] theorem returnData_cwt (v : Word) (s : State) : (returnData v s).cwt = s.cwt := rfl
@[simp] theorem returnData_nt (v : Word) (s : State) : (returnData v s).nt = s.nt := rfl
@[simp] theorem returnData_root (v : Word) (s : State) : (returnData v s).root = s.root := rfl
@[simp] theorem returnData_cmdErr (v : Word) (s : State) : (returnData v s).cmdErr = s.cmdErr := rfl
@[simp] theorem returnData_encSt (v : Word) (s : State) : (returnData v s).encSt = s.encSt := rfl
@[simp] theorem returnData_encErr (v : Word) (s : State) : (returnData v s).encErr = s.encErr := rfl
@[simp] theorem returnData_encAcc (v : Word) (s : State) : (returnData v s).encAcc = s.encAcc := rfl
@[simp] theorem returnData_encPend (v : Word) (s : State) : (returnData v s).encPend = s.encPend := rfl
@[simp] theorem returnData_encQ (v : Word) (s : State) : (returnData v s).encQ = s.encQ := rfl
@[simp] theorem returnData_encNsym (v : Word) (s : State) : (returnData v s).encNsym = s.encNsym := rfl
@[simp] theorem returnData_encNbits (v : Word) (s : State) : (returnData v s).encNbits = s.encNbits := rfl
@[simp] theorem returnData_encErrsym (v : Word) (s : State) : (returnData v s).encErrsym = s.encErrsym := rfl
@[simp] theorem returnData_decSt (v : Word) (s : State) : (returnData v s).decSt = s.decSt := rfl
@[simp] theorem returnData_decErr (v : Word) (s : State) : (returnData v s).decErr = s.decErr := rfl
@[simp] theorem returnData_decPos (v : Word) (s : State) : (returnData v s).decPos = s.decPos := rfl
@[simp] theorem returnData_decPend (v : Word) (s : State) : (returnData v s).decPend = s.decPend := rfl
@[simp] theorem returnData_decQ (v : Word) (s : State) : (returnData v s).decQ = s.decQ := rfl
@[simp] theorem returnData_decNsym (v : Word) (s : State) : (returnData v s).decNsym = s.decNsym := rfl
@[simp] theorem returnData_decNbits (v : Word) (s : State) : (returnData v s).decNbits = s.decNbits := rfl
@[simp] theorem returnData_degCount (v : Word) (s : State) : (returnData v s).degCount = s.degCount := rfl
@[simp] theorem returnData_inputs (v : Word) (s : State) : (returnData v s).inputs = s.inputs := rfl
@[simp] theorem returnData_ack (v : Word) (s : State) : (returnData v s).ack = s.ack := rfl
@[simp] theorem returnData_rdata (v : Word) (s : State) : (returnData v s).rdata = some v := rfl

/-! ## acceptAccess -/

@[simp] theorem acceptAccess_cfg (s : State) : (acceptAccess s).cfg = s.cfg := rfl
@[simp] theorem acceptAccess_locked (s : State) : (acceptAccess s).locked = s.locked := rfl
@[simp] theorem acceptAccess_cwt (s : State) : (acceptAccess s).cwt = s.cwt := rfl
@[simp] theorem acceptAccess_nt (s : State) : (acceptAccess s).nt = s.nt := rfl
@[simp] theorem acceptAccess_root (s : State) : (acceptAccess s).root = s.root := rfl
@[simp] theorem acceptAccess_cmdErr (s : State) : (acceptAccess s).cmdErr = s.cmdErr := rfl
@[simp] theorem acceptAccess_encSt (s : State) : (acceptAccess s).encSt = s.encSt := rfl
@[simp] theorem acceptAccess_encErr (s : State) : (acceptAccess s).encErr = s.encErr := rfl
@[simp] theorem acceptAccess_encAcc (s : State) : (acceptAccess s).encAcc = s.encAcc := rfl
@[simp] theorem acceptAccess_encPend (s : State) : (acceptAccess s).encPend = s.encPend := rfl
@[simp] theorem acceptAccess_encQ (s : State) : (acceptAccess s).encQ = s.encQ := rfl
@[simp] theorem acceptAccess_encNsym (s : State) : (acceptAccess s).encNsym = s.encNsym := rfl
@[simp] theorem acceptAccess_encNbits (s : State) : (acceptAccess s).encNbits = s.encNbits := rfl
@[simp] theorem acceptAccess_encErrsym (s : State) : (acceptAccess s).encErrsym = s.encErrsym := rfl
@[simp] theorem acceptAccess_decSt (s : State) : (acceptAccess s).decSt = s.decSt := rfl
@[simp] theorem acceptAccess_decErr (s : State) : (acceptAccess s).decErr = s.decErr := rfl
@[simp] theorem acceptAccess_decPos (s : State) : (acceptAccess s).decPos = s.decPos := rfl
@[simp] theorem acceptAccess_decPend (s : State) : (acceptAccess s).decPend = s.decPend := rfl
@[simp] theorem acceptAccess_decQ (s : State) : (acceptAccess s).decQ = s.decQ := rfl
@[simp] theorem acceptAccess_decNsym (s : State) : (acceptAccess s).decNsym = s.decNsym := rfl
@[simp] theorem acceptAccess_decNbits (s : State) : (acceptAccess s).decNbits = s.decNbits := rfl
@[simp] theorem acceptAccess_degCount (s : State) : (acceptAccess s).degCount = s.degCount := rfl
@[simp] theorem acceptAccess_inputs (s : State) : (acceptAccess s).inputs = s.inputs.tail := rfl
@[simp] theorem acceptAccess_ack (s : State) : (acceptAccess s).ack = true := rfl
@[simp] theorem acceptAccess_rdata (s : State) : (acceptAccess s).rdata = none := rfl

/-! ## idleEdge -/

@[simp] theorem idleEdge_cfg (s : State) : (idleEdge s).cfg = s.cfg := rfl
@[simp] theorem idleEdge_locked (s : State) : (idleEdge s).locked = s.locked := rfl
@[simp] theorem idleEdge_cwt (s : State) : (idleEdge s).cwt = s.cwt := rfl
@[simp] theorem idleEdge_nt (s : State) : (idleEdge s).nt = s.nt := rfl
@[simp] theorem idleEdge_root (s : State) : (idleEdge s).root = s.root := rfl
@[simp] theorem idleEdge_cmdErr (s : State) : (idleEdge s).cmdErr = s.cmdErr := rfl
@[simp] theorem idleEdge_encSt (s : State) : (idleEdge s).encSt = s.encSt := rfl
@[simp] theorem idleEdge_encErr (s : State) : (idleEdge s).encErr = s.encErr := rfl
@[simp] theorem idleEdge_encAcc (s : State) : (idleEdge s).encAcc = s.encAcc := rfl
@[simp] theorem idleEdge_encPend (s : State) : (idleEdge s).encPend = s.encPend := rfl
@[simp] theorem idleEdge_encQ (s : State) : (idleEdge s).encQ = s.encQ := rfl
@[simp] theorem idleEdge_encNsym (s : State) : (idleEdge s).encNsym = s.encNsym := rfl
@[simp] theorem idleEdge_encNbits (s : State) : (idleEdge s).encNbits = s.encNbits := rfl
@[simp] theorem idleEdge_encErrsym (s : State) : (idleEdge s).encErrsym = s.encErrsym := rfl
@[simp] theorem idleEdge_decSt (s : State) : (idleEdge s).decSt = s.decSt := rfl
@[simp] theorem idleEdge_decErr (s : State) : (idleEdge s).decErr = s.decErr := rfl
@[simp] theorem idleEdge_decPos (s : State) : (idleEdge s).decPos = s.decPos := rfl
@[simp] theorem idleEdge_decPend (s : State) : (idleEdge s).decPend = s.decPend := rfl
@[simp] theorem idleEdge_decQ (s : State) : (idleEdge s).decQ = s.decQ := rfl
@[simp] theorem idleEdge_decNsym (s : State) : (idleEdge s).decNsym = s.decNsym := rfl
@[simp] theorem idleEdge_decNbits (s : State) : (idleEdge s).decNbits = s.decNbits := rfl
@[simp] theorem idleEdge_degCount (s : State) : (idleEdge s).degCount = s.degCount := rfl
@[simp] theorem idleEdge_inputs (s : State) : (idleEdge s).inputs = s.inputs := rfl
@[simp] theorem idleEdge_ack (s : State) : (idleEdge s).ack = false := rfl
@[simp] theorem idleEdge_rdata (s : State) : (idleEdge s).rdata = none := rfl

/-! ## setCwEntry -/

@[simp] theorem setCwEntry_cfg (s : State) (x : Byte) (e : CodewordEntry) : (setCwEntry s x e).cfg = s.cfg := rfl
@[simp] theorem setCwEntry_locked (s : State) (x : Byte) (e : CodewordEntry) : (setCwEntry s x e).locked = s.locked := rfl
@[simp] theorem setCwEntry_cwt (s : State) (x : Byte) (e : CodewordEntry) : (setCwEntry s x e).cwt = tableSet CodewordEntry.blank s.cwt x.toNat e := rfl
@[simp] theorem setCwEntry_nt (s : State) (x : Byte) (e : CodewordEntry) : (setCwEntry s x e).nt = s.nt := rfl
@[simp] theorem setCwEntry_root (s : State) (x : Byte) (e : CodewordEntry) : (setCwEntry s x e).root = s.root := rfl
@[simp] theorem setCwEntry_cmdErr (s : State) (x : Byte) (e : CodewordEntry) : (setCwEntry s x e).cmdErr = s.cmdErr := rfl
@[simp] theorem setCwEntry_encSt (s : State) (x : Byte) (e : CodewordEntry) : (setCwEntry s x e).encSt = s.encSt := rfl
@[simp] theorem setCwEntry_encErr (s : State) (x : Byte) (e : CodewordEntry) : (setCwEntry s x e).encErr = s.encErr := rfl
@[simp] theorem setCwEntry_encAcc (s : State) (x : Byte) (e : CodewordEntry) : (setCwEntry s x e).encAcc = s.encAcc := rfl
@[simp] theorem setCwEntry_encPend (s : State) (x : Byte) (e : CodewordEntry) : (setCwEntry s x e).encPend = s.encPend := rfl
@[simp] theorem setCwEntry_encQ (s : State) (x : Byte) (e : CodewordEntry) : (setCwEntry s x e).encQ = s.encQ := rfl
@[simp] theorem setCwEntry_encNsym (s : State) (x : Byte) (e : CodewordEntry) : (setCwEntry s x e).encNsym = s.encNsym := rfl
@[simp] theorem setCwEntry_encNbits (s : State) (x : Byte) (e : CodewordEntry) : (setCwEntry s x e).encNbits = s.encNbits := rfl
@[simp] theorem setCwEntry_encErrsym (s : State) (x : Byte) (e : CodewordEntry) : (setCwEntry s x e).encErrsym = s.encErrsym := rfl
@[simp] theorem setCwEntry_decSt (s : State) (x : Byte) (e : CodewordEntry) : (setCwEntry s x e).decSt = s.decSt := rfl
@[simp] theorem setCwEntry_decErr (s : State) (x : Byte) (e : CodewordEntry) : (setCwEntry s x e).decErr = s.decErr := rfl
@[simp] theorem setCwEntry_decPos (s : State) (x : Byte) (e : CodewordEntry) : (setCwEntry s x e).decPos = s.decPos := rfl
@[simp] theorem setCwEntry_decPend (s : State) (x : Byte) (e : CodewordEntry) : (setCwEntry s x e).decPend = s.decPend := rfl
@[simp] theorem setCwEntry_decQ (s : State) (x : Byte) (e : CodewordEntry) : (setCwEntry s x e).decQ = s.decQ := rfl
@[simp] theorem setCwEntry_decNsym (s : State) (x : Byte) (e : CodewordEntry) : (setCwEntry s x e).decNsym = s.decNsym := rfl
@[simp] theorem setCwEntry_decNbits (s : State) (x : Byte) (e : CodewordEntry) : (setCwEntry s x e).decNbits = s.decNbits := rfl
@[simp] theorem setCwEntry_degCount (s : State) (x : Byte) (e : CodewordEntry) : (setCwEntry s x e).degCount = s.degCount := rfl
@[simp] theorem setCwEntry_inputs (s : State) (x : Byte) (e : CodewordEntry) : (setCwEntry s x e).inputs = s.inputs := rfl
@[simp] theorem setCwEntry_ack (s : State) (x : Byte) (e : CodewordEntry) : (setCwEntry s x e).ack = s.ack := rfl
@[simp] theorem setCwEntry_rdata (s : State) (x : Byte) (e : CodewordEntry) : (setCwEntry s x e).rdata = s.rdata := rfl

/-! ## setNtEntry -/

@[simp] theorem setNtEntry_cfg (s : State) (x : Byte) (e : NodeEntry) : (setNtEntry s x e).cfg = s.cfg := rfl
@[simp] theorem setNtEntry_locked (s : State) (x : Byte) (e : NodeEntry) : (setNtEntry s x e).locked = s.locked := rfl
@[simp] theorem setNtEntry_cwt (s : State) (x : Byte) (e : NodeEntry) : (setNtEntry s x e).cwt = s.cwt := rfl
@[simp] theorem setNtEntry_nt (s : State) (x : Byte) (e : NodeEntry) : (setNtEntry s x e).nt = tableSet NodeEntry.blank s.nt x.toNat e := rfl
@[simp] theorem setNtEntry_root (s : State) (x : Byte) (e : NodeEntry) : (setNtEntry s x e).root = s.root := rfl
@[simp] theorem setNtEntry_cmdErr (s : State) (x : Byte) (e : NodeEntry) : (setNtEntry s x e).cmdErr = s.cmdErr := rfl
@[simp] theorem setNtEntry_encSt (s : State) (x : Byte) (e : NodeEntry) : (setNtEntry s x e).encSt = s.encSt := rfl
@[simp] theorem setNtEntry_encErr (s : State) (x : Byte) (e : NodeEntry) : (setNtEntry s x e).encErr = s.encErr := rfl
@[simp] theorem setNtEntry_encAcc (s : State) (x : Byte) (e : NodeEntry) : (setNtEntry s x e).encAcc = s.encAcc := rfl
@[simp] theorem setNtEntry_encPend (s : State) (x : Byte) (e : NodeEntry) : (setNtEntry s x e).encPend = s.encPend := rfl
@[simp] theorem setNtEntry_encQ (s : State) (x : Byte) (e : NodeEntry) : (setNtEntry s x e).encQ = s.encQ := rfl
@[simp] theorem setNtEntry_encNsym (s : State) (x : Byte) (e : NodeEntry) : (setNtEntry s x e).encNsym = s.encNsym := rfl
@[simp] theorem setNtEntry_encNbits (s : State) (x : Byte) (e : NodeEntry) : (setNtEntry s x e).encNbits = s.encNbits := rfl
@[simp] theorem setNtEntry_encErrsym (s : State) (x : Byte) (e : NodeEntry) : (setNtEntry s x e).encErrsym = s.encErrsym := rfl
@[simp] theorem setNtEntry_decSt (s : State) (x : Byte) (e : NodeEntry) : (setNtEntry s x e).decSt = s.decSt := rfl
@[simp] theorem setNtEntry_decErr (s : State) (x : Byte) (e : NodeEntry) : (setNtEntry s x e).decErr = s.decErr := rfl
@[simp] theorem setNtEntry_decPos (s : State) (x : Byte) (e : NodeEntry) : (setNtEntry s x e).decPos = s.decPos := rfl
@[simp] theorem setNtEntry_decPend (s : State) (x : Byte) (e : NodeEntry) : (setNtEntry s x e).decPend = s.decPend := rfl
@[simp] theorem setNtEntry_decQ (s : State) (x : Byte) (e : NodeEntry) : (setNtEntry s x e).decQ = s.decQ := rfl
@[simp] theorem setNtEntry_decNsym (s : State) (x : Byte) (e : NodeEntry) : (setNtEntry s x e).decNsym = s.decNsym := rfl
@[simp] theorem setNtEntry_decNbits (s : State) (x : Byte) (e : NodeEntry) : (setNtEntry s x e).decNbits = s.decNbits := rfl
@[simp] theorem setNtEntry_degCount (s : State) (x : Byte) (e : NodeEntry) : (setNtEntry s x e).degCount = s.degCount := rfl
@[simp] theorem setNtEntry_inputs (s : State) (x : Byte) (e : NodeEntry) : (setNtEntry s x e).inputs = s.inputs := rfl
@[simp] theorem setNtEntry_ack (s : State) (x : Byte) (e : NodeEntry) : (setNtEntry s x e).ack = s.ack := rfl
@[simp] theorem setNtEntry_rdata (s : State) (x : Byte) (e : NodeEntry) : (setNtEntry s x e).rdata = s.rdata := rfl

/-! ## resetBlock -/

@[simp] theorem resetBlock_cfg (s : State) : (resetBlock s).cfg = s.cfg := rfl
@[simp] theorem resetBlock_locked (s : State) : (resetBlock s).locked = (State.resetWith s.cfg).locked := rfl
@[simp] theorem resetBlock_cwt (s : State) : (resetBlock s).cwt = (State.resetWith s.cfg).cwt := rfl
@[simp] theorem resetBlock_nt (s : State) : (resetBlock s).nt = (State.resetWith s.cfg).nt := rfl
@[simp] theorem resetBlock_root (s : State) : (resetBlock s).root = (State.resetWith s.cfg).root := rfl
@[simp] theorem resetBlock_cmdErr (s : State) : (resetBlock s).cmdErr = (State.resetWith s.cfg).cmdErr := rfl
@[simp] theorem resetBlock_encSt (s : State) : (resetBlock s).encSt = (State.resetWith s.cfg).encSt := rfl
@[simp] theorem resetBlock_encErr (s : State) : (resetBlock s).encErr = (State.resetWith s.cfg).encErr := rfl
@[simp] theorem resetBlock_encAcc (s : State) : (resetBlock s).encAcc = (State.resetWith s.cfg).encAcc := rfl
@[simp] theorem resetBlock_encPend (s : State) : (resetBlock s).encPend = (State.resetWith s.cfg).encPend := rfl
@[simp] theorem resetBlock_encQ (s : State) : (resetBlock s).encQ = (State.resetWith s.cfg).encQ := rfl
@[simp] theorem resetBlock_encNsym (s : State) : (resetBlock s).encNsym = (State.resetWith s.cfg).encNsym := rfl
@[simp] theorem resetBlock_encNbits (s : State) : (resetBlock s).encNbits = (State.resetWith s.cfg).encNbits := rfl
@[simp] theorem resetBlock_encErrsym (s : State) : (resetBlock s).encErrsym = (State.resetWith s.cfg).encErrsym := rfl
@[simp] theorem resetBlock_decSt (s : State) : (resetBlock s).decSt = (State.resetWith s.cfg).decSt := rfl
@[simp] theorem resetBlock_decErr (s : State) : (resetBlock s).decErr = (State.resetWith s.cfg).decErr := rfl
@[simp] theorem resetBlock_decPos (s : State) : (resetBlock s).decPos = (State.resetWith s.cfg).decPos := rfl
@[simp] theorem resetBlock_decPend (s : State) : (resetBlock s).decPend = (State.resetWith s.cfg).decPend := rfl
@[simp] theorem resetBlock_decQ (s : State) : (resetBlock s).decQ = (State.resetWith s.cfg).decQ := rfl
@[simp] theorem resetBlock_decNsym (s : State) : (resetBlock s).decNsym = (State.resetWith s.cfg).decNsym := rfl
@[simp] theorem resetBlock_decNbits (s : State) : (resetBlock s).decNbits = (State.resetWith s.cfg).decNbits := rfl
@[simp] theorem resetBlock_degCount (s : State) : (resetBlock s).degCount = (State.resetWith s.cfg).degCount := rfl
@[simp] theorem resetBlock_inputs (s : State) : (resetBlock s).inputs = s.inputs := rfl
@[simp] theorem resetBlock_ack (s : State) : (resetBlock s).ack = s.ack := rfl
@[simp] theorem resetBlock_rdata (s : State) : (resetBlock s).rdata = s.rdata := rfl

/-! ## cmdError -/

@[simp] theorem cmdError_cfg (c : ErrCode) (s : State) : (cmdError c s).cfg = s.cfg := by
  unfold cmdError; split <;> rfl
@[simp] theorem cmdError_locked (c : ErrCode) (s : State) : (cmdError c s).locked = s.locked := by
  unfold cmdError; split <;> rfl
@[simp] theorem cmdError_cwt (c : ErrCode) (s : State) : (cmdError c s).cwt = s.cwt := by
  unfold cmdError; split <;> rfl
@[simp] theorem cmdError_nt (c : ErrCode) (s : State) : (cmdError c s).nt = s.nt := by
  unfold cmdError; split <;> rfl
@[simp] theorem cmdError_root (c : ErrCode) (s : State) : (cmdError c s).root = s.root := by
  unfold cmdError; split <;> rfl
@[simp] theorem cmdError_cmdErr (c : ErrCode) (s : State) :
    (cmdError c s).cmdErr = if s.cmdErr = .none then c else s.cmdErr := by
  unfold cmdError; split <;> rfl
@[simp] theorem cmdError_encSt (c : ErrCode) (s : State) : (cmdError c s).encSt = s.encSt := by
  unfold cmdError; split <;> rfl
@[simp] theorem cmdError_encErr (c : ErrCode) (s : State) : (cmdError c s).encErr = s.encErr := by
  unfold cmdError; split <;> rfl
@[simp] theorem cmdError_encAcc (c : ErrCode) (s : State) : (cmdError c s).encAcc = s.encAcc := by
  unfold cmdError; split <;> rfl
@[simp] theorem cmdError_encPend (c : ErrCode) (s : State) : (cmdError c s).encPend = s.encPend := by
  unfold cmdError; split <;> rfl
@[simp] theorem cmdError_encQ (c : ErrCode) (s : State) : (cmdError c s).encQ = s.encQ := by
  unfold cmdError; split <;> rfl
@[simp] theorem cmdError_encNsym (c : ErrCode) (s : State) : (cmdError c s).encNsym = s.encNsym := by
  unfold cmdError; split <;> rfl
@[simp] theorem cmdError_encNbits (c : ErrCode) (s : State) : (cmdError c s).encNbits = s.encNbits := by
  unfold cmdError; split <;> rfl
@[simp] theorem cmdError_encErrsym (c : ErrCode) (s : State) : (cmdError c s).encErrsym = s.encErrsym := by
  unfold cmdError; split <;> rfl
@[simp] theorem cmdError_decSt (c : ErrCode) (s : State) : (cmdError c s).decSt = s.decSt := by
  unfold cmdError; split <;> rfl
@[simp] theorem cmdError_decErr (c : ErrCode) (s : State) : (cmdError c s).decErr = s.decErr := by
  unfold cmdError; split <;> rfl
@[simp] theorem cmdError_decPos (c : ErrCode) (s : State) : (cmdError c s).decPos = s.decPos := by
  unfold cmdError; split <;> rfl
@[simp] theorem cmdError_decPend (c : ErrCode) (s : State) : (cmdError c s).decPend = s.decPend := by
  unfold cmdError; split <;> rfl
@[simp] theorem cmdError_decQ (c : ErrCode) (s : State) : (cmdError c s).decQ = s.decQ := by
  unfold cmdError; split <;> rfl
@[simp] theorem cmdError_decNsym (c : ErrCode) (s : State) : (cmdError c s).decNsym = s.decNsym := by
  unfold cmdError; split <;> rfl
@[simp] theorem cmdError_decNbits (c : ErrCode) (s : State) : (cmdError c s).decNbits = s.decNbits := by
  unfold cmdError; split <;> rfl
@[simp] theorem cmdError_degCount (c : ErrCode) (s : State) : (cmdError c s).degCount = s.degCount := by
  unfold cmdError; split <;> rfl
@[simp] theorem cmdError_inputs (c : ErrCode) (s : State) : (cmdError c s).inputs = s.inputs := by
  unfold cmdError; split <;> rfl
@[simp] theorem cmdError_ack (c : ErrCode) (s : State) : (cmdError c s).ack = s.ack := by
  unfold cmdError; split <;> rfl
@[simp] theorem cmdError_rdata (c : ErrCode) (s : State) : (cmdError c s).rdata = s.rdata := by
  unfold cmdError; split <;> rfl

/-- The recorded error as one update of the state. -/
theorem cmdError_eq (c : ErrCode) (s : State) :
    cmdError c s = { s with cmdErr := if s.cmdErr = .none then c else s.cmdErr } := by
  unfold cmdError; split <;> rfl

/-- The lock guard lets the write through exactly while the tables are unlocked. -/
theorem guardUnlocked_unlocked {s w : State} (h : s.locked = false) : guardUnlocked s w = w := by
  simp [guardUnlocked, h]

/-- While locked the guarded write only records TABLE_LOCKED. -/
theorem guardUnlocked_locked {s w : State} (h : s.locked = true) : guardUnlocked s w = cmdError .tableLocked s := by
  simp [guardUnlocked, h]

end Sys2Proof.Machine
end

