-- ==== Sys2Proof/Laws/Decoder.lean ====
section
/-! SUPPORT. What FEED and a run of FEEDs can do (`44_decoder.md` R173), and what a full tree in the node table says of a
walk (R182). -/

namespace Sys2Proof.Machine

/-- Everything one FEED that succeeds can do: it reached a Leaf and there was room, or an Internal node. -/
theorem feed_ok {b : Bool} {s t : State} (h : feed b s = .ok t) :
    s.root.leaf = false ∧ ∃ ref, childOf (ntEntry s s.decPos) b = some ref ∧
      ((refIsLeaf ref = true ∧ s.decQ.length + s.decPend.length + 1 ≤ s.cfg.decDepth ∧ t = emitSymbol (refVal ref) s) ∨
        (refIsLeaf ref = false ∧ t = descend (refVal ref) s)) := by
  unfold feed at h
  split at h
  · cases h
  · rename_i hl
    split at h
    · cases h
    · rename_i ref href
      refine ⟨by simpa using hl, ref, href, ?_⟩
      split at h
      · rename_i hleaf
        split at h
        · cases h
        · rename_i hf
          exact .inl ⟨hleaf, by simpa [decFull] using hf, (Except.ok.inj h).symm⟩
      · rename_i hleaf
        exact .inr ⟨by simpa using hleaf, (Except.ok.inj h).symm⟩

/-- Everything one FEED that fails can do: one of three codes is recorded. -/
theorem feed_error {b : Bool} {s t : State} (h : feed b s = .error t) :
    ∃ c, (c = .excessBits ∨ c = .tableError ∨ c = .overflow) ∧ t = decFail c s := by
  unfold feed at h
  split at h
  · exact ⟨_, .inl rfl, (Except.error.inj h).symm⟩
  · split at h
    · exact ⟨_, .inr (.inl rfl), (Except.error.inj h).symm⟩
    · split at h
      · split at h
        · exact ⟨_, .inr (.inr rfl), (Except.error.inj h).symm⟩
        · cases h
      · cases h

/-- A relation that every successful FEED keeps and every failing one ends in holds after a run of FEEDs. -/
theorem feedBits_induct {P : State → Prop} {Q : State → Prop} (bs : Bits) (s : State) (h0 : P s)
    (hok : ∀ b s t, P s → feed b s = .ok t → P t) (herr : ∀ b s t, P s → feed b s = .error t → Q t) :
    (∀ t, feedBits bs s = .ok t → P t) ∧ (∀ t, feedBits bs s = .error t → Q t) := by
  induction bs generalizing s with
  | nil =>
    constructor
    · intro t h; cases h; exact h0
    · intro t h; cases h
  | cons b bs ih =>
    simp only [feedBits]
    cases hf : feed b s with
    | ok u => exact ih u (hok b s u h0 hf)
    | error u =>
      constructor
      · intro t h; cases h
      · intro t h; cases h; exact herr b s u h0 hf

/-- Feeding two sequences one after the other. -/
theorem feedBits_append {bs cs : Bits} {s t : State} (h : feedBits bs s = .ok t) :
    feedBits (bs ++ cs) s = feedBits cs t := by
  induction bs generalizing s with
  | nil => cases h; rfl
  | cons b bs ih =>
    simp only [feedBits, List.cons_append] at h ⊢
    cases hf : feed b s with
    | ok u => rw [hf] at h; exact ih h
    | error u => rw [hf] at h; cases h

/-! ## What FEED leaves alone -/

/-- The parts of the state no FEED touches, success or failure. -/
def feedFrame (s t : State) : Prop :=
  { t with decSt := s.decSt, decErr := s.decErr, decPos := s.decPos, decPend := s.decPend, decNsym := s.decNsym,
           decNbits := s.decNbits } = s

/-- A run of FEEDs touches only the decoder's message state. -/
theorem feedBits_frame (bs : Bits) (s : State) :
    (∀ t, feedBits bs s = .ok t → feedFrame s t) ∧ (∀ t, feedBits bs s = .error t → feedFrame s t) := by
  refine feedBits_induct (P := feedFrame s) (Q := feedFrame s) bs s rfl ?_ ?_
  · intro b u t hu h
    obtain ⟨-, ref, -, ⟨-, -, rfl⟩ | ⟨-, rfl⟩⟩ := feed_ok h <;> exact hu
  · intro b u t hu h
    obtain ⟨c, -, rfl⟩ := feed_error h
    exact hu

/-! ## FEED in a full tree (`44_decoder.md` R182) -/

/-- Whether a reference describes a tree depends on the node table alone. -/
theorem refDescribes_congr {s t : State} (h : s.nt = t.nt) (ref : Ref) (tree : CodeTree) :
    refDescribes s ref tree ↔ refDescribes t ref tree := by
  have hn : ∀ k, ntEntry s k = ntEntry t k := fun k => by simp [ntEntry, h]
  induction tree generalizing ref with
  | leaf => exact .rfl
  | node l r w m ihl ihr => simp only [refDescribes, hn, ihl, ihr]

/-- A walk reads the node table alone. -/
theorem walkNodes_congr {s t : State} (h : s.nt = t.nt) (pos : Byte) (bs : Bits) :
    walkNodes s pos bs = walkNodes t pos bs := by
  have hn : ∀ k, ntEntry s k = ntEntry t k := fun k => by simp [ntEntry, h]
  induction bs generalizing pos with
  | nil => rfl
  | cons b bs ih => simp only [walkNodes, hn, ih]

/-- Consistency reads the Compiled Code alone. -/
theorem consistent_congr {s t : State} (hc : s.cwt = t.cwt) (hn : s.nt = t.nt) (hr : s.root = t.root) :
    Consistent s ↔ Consistent t := by
  have he : ∀ y, cwEntry s y = cwEntry t y := fun y => by simp [cwEntry, hc]
  simp only [Consistent, CodewordsMatchTree, FullTree, walkRoot, he, hr, walkNodes_congr hn, refDescribes_congr hn]

/-- A walk follows the path of the tree that the reference describes. -/
theorem walkNodes_describes {s : State} {tree : CodeTree} {ref : Ref} (h : refDescribes s ref tree)
    (hleaf : refIsLeaf ref = false) (b : Bool) (bs : Bits) :
    ∃ l r w m c, tree = .node l r w m ∧ childOf (ntEntry s (refVal ref)) b = some c ∧
      refDescribes s c (if b then r else l) ∧
      walkNodes s (refVal ref) (b :: bs) =
        if refIsLeaf c then (if bs = [] then some (refVal c) else none) else walkNodes s (refVal c) bs := by
  cases tree with
  | leaf => simp [refDescribes, hleaf] at h
  | node l r w m =>
    obtain ⟨-, ⟨cl, hl, dl⟩, cr, hr, dr⟩ := h
    cases b
    · exact ⟨l, r, w, m, cl, rfl, hl, dl, by simp only [walkNodes, hl]⟩
    · exact ⟨l, r, w, m, cr, rfl, hr, dr, by simp only [walkNodes, hr]⟩

/-- The reference of an Internal node, from the byte that names it. -/
theorem refDescribes_internal {s : State} {ref : Ref} {tree : CodeTree} (h : refDescribes s ref tree)
    (hleaf : refIsLeaf ref = false) : refDescribes s (refOf false (refVal ref)) tree := by
  cases tree with
  | leaf => simp [refDescribes, hleaf] at h
  | node l r w m =>
    obtain ⟨-, h⟩ := h
    exact ⟨by simp, by simpa using h⟩

/-- A node table that holds every entry of a LAYOUT (`41_host_reference_compile.md` R130) describes the tree laid out. -/
theorem refDescribes_of_layout {s : State} (tree : CodeTree) (n : Nat)
    (h : ∀ e ∈ layoutFrom n tree, ntEntry s (BitVec.ofNat 8 e.1) =
      { lv := true, l := refOf e.2.1.1 e.2.1.2, rv := true, r := refOf e.2.2.1 e.2.2.2 }) :
    refDescribes s (refOf (treeRef n tree).1 (treeRef n tree).2) tree := by
  induction tree generalizing n with
  | leaf => simp [refDescribes, treeRef]
  | node l r w m ihl ihr =>
    have h0 := h (n, treeRef (n + 1) l, treeRef (n + 1 + internalCount l) r) (by simp [layoutFrom])
    simp only [refDescribes, treeRef, refIsLeaf_refOf, refVal_refOf, h0]
    exact ⟨trivial, ⟨_, rfl, ihl _ fun e he => h e (by simp [layoutFrom, he])⟩,
      _, rfl, ihr _ fun e he => h e (by simp [layoutFrom, he])⟩

end Sys2Proof.Machine
end

