-- ==== Sys2Proof/Laws/Meanings.lean ====
section
/-! SUPPORT. Everything each meaning and each step can do, said once: the case lemmas that proofs cite in place of unfolding
a meaning, and the induction over the instructions. -/

namespace Sys2Proof.Machine

/-! ## System commands and table load -/

/-- Everything UNLOCK can do (`40_system_commands.md` R115). -/
theorem execUnlock_next {s t : State} (h : execUnlock s = .next t) :
    ((s.encSt = .active ∨ s.decSt = .active) ∧ t = cmdError .busy s) ∨
      (s.encSt ≠ .active ∧ s.decSt ≠ .active ∧ t = { s with locked := false }) := by
  unfold execUnlock at h
  split at h
  · rename_i ha
    exact .inl ⟨by simpa [unitActive] using ha, by cases h; rfl⟩
  · rename_i ha
    have ha : ¬ (s.encSt = .active ∨ s.decSt = .active) := by simpa [unitActive] using ha
    exact .inr ⟨fun hh => ha (.inl hh), fun hh => ha (.inr hh), by cases h; rfl⟩

/-- Everything a guarded write can do (`42_table_load.md` R140). -/
theorem guardUnlocked_cases (s w : State) :
    (s.locked = true ∧ guardUnlocked s w = cmdError .tableLocked s) ∨ (s.locked = false ∧ guardUnlocked s w = w) := by
  cases h : s.locked
  · exact .inr ⟨rfl, guardUnlocked_unlocked h⟩
  · exact .inl ⟨rfl, guardUnlocked_locked h⟩

/-! ## Encoder -/

/-- Everything ENC_START can do (`43_encoder.md` R151). -/
theorem execEncStart_next {s t : State} (h : execEncStart s = .next t) :
    (s.encSt = .error ∧ t = s) ∨
      (s.encSt ≠ .error ∧ s.locked = false ∧ t = encFail .notLocked s) ∨
      (s.encSt = .active ∧ s.locked = true ∧ t = encFail .sequence s) ∨
      (s.encSt = .idle ∧ s.locked = true ∧
        t = { s with encSt := .active, encAcc := [], encPend := [], encNsym := 0, encNbits := 0 }) := by
  unfold execEncStart at h
  cases hs : s.encSt <;> cases hl : s.locked <;> simp [hs, hl] at h <;> simp [h]

/-- Everything ENC_SYM can do (`43_encoder.md` R153). -/
theorem execEncSym_next {sym : Byte} {s t : State} (h : execEncSym sym s = .next t) :
    (s.encSt = .error ∧ t = s) ∨
      (s.encSt = .idle ∧ t = encFail .sequence s) ∨
      (s.encSt = .active ∧ (cwEntry s sym).v = false ∧ t = encFail .unknownSymbol { s with encErrsym := sym }) ∨
      (s.encSt = .active ∧ (cwEntry s sym).v = true ∧
        s.cfg.encDepth < s.encQ.length + s.encPend.length + completedBytes s (cwEntry s sym) ∧
        t = encFail .overflow s) ∨
      (s.encSt = .active ∧ (cwEntry s sym).v = true ∧
        s.encQ.length + s.encPend.length + completedBytes s (cwEntry s sym) ≤ s.cfg.encDepth ∧
        t = appendCodeword (cwEntry s sym) s) := by
  unfold execEncSym at h
  split at h
  · rename_i hs; exact .inl ⟨hs, by cases h; rfl⟩
  · split at h
    · rename_i hs; exact .inr (.inl ⟨hs, by cases h; rfl⟩)
    · rename_i h1 h2
      have ha : s.encSt = .active := by cases hs : s.encSt <;> simp_all
      split at h
      · rename_i hv; exact .inr (.inr (.inl ⟨ha, hv, by cases h; rfl⟩))
      · rename_i hv
        have hv : (cwEntry s sym).v = true := by simpa using hv
        split at h
        · rename_i hf
          exact .inr (.inr (.inr (.inl ⟨ha, hv, by simpa [encFull] using hf, by cases h; rfl⟩)))
        · rename_i hf
          exact .inr (.inr (.inr (.inr ⟨ha, hv, by simpa [encFull] using hf, by cases h; rfl⟩)))

/-- Everything ENC_END can do (`43_encoder.md` R156). -/
theorem execEncEnd_next {s t : State} (h : execEncEnd s = .next t) :
    (s.encSt = .error ∧ t = s) ∨
      (s.encSt = .idle ∧ t = encFail .sequence s) ∨
      (s.encSt = .active ∧ s.cfg.encDepth < s.encQ.length + s.encPend.length + 1 ∧ t = encFail .overflow s) ∨
      (s.encSt = .active ∧ s.encQ.length + s.encPend.length + 1 ≤ s.cfg.encDepth ∧ t = commitEncoder s) := by
  unfold execEncEnd at h
  split at h
  · rename_i hs; exact .inl ⟨hs, by cases h; rfl⟩
  · split at h
    · rename_i hs; exact .inr (.inl ⟨hs, by cases h; rfl⟩)
    · rename_i h1 h2
      have ha : s.encSt = .active := by cases hs : s.encSt <;> simp_all
      split at h
      · rename_i hf; exact .inr (.inr (.inl ⟨ha, by simpa [encFull] using hf, by cases h; rfl⟩))
      · rename_i hf; exact .inr (.inr (.inr ⟨ha, by simpa [encFull] using hf, by cases h; rfl⟩))

/-- The accumulator that an accepted symbol leaves has fewer than eight bits. -/
theorem appendCodeword_encAcc_length (e : CodewordEntry) (s : State) :
    (appendCodeword e s).encAcc.length = (s.encAcc.length + e.len.toNat) % 8 := by
  simp [appendCodeword, completedBytes]; omega

/-- An accepted symbol's bits: packed bytes, then the bits still held. -/
theorem appendCodeword_bits (e : CodewordEntry) (s : State) :
    (appendCodeword e s).encPend.flatMap byteBits ++ (appendCodeword e s).encAcc =
      s.encPend.flatMap byteBits ++ s.encAcc ++ codeword e := by
  simp only [appendCodeword, List.flatMap_append, List.append_assoc]
  rw [packBytes_append_drop]
  simp [completedBytes]; omega

/-! ## Decoder -/

/-- Everything DEC_START can do (`44_decoder.md` R171). -/
theorem execDecStart_next {s t : State} (h : execDecStart s = .next t) :
    (s.decSt = .error ∧ t = s) ∨
      (s.decSt ≠ .error ∧ s.locked = false ∧ t = decFail .notLocked s) ∨
      (s.decSt = .active ∧ s.locked = true ∧ t = decFail .sequence s) ∨
      (s.decSt = .idle ∧ s.locked = true ∧ s.root.v = false ∧ t = decFail .tableError s) ∨
      (s.decSt = .idle ∧ s.locked = true ∧ s.root.v = true ∧
        t = { s with decSt := .active, decPos := s.root.val, decPend := [], decNsym := 0, decNbits := 0 }) := by
  unfold execDecStart at h
  cases hs : s.decSt <;> cases hl : s.locked <;> cases hr : s.root.v <;> simp [hs, hl, hr] at h <;> simp [h]

/-- Everything a run of FEEDs without failure does (`44_decoder.md` R173): symbols are emitted, within the room. -/
theorem feedBits_ok {bs : Bits} {s t : State} (h : feedBits bs s = .ok t) :
    ∃ out,
      t = { s with
        decPos := t.decPos
        decPend := s.decPend ++ out
        decNsym := s.decNsym + BitVec.ofNat 32 out.length
        decNbits := s.decNbits + BitVec.ofNat 32 bs.length } ∧
      (out = [] ∨ s.decQ.length + s.decPend.length + out.length ≤ s.cfg.decDepth) ∧
      (bs = [] ∧ t = s ∨ s.root.leaf = false) := by
  induction bs generalizing s with
  | nil => cases h; exact ⟨[], by simp, .inl rfl, .inl ⟨rfl, rfl⟩⟩
  | cons b bs ih =>
    simp only [feedBits] at h
    cases hf : feed b s with
    | error u => rw [hf] at h; cases h
    | ok u =>
      rw [hf] at h
      obtain ⟨out, ht, hroom, -⟩ := ih h
      obtain ⟨hl, ref, -, ⟨-, hr, rfl⟩ | ⟨-, rfl⟩⟩ := feed_ok hf
      · refine ⟨refVal ref :: out, ?_, ?_, .inr hl⟩
        · rw [ht]
          simp only [emitSymbol, counterIncr, List.append_assoc, List.singleton_append, List.length_cons,
            BitVec.ofNat_add, BitVec.add_assoc]
          simp [BitVec.add_comm]
        · right
          rcases hroom with rfl | hroom
          · simpa using hr
          · simp [emitSymbol] at hroom ⊢; omega
      · refine ⟨out, ?_, ?_, .inr hl⟩
        · rw [ht]
          simp only [descend, counterIncr, List.length_cons, BitVec.ofNat_add, BitVec.add_assoc]
          simp [BitVec.add_comm]
        · simpa [descend] using hroom

/-- Everything a run of FEEDs that fails does: the FEEDs before the failing bit, then that bit's failure with one of three
codes. -/
theorem feedBits_error {bs : Bits} {s t : State} (h : feedBits bs s = .error t) :
    ∃ c pre b rest u, bs = pre ++ b :: rest ∧ feedBits pre s = .ok u ∧ feed b u = .error t ∧
      c ∈ [ErrCode.excessBits, .tableError, .overflow] ∧ t = decFail c u := by
  induction bs generalizing s with
  | nil => cases h
  | cons b bs ih =>
    simp only [feedBits] at h
    cases hf : feed b s with
    | error u =>
      rw [hf] at h
      cases h
      obtain ⟨c, hc, rfl⟩ := feed_error hf
      exact ⟨c, [], b, bs, s, rfl, rfl, hf, by simpa using hc, rfl⟩
    | ok u =>
      rw [hf] at h
      obtain ⟨c, pre, b', rest, v, rfl, hv, hr⟩ := ih h
      exact ⟨c, b :: pre, b', rest, v, rfl, by simp [feedBits, hf, hv], hr⟩

/-- Everything DEC_BYTE can do (`44_decoder.md` R174): the bits fed are those of the command's own byte. -/
theorem execDecByte_next {last : Bool} {byte : Byte} {s t : State} (h : execDecByte last byte s = .next t) :
    (s.decSt = .error ∧ t = s) ∨
      (s.decSt = .idle ∧ t = decFail .sequence s) ∨
      (s.decSt = .active ∧
        ((last = false ∧ feedBits (byteBits byte) s = .ok t) ∨
          (last = true ∧ byte = 0 ∧ t = decFail .malformedPadding s) ∨
          ((last = true → byte ≠ 0) ∧ feedBits (bytePayload last byte) s = .error t) ∨
          (last = true ∧ byte ≠ 0 ∧ ∃ u, feedBits (finalPayload byte) s = .ok u ∧ t = finishMessage u))) := by
  unfold execDecByte at h
  split at h
  · rename_i hs; exact .inl ⟨hs, by cases h; rfl⟩
  · split at h
    · rename_i hs; exact .inr (.inl ⟨hs, by cases h; rfl⟩)
    · rename_i h1 h2
      have ha : s.decSt = .active := by cases hs : s.decSt <;> simp_all
      refine .inr (.inr ⟨ha, ?_⟩)
      cases last with
      | true =>
        obtain rfl := Host.Outcome.next.inj h
        unfold feedFinalByte
        split
        · rename_i hz; exact .inr (.inl ⟨rfl, hz, rfl⟩)
        · rename_i hz
          cases hf : feedBits (finalPayload byte) s with
          | error u => exact .inr (.inr (.inl ⟨fun _ => hz, hf⟩))
          | ok u => exact .inr (.inr (.inr ⟨rfl, hz, u, rfl, rfl⟩))
      | false =>
        obtain rfl := Host.Outcome.next.inj h
        unfold feedWholeByte
        cases hf : feedBits (byteBits byte) s with
        | error u => exact .inr (.inr (.inl ⟨nofun, hf⟩))
        | ok u => exact .inl ⟨rfl, rfl⟩

/-- Everything the end of a message can do after the FEEDs of the final payload (`44_decoder.md` R174, R176, R178). Under a
degenerate tree no FEED succeeds, so the payload was empty. -/
theorem finishMessage_cases {bs : Bits} {s u : State} (hu : feedBits bs s = .ok u) :
    (s.root.leaf = true ∧ u = s ∧
      ((s.cfg.decDepth < s.decQ.length + s.degCount.toNat ∧ finishMessage u = decFail .overflow s) ∨
        (s.decQ.length + s.degCount.toNat ≤ s.cfg.decDepth ∧
          finishMessage u =
            commitDecoder (List.replicate s.degCount.toNat s.root.val) { s with decNsym := s.degCount }))) ∨
      (s.root.leaf = false ∧
        ((u.decPos ≠ s.root.val ∧ finishMessage u = decFail .truncatedCode u) ∨
          (u.decPos = s.root.val ∧ finishMessage u = commitDecoder u.decPend u))) := by
  obtain ⟨out, ht, -, hl⟩ := feedBits_ok hu
  have hroot : u.root = s.root := by rw [ht]
  unfold finishMessage
  split
  · rename_i hleaf
    rw [hroot] at hleaf
    obtain ⟨-, rfl⟩ := hl.resolve_right (by simp [hleaf])
    refine .inl ⟨hleaf, rfl, ?_⟩
    split
    · rename_i hf; exact .inl ⟨hf, rfl⟩
    · rename_i hf; exact .inr ⟨by omega, rfl⟩
  · rename_i hleaf
    rw [hroot] at hleaf ⊢
    refine .inr ⟨by simpa using hleaf, ?_⟩
    split
    · rename_i hp; exact .inl ⟨hp, rfl⟩
    · rename_i hp; exact .inr ⟨by simpa using hp, rfl⟩

/-! ## The port -/

/-- Everything a write of CMD can do (`45_register_access.md` R211): an illegal word, or one command. -/
theorem execWrCmd_cases (a : Byte) (w : Word) (s : State) :
    ((∀ c, decodeCommand w ≠ .ok c) ∧ exec (.wrCmd a w) s = .next (cmdError .illegalCmd s)) ∨
      ∃ c, decodeCommand w = .ok c ∧ isCommand c = true ∧ exec (.wrCmd a w) s = exec c s := by
  cases h : decodeCommand w with
  | error r => exact .inl ⟨fun c hc => (nomatch hc), executeWord_error h s⟩
  | ok c => exact .inr ⟨c, rfl, decodeCommand_isCommand h, executeWord_ok h s⟩

/-- Everything a register access can do (`45_register_access.md`): answer a read, pop a queue, store DEG_COUNT, perform
the word written to CMD, or nothing. -/
theorem execAccess_next {i : Instr} {s t : State} (hi : isCommand i = false) (h : exec i s = .next t) :
    (∃ v, t = returnData v s) ∨
      (∃ a e rest, i = .rdEncOut a ∧ s.encQ = e :: rest ∧ t = returnData (outWord e) { s with encQ := rest }) ∨
      (∃ a e rest, i = .rdDecOut a ∧ s.decQ = e :: rest ∧ t = returnData (outWord e) { s with decQ := rest }) ∨
      (∃ a w, i = .wrDegCount a w ∧ t = { s with degCount := w }) ∨
      t = s ∨
      (∃ a w, i = .wrCmd a w ∧
        (((∀ c, decodeCommand w ≠ .ok c) ∧ t = cmdError .illegalCmd s) ∨
          ∃ c, decodeCommand w = .ok c ∧ isCommand c = true ∧ exec c s = .next t)) := by
  cases i <;> first
    | (cases hi; done)
    | (cases h; exact .inl ⟨_, rfl⟩)
    | (cases h; exact .inr (.inr (.inr (.inl ⟨_, _, rfl, rfl⟩))))
    | (cases h; exact .inr (.inr (.inr (.inr (.inl rfl)))))
    | skip
  case rdEncOut a =>
    simp only [exec, execRdEncOut] at h
    split at h
    · exact .inl ⟨_, by cases h; rfl⟩
    · rename_i e rest hq; exact .inr (.inl ⟨a, e, rest, rfl, hq, by cases h; rfl⟩)
  case rdDecOut a =>
    simp only [exec, execRdDecOut] at h
    split at h
    · exact .inl ⟨_, by cases h; rfl⟩
    · rename_i e rest hq; exact .inr (.inr (.inl ⟨a, e, rest, rfl, hq, by cases h; rfl⟩))
  case wrCmd a w =>
    refine .inr (.inr (.inr (.inr (.inr ⟨a, w, rfl, ?_⟩))))
    rcases execWrCmd_cases a w s with ⟨hw, hx⟩ | ⟨c, hd, hc, hx⟩
    · rw [hx] at h; exact .inl ⟨hw, by cases h; rfl⟩
    · exact .inr ⟨c, hd, hc, by rw [← hx]; exact h⟩

/-- A property of one instruction's transitions holds of every instruction when it holds of the commands, of what an
access does itself, and when a write of CMD has it from the command its word decodes to. -/
theorem exec_induction {P : Instr → State → State → Prop} {i : Instr} {s t : State} (h : exec i s = .next t)
    (command : ∀ c, isCommand c = true → exec c s = .next t → P c s t)
    (answer : ∀ v, t = returnData v s → P i s t)
    (encPop : ∀ a e rest, i = .rdEncOut a → s.encQ = e :: rest →
      t = returnData (outWord e) { s with encQ := rest } → P i s t)
    (decPop : ∀ a e rest, i = .rdDecOut a → s.decQ = e :: rest →
      t = returnData (outWord e) { s with decQ := rest } → P i s t)
    (degCount : ∀ a w, i = .wrDegCount a w → t = { s with degCount := w } → P i s t)
    (nothing : t = s → P i s t)
    (illegal : ∀ a w, i = .wrCmd a w → (∀ c, decodeCommand w ≠ .ok c) → t = cmdError .illegalCmd s → P i s t)
    (lift : ∀ a w c, i = .wrCmd a w → decodeCommand w = .ok c → P c s t → P i s t) : P i s t := by
  cases hc : isCommand i with
  | true => exact command i hc h
  | false =>
    obtain ⟨v, hv⟩ | ⟨a, e, r, h1, h2, h3⟩ | ⟨a, e, r, h1, h2, h3⟩ | ⟨a, w, h1, h2⟩ | h1 |
      ⟨a, w, h1, ⟨h2, h3⟩ | ⟨c, h2, h3, h4⟩⟩ := execAccess_next hc h
    · exact answer v hv
    · exact encPop a e r h1 h2 h3
    · exact decPop a e r h1 h2 h3
    · exact degCount a w h1 h2
    · exact nothing h1
    · exact illegal a w h1 h2 h3
    · exact lift a w c h1 h2 (command c h3 h4)

/-- Everything a step can do: an idle edge, a reset edge, or the next access. -/
theorem step_cases (s : State) :
    (s.inputs = [] ∧ step s = .next (idleEdge s)) ∨
      (∃ es, s.inputs = .resetEdge :: es ∧ step s = .next (resetEdge s)) ∨
      (∃ a es, s.inputs = .access a :: es ∧ step s = exec (decodeAccess a) (acceptAccess s)) := by
  unfold step
  split <;> rename_i h
  · exact .inl ⟨h, rfl⟩
  · exact .inr (.inl ⟨_, h, rfl⟩)
  · exact .inr (.inr ⟨_, _, h, rfl⟩)

/-! ## All commands at once -/

/-- Everything a command can do, over all of them: the cases whole-machine proofs go through. -/
inductive CommandEffect (s : State) : Instr → State → Prop where
  | nothing (c : Instr) : CommandEffect s c s
  | tableLocked (c : Instr) (hc : TableLoadCommand c) (hl : s.locked = true) :
      CommandEffect s c (cmdError .tableLocked s)
  | busy (hs : s.encSt = .active ∨ s.decSt = .active) : CommandEffect s .unlock (cmdError .busy s)
  | reset : CommandEffect s .reset (resetBlock s)
  | clrErr : CommandEffect s .clrErr (clearCmdErr s)
  | lock : CommandEffect s .lock { s with locked := true }
  | unlock (he : s.encSt ≠ .active) (hd : s.decSt ≠ .active) : CommandEffect s .unlock { s with locked := false }
  | codeword (c : Instr) (hc : TableLoadCommand c) (hl : s.locked = false) (sym : Byte) (e : CodewordEntry) :
      CommandEffect s c (setCwEntry s sym e)
  | node (c : Instr) (hc : TableLoadCommand c) (hl : s.locked = false) (n : Byte) (e : NodeEntry) :
      CommandEffect s c (setNtEntry s n e)
  | root (hl : s.locked = false) (leaf : Bool) (ref : Byte) :
      CommandEffect s (.treeRoot leaf ref) { s with root := { v := true, leaf := leaf, val := ref } }
  | encFailed (c : Instr) (hc : c = .encStart ∨ (∃ x, c = .encSym x) ∨ c = .encEnd) (hs : s.encSt ≠ .error)
      (e : ErrCode) (he : e = .notLocked ∨ e = .sequence ∨ e = .overflow) : CommandEffect s c (encFail e s)
  | unknownSymbol (sym : Byte) (hs : s.encSt = .active) (hv : (cwEntry s sym).v = false) :
      CommandEffect s (.encSym sym) (encFail .unknownSymbol { s with encErrsym := sym })
  | encStart (hs : s.encSt = .idle) (hl : s.locked = true) :
      CommandEffect s .encStart { s with encSt := .active, encAcc := [], encPend := [], encNsym := 0, encNbits := 0 }
  | encSym (sym : Byte) (hs : s.encSt = .active) (hv : (cwEntry s sym).v = true)
      (hr : s.encQ.length + s.encPend.length + completedBytes s (cwEntry s sym) ≤ s.cfg.encDepth) :
      CommandEffect s (.encSym sym) (appendCodeword (cwEntry s sym) s)
  | encEnd (hs : s.encSt = .active) (hr : s.encQ.length + s.encPend.length + 1 ≤ s.cfg.encDepth) :
      CommandEffect s .encEnd (commitEncoder s)
  | encAbort : CommandEffect s .encAbort (encRecover s)
  | decStartFailed (hs : s.decSt ≠ .error) (e : ErrCode)
      (he : e = .notLocked ∨ e = .sequence ∨ (e = .tableError ∧ s.root.v = false)) :
      CommandEffect s .decStart (decFail e s)
  | decStart (hs : s.decSt = .idle) (hl : s.locked = true) (hr : s.root.v = true) :
      CommandEffect s .decStart { s with decSt := .active, decPos := s.root.val, decPend := [], decNsym := 0,
                                         decNbits := 0 }
  | byteInIdle (last : Bool) (byte : Byte) (hs : s.decSt = .idle) :
      CommandEffect s (.decByte last byte) (decFail .sequence s)
  | malformedPadding (hs : s.decSt = .active) : CommandEffect s (.decByte true 0) (decFail .malformedPadding s)
  | fed (byte : Byte) (hs : s.decSt = .active) (u : State) (hu : feedBits (byteBits byte) s = .ok u) :
      CommandEffect s (.decByte false byte) u
  | feedFailed (last : Bool) (byte : Byte) (hs : s.decSt = .active) (hz : last = true → byte ≠ 0) (pre : Bits)
      (b : Bool) (rest : Bits) (u : State) (hp : bytePayload last byte = pre ++ b :: rest)
      (hu : feedBits pre s = .ok u) (e : ErrCode) (hf : feed b u = .error (decFail e u))
      (he : e ∈ [ErrCode.excessBits, .tableError, .overflow]) : CommandEffect s (.decByte last byte) (decFail e u)
  | degenerateOverflow (byte : Byte) (hs : s.decSt = .active) (hz : byte ≠ 0) (hleaf : s.root.leaf = true)
      (hu : feedBits (finalPayload byte) s = .ok s) (hr : s.cfg.decDepth < s.decQ.length + s.degCount.toNat) :
      CommandEffect s (.decByte true byte) (decFail .overflow s)
  | degenerateCommit (byte : Byte) (hs : s.decSt = .active) (hz : byte ≠ 0) (hleaf : s.root.leaf = true)
      (hu : feedBits (finalPayload byte) s = .ok s) (hr : s.decQ.length + s.degCount.toNat ≤ s.cfg.decDepth) :
      CommandEffect s (.decByte true byte)
        (commitDecoder (List.replicate s.degCount.toNat s.root.val) { s with decNsym := s.degCount })
  | truncated (byte : Byte) (hs : s.decSt = .active) (hz : byte ≠ 0) (hleaf : s.root.leaf = false) (u : State)
      (hu : feedBits (finalPayload byte) s = .ok u) (hp : u.decPos ≠ s.root.val) :
      CommandEffect s (.decByte true byte) (decFail .truncatedCode u)
  | decCommit (byte : Byte) (hs : s.decSt = .active) (hz : byte ≠ 0) (hleaf : s.root.leaf = false) (u : State)
      (hu : feedBits (finalPayload byte) s = .ok u) (hp : u.decPos = s.root.val) :
      CommandEffect s (.decByte true byte) (commitDecoder u.decPend u)
  | decAbort : CommandEffect s .decAbort (decRecover s)

/-- The cases of `CommandEffect` are all a command can do. -/
theorem exec_command {c : Instr} {s t : State} (hc : isCommand c = true) (h : exec c s = .next t) :
    CommandEffect s c t := by
  have guarded (w : State) (hcc : TableLoadCommand c) (hw : s.locked = false → CommandEffect s c w)
      (h : t = guardUnlocked s w) : CommandEffect s c t := by
    rcases guardUnlocked_cases s w with ⟨hl, hg⟩ | ⟨hl, hg⟩ <;> rw [h, hg]
    · exact .tableLocked _ hcc hl
    · exact hw hl
  cases c <;> (first | (cases hc; done) | simp only [exec] at h)
  case nop => cases h; exact .nothing _
  case reset => cases h; exact .reset
  case clrErr => cases h; exact .clrErr
  case cwDef sym v len =>
    have hcc : TableLoadCommand (.cwDef sym v len) := .inl ⟨_, _, _, rfl⟩
    exact guarded _ hcc (fun hl => .codeword _ hcc hl _ _) (Host.Outcome.next.inj h).symm
  case cwBits sym idx data =>
    have hcc : TableLoadCommand (.cwBits sym idx data) := .inr (.inl ⟨_, _, _, rfl⟩)
    exact guarded _ hcc (fun hl => .codeword _ hcc hl _ _) (Host.Outcome.next.inj h).symm
  case nodeL node leaf ref =>
    have hcc : TableLoadCommand (.nodeL node leaf ref) := .inr (.inr (.inl ⟨_, _, _, rfl⟩))
    exact guarded _ hcc (fun hl => .node _ hcc hl _ _) (Host.Outcome.next.inj h).symm
  case nodeR node leaf ref =>
    have hcc : TableLoadCommand (.nodeR node leaf ref) := .inr (.inr (.inr (.inl ⟨_, _, _, rfl⟩)))
    exact guarded _ hcc (fun hl => .node _ hcc hl _ _) (Host.Outcome.next.inj h).symm
  case treeRoot leaf ref =>
    exact guarded _ (.inr (.inr (.inr (.inr ⟨_, _, rfl⟩)))) (fun hl => .root hl _ _) (Host.Outcome.next.inj h).symm
  case lock => cases h; exact .lock
  case unlock =>
    rcases execUnlock_next h with ⟨hs, rfl⟩ | ⟨he, hd, rfl⟩
    · exact .busy hs
    · exact .unlock he hd
  case encStart =>
    rcases execEncStart_next h with ⟨-, rfl⟩ | ⟨hs, -, rfl⟩ | ⟨hs, -, rfl⟩ | ⟨hs, hl, rfl⟩
    · exact .nothing _
    · exact .encFailed _ (.inl rfl) hs _ (.inl rfl)
    · exact .encFailed _ (.inl rfl) (by simp [hs]) _ (.inr (.inl rfl))
    · exact .encStart hs hl
  case encSym sym =>
    rcases execEncSym_next h with ⟨-, rfl⟩ | ⟨hs, rfl⟩ | ⟨hs, hv, rfl⟩ | ⟨hs, -, -, rfl⟩ | ⟨hs, hv, hr, rfl⟩
    · exact .nothing _
    · exact .encFailed _ (.inr (.inl ⟨_, rfl⟩)) (by simp [hs]) _ (.inr (.inl rfl))
    · exact .unknownSymbol _ hs hv
    · exact .encFailed _ (.inr (.inl ⟨_, rfl⟩)) (by simp [hs]) _ (.inr (.inr rfl))
    · exact .encSym _ hs hv hr
  case encEnd =>
    rcases execEncEnd_next h with ⟨-, rfl⟩ | ⟨hs, rfl⟩ | ⟨hs, -, rfl⟩ | ⟨hs, hr, rfl⟩
    · exact .nothing _
    · exact .encFailed _ (.inr (.inr rfl)) (by simp [hs]) _ (.inr (.inl rfl))
    · exact .encFailed _ (.inr (.inr rfl)) (by simp [hs]) _ (.inr (.inr rfl))
    · exact .encEnd hs hr
  case encAbort => cases h; exact .encAbort
  case decStart =>
    rcases execDecStart_next h with ⟨-, rfl⟩ | ⟨hs, -, rfl⟩ | ⟨hs, -, rfl⟩ | ⟨hs, -, hv, rfl⟩ | ⟨hs, hl, hr, rfl⟩
    · exact .nothing _
    · exact .decStartFailed hs _ (.inl rfl)
    · exact .decStartFailed (by simp [hs]) _ (.inr (.inl rfl))
    · exact .decStartFailed (by simp [hs]) _ (.inr (.inr ⟨rfl, hv⟩))
    · exact .decStart hs hl hr
  case decByte last byte =>
    rcases execDecByte_next h with ⟨-, rfl⟩ | ⟨hs, rfl⟩ | ⟨hs, ⟨rfl, hu⟩ | ⟨rfl, rfl, rfl⟩ | ⟨hz, hf⟩ |
      ⟨rfl, hz, u, hu, rfl⟩⟩
    · exact .nothing _
    · exact .byteInIdle _ _ hs
    · exact .fed _ hs _ hu
    · exact .malformedPadding hs
    · obtain ⟨e, pre, b, rest, u, hp, hu, hf, he, rfl⟩ := feedBits_error hf
      exact .feedFailed _ _ hs hz pre b rest u hp hu e hf he
    · rcases finishMessage_cases hu with ⟨hleaf, rfl, ⟨hr, hx⟩ | ⟨hr, hx⟩⟩ | ⟨hleaf, ⟨hp, hx⟩ | ⟨hp, hx⟩⟩ <;> rw [hx]
      · exact .degenerateOverflow _ hs hz hleaf hu hr
      · exact .degenerateCommit _ hs hz hleaf hu hr
      · exact .truncated _ hs hz hleaf u hu hp
      · exact .decCommit _ hs hz hleaf u hu hp
  case decAbort => cases h; exact .decAbort

/-- What `Performs` says of a write of CMD: it performs what its command performs. -/
theorem performs_wrCmd {a : Byte} {w : Word} {c d : Instr} (h : decodeCommand w = .ok c) (hp : c = d) :
    Performs (.wrCmd a w) d := .inr ⟨a, w, rfl, hp ▸ h⟩

end Sys2Proof.Machine
end

