-- ==== Sys2Proof/Laws/PerInstr.lean ====
section
/-! SUPPORT. Per instruction: the encoding of a well-formed instruction is one that the opcode table's own row for it
takes (`30_encoding.md` R91, R93). -/

namespace Sys2Proof.Laws.EncodesItsRow

open Sys2Proof.Machine

/-- The row's match and mask, as `spec/opcode_table.json` gives them. -/
def row : Instr → Nat × Nat
  | .nop => (0x00000000, 0xFFFFFFFF)
  | .reset => (0x01000000, 0xFFFFFFFF)
  | .clrErr => (0x02000000, 0xFFFFFFFF)
  | .cwDef _ _ _ => (0x10000000, 0xFF007F00)
  | .cwBits _ _ _ => (0x11000000, 0xFF000700)
  | .nodeL _ _ _ => (0x18000000, 0xFF00FE00)
  | .nodeR _ _ _ => (0x19000000, 0xFF00FE00)
  | .treeRoot _ _ => (0x1A000000, 0xFFFFFE00)
  | .lock => (0x20000000, 0xFFFFFFFF)
  | .unlock => (0x21000000, 0xFFFFFFFF)
  | .encStart => (0x40000000, 0xFFFFFFFF)
  | .encSym _ => (0x41000000, 0xFFFFFF00)
  | .encEnd => (0x42000000, 0xFFFFFFFF)
  | .encAbort => (0x43000000, 0xFFFFFFFF)
  | .decStart => (0x50000000, 0xFFFFFFFF)
  | .decByte _ _ => (0x51000000, 0xFFFFFE00)
  | .decAbort => (0x52000000, 0xFFFFFFFF)
  | .rdId _ => (0x000, 0x1FC)
  | .rdCmd _ => (0x004, 0x1FC)
  | .rdStatus _ => (0x008, 0x1FC)
  | .rdEncOut _ => (0x00C, 0x1FC)
  | .rdDecOut _ => (0x010, 0x1FC)
  | .rdEncNsym _ => (0x014, 0x1FC)
  | .rdEncNbits _ => (0x018, 0x1FC)
  | .rdEncErrsym _ => (0x01C, 0x1FC)
  | .rdDecNsym _ => (0x020, 0x1FC)
  | .rdDecNbits _ => (0x024, 0x1FC)
  | .rdDegCount _ => (0x028, 0x1FC)
  | .rdEncOlevel _ => (0x02C, 0x1FC)
  | .rdDecOlevel _ => (0x030, 0x1FC)
  | .rdEncCap _ => (0x034, 0x1FC)
  | .rdDecCap _ => (0x038, 0x1FC)
  | .rdRsvd3C _ => (0x03C, 0x1FC)
  | .rdRsvd40 _ => (0x040, 0x1C0)
  | .rdRsvd80 _ => (0x080, 0x180)
  | .wrCmd _ _ => (0x104, 0x1FC)
  | .wrDegCount _ _ => (0x128, 0x1FC)
  | .wrIgnored00 _ _ => (0x100, 0x1FC)
  | .wrIgnored08 _ _ => (0x108, 0x1F8)
  | .wrIgnored10 _ _ => (0x110, 0x1F0)
  | .wrIgnored20 _ _ => (0x120, 0x1F8)
  | .wrIgnored2C _ _ => (0x12C, 0x1FC)
  | .wrIgnored30 _ _ => (0x130, 0x1F0)
  | .wrIgnored40 _ _ => (0x140, 0x1C0)
  | .wrIgnored80 _ _ => (0x180, 0x180)

/-- The bits of an encoding as the opcode table numbers them. -/
def tableBits : Encoded → Nat
  | .command w => w.toNat
  | .access a => a.descriptor.toNat

/-- Masking a word, bit by bit. -/
theorem masked_eq {x m p : Word} (h : ∀ i, i < 32 → (x.getLsbD i && m.getLsbD i) = p.getLsbD i) :
    x.toNat &&& m.toNat = p.toNat := by
  rw [← BitVec.toNat_and]
  congr 1
  apply BitVec.eq_of_getLsbD_eq
  intro i hi
  simpa using h i hi

/-- The descriptor of a read whose offset the row covers (`30_encoding.md` R93). -/
theorem read_masked {pat mask addr : Byte} (h : offsetIn pat mask addr = true) :
    (Access.read addr).descriptor.toNat &&& (1#1 ++ mask).toNat = (0#1 ++ pat).toNat := by
  have h : addr &&& mask = pat := by simpa [offsetIn] using h
  rw [← BitVec.toNat_and, ← h]
  exact congrArg BitVec.toNat BitVec.and_append

/-- The descriptor of a write whose offset the row covers (`30_encoding.md` R93). -/
theorem write_masked {pat mask addr : Byte} {wdata : Word} (h : offsetIn pat mask addr = true) :
    (Access.write addr wdata).descriptor.toNat &&& (1#1 ++ mask).toNat = (1#1 ++ pat).toNat := by
  have h : addr &&& mask = pat := by simpa [offsetIn] using h
  rw [← BitVec.toNat_and, ← h]
  exact congrArg BitVec.toNat BitVec.and_append

/-- A well-formed instruction's encoding is taken by the table's row for it. -/
abbrev Statement (i : Instr) : Prop :=
  i.wellFormed = true → tableBits (encode i) &&& (row i).2 = (row i).1

theorem nop : Statement .nop := by
  decide +kernel

theorem reset : Statement .reset := by
  decide +kernel

theorem clrErr : Statement .clrErr := by
  decide +kernel

theorem cwDef (sym : Byte) (v : Bool) (len : Byte) : Statement (.cwDef sym v len) := by
  intro _
  refine masked_eq (m := 0xFF007F00#32) (p := 0x10000000#32) (fun i hi => ?_)
  simp only [placeField]
  interval_cases i <;> simp

theorem cwBits (sym : Byte) (idx : BitVec 5) (data : Byte) : Statement (.cwBits sym idx data) := by
  intro _
  refine masked_eq (m := 0xFF000700#32) (p := 0x11000000#32) (fun i hi => ?_)
  simp only [placeField]
  interval_cases i <;> simp

theorem nodeL (node : Byte) (leaf : Bool) (ref : Byte) : Statement (.nodeL node leaf ref) := by
  intro _
  refine masked_eq (m := 0xFF00FE00#32) (p := 0x18000000#32) (fun i hi => ?_)
  simp only [placeField]
  interval_cases i <;> simp

theorem nodeR (node : Byte) (leaf : Bool) (ref : Byte) : Statement (.nodeR node leaf ref) := by
  intro _
  refine masked_eq (m := 0xFF00FE00#32) (p := 0x19000000#32) (fun i hi => ?_)
  simp only [placeField]
  interval_cases i <;> simp

theorem treeRoot (leaf : Bool) (ref : Byte) : Statement (.treeRoot leaf ref) := by
  intro _
  refine masked_eq (m := 0xFFFFFE00#32) (p := 0x1A000000#32) (fun i hi => ?_)
  simp only [placeField]
  interval_cases i <;> simp

theorem lock : Statement .lock := by
  decide +kernel

theorem unlock : Statement .unlock := by
  decide +kernel

theorem encStart : Statement .encStart := by
  decide +kernel

theorem encSym (sym : Byte) : Statement (.encSym sym) := by
  intro _
  refine masked_eq (m := 0xFFFFFF00#32) (p := 0x41000000#32) (fun i hi => ?_)
  simp only [placeField]
  interval_cases i <;> simp

theorem encEnd : Statement .encEnd := by
  decide +kernel

theorem encAbort : Statement .encAbort := by
  decide +kernel

theorem decStart : Statement .decStart := by
  decide +kernel

theorem decByte (last : Bool) (byte : Byte) : Statement (.decByte last byte) := by
  intro _
  refine masked_eq (m := 0xFFFFFE00#32) (p := 0x51000000#32) (fun i hi => ?_)
  simp only [placeField]
  interval_cases i <;> simp

theorem decAbort : Statement .decAbort := by
  decide +kernel

theorem rdId (addr : Byte) : Statement (.rdId addr) :=
  fun h => read_masked h

theorem rdCmd (addr : Byte) : Statement (.rdCmd addr) :=
  fun h => read_masked h

theorem rdStatus (addr : Byte) : Statement (.rdStatus addr) :=
  fun h => read_masked h

theorem rdEncOut (addr : Byte) : Statement (.rdEncOut addr) :=
  fun h => read_masked h

theorem rdDecOut (addr : Byte) : Statement (.rdDecOut addr) :=
  fun h => read_masked h

theorem rdEncNsym (addr : Byte) : Statement (.rdEncNsym addr) :=
  fun h => read_masked h

theorem rdEncNbits (addr : Byte) : Statement (.rdEncNbits addr) :=
  fun h => read_masked h

theorem rdEncErrsym (addr : Byte) : Statement (.rdEncErrsym addr) :=
  fun h => read_masked h

theorem rdDecNsym (addr : Byte) : Statement (.rdDecNsym addr) :=
  fun h => read_masked h

theorem rdDecNbits (addr : Byte) : Statement (.rdDecNbits addr) :=
  fun h => read_masked h

theorem rdDegCount (addr : Byte) : Statement (.rdDegCount addr) :=
  fun h => read_masked h

theorem rdEncOlevel (addr : Byte) : Statement (.rdEncOlevel addr) :=
  fun h => read_masked h

theorem rdDecOlevel (addr : Byte) : Statement (.rdDecOlevel addr) :=
  fun h => read_masked h

theorem rdEncCap (addr : Byte) : Statement (.rdEncCap addr) :=
  fun h => read_masked h

theorem rdDecCap (addr : Byte) : Statement (.rdDecCap addr) :=
  fun h => read_masked h

theorem rdRsvd3C (addr : Byte) : Statement (.rdRsvd3C addr) :=
  fun h => read_masked h

theorem rdRsvd40 (addr : Byte) : Statement (.rdRsvd40 addr) :=
  fun h => read_masked h

theorem rdRsvd80 (addr : Byte) : Statement (.rdRsvd80 addr) :=
  fun h => read_masked h

theorem wrCmd (addr : Byte) (wdata : Word) : Statement (.wrCmd addr wdata) :=
  fun h => write_masked (wdata := wdata) h

theorem wrDegCount (addr : Byte) (wdata : Word) : Statement (.wrDegCount addr wdata) :=
  fun h => write_masked (wdata := wdata) h

theorem wrIgnored00 (addr : Byte) (wdata : Word) : Statement (.wrIgnored00 addr wdata) :=
  fun h => write_masked (wdata := wdata) h

theorem wrIgnored08 (addr : Byte) (wdata : Word) : Statement (.wrIgnored08 addr wdata) :=
  fun h => write_masked (wdata := wdata) h

theorem wrIgnored10 (addr : Byte) (wdata : Word) : Statement (.wrIgnored10 addr wdata) :=
  fun h => write_masked (wdata := wdata) h

theorem wrIgnored20 (addr : Byte) (wdata : Word) : Statement (.wrIgnored20 addr wdata) :=
  fun h => write_masked (wdata := wdata) h

theorem wrIgnored2C (addr : Byte) (wdata : Word) : Statement (.wrIgnored2C addr wdata) :=
  fun h => write_masked (wdata := wdata) h

theorem wrIgnored30 (addr : Byte) (wdata : Word) : Statement (.wrIgnored30 addr wdata) :=
  fun h => write_masked (wdata := wdata) h

theorem wrIgnored40 (addr : Byte) (wdata : Word) : Statement (.wrIgnored40 addr wdata) :=
  fun h => write_masked (wdata := wdata) h

theorem wrIgnored80 (addr : Byte) (wdata : Word) : Statement (.wrIgnored80 addr wdata) :=
  fun h => write_masked (wdata := wdata) h

end Sys2Proof.Laws.EncodesItsRow
end

