-- ==== Sys2Proof/Laws/Table.lean ====
section
/-! SUPPORT. The sparse tables: a read after a write, the canonical form is kept, and equal reads are equal tables. -/

namespace Sys2Proof.Machine

variable {α : Type} [DecidableEq α] {d : α}

/-- Canonical form, as propositions: the first entry and the rest. -/
theorem tableWf_cons {k : Nat} {v : α} {t : Table α} :
    tableWf d ((k, v) :: t) = true ↔ k < 256 ∧ v ≠ d ∧ (∀ e ∈ t, k < e.1) ∧ tableWf d t = true := by
  simp [tableWf, and_assoc]

omit [DecidableEq α] in
/-- Below every listed index a table reads as unlisted. -/
theorem tableGet_below {t : Table α} {k : Nat} (h : ∀ e ∈ t, k < e.1) : tableGet d t k = d := by
  induction t with
  | nil => rfl
  | cons e t ih =>
    have hk : e.1 ≠ k := Nat.ne_of_gt (h e (by simp))
    simpa [tableGet, hk] using ih (fun x hx => h x (by simp [hx]))

/-- An index at or above 256 is never listed. -/
theorem tableGet_outside {t : Table α} {k : Nat} (hw : tableWf d t = true) (hk : 256 ≤ k) : tableGet d t k = d := by
  induction t with
  | nil => rfl
  | cons e t ih =>
    obtain ⟨h1, -, -, h4⟩ := tableWf_cons.mp hw
    have : e.1 ≠ k := by omega
    simpa [tableGet, this] using ih h4

/-- A write to `k` shows at `k` and nowhere else. -/
theorem tableGet_tableSet {t : Table α} (hw : tableWf d t = true) (k : Nat) (v : α) (j : Nat) :
    tableGet d (tableSet d t k v) j = if j = k then v else tableGet d t j := by
  induction t with
  | nil =>
    by_cases hj : j = k
    · by_cases hv : v = d <;> simp [tableSet, tableGet, hv, hj]
    · have : ¬ k = j := fun h => hj h.symm
      by_cases hv : v = d <;> simp [tableSet, tableGet, hv, hj, this]
  | cons e t ih =>
    obtain ⟨k', v'⟩ := e
    obtain ⟨-, -, h3, h4⟩ := tableWf_cons.mp hw
    have below : ∀ n, n ≤ k' → tableGet d t n = d := fun n hn => tableGet_below (fun e he => by have := h3 e he; omega)
    have ih := ih h4
    simp only [tableSet]
    split
    · rename_i hlt
      by_cases hv : v = d
      · by_cases hj : j = k
        · subst hj hv
          have : ¬ k' = j := by omega
          simp [tableGet, this, below j (by omega)]
        · simp [hv, hj]
      · by_cases hj : j = k
        · simp [hv, hj, tableGet]
        · have : ¬ k = j := fun h => hj h.symm
          simp [hv, hj, tableGet, this]
    · split
      · rename_i _ hkk
        subst hkk
        by_cases hv : v = d
        · by_cases hj : j = k
          · subst hj; simp [hv, below j (by omega)]
          · have : ¬ k = j := fun h => hj h.symm
            simp [hv, hj, tableGet, this]
        · by_cases hj : j = k
          · simp [hv, hj, tableGet]
          · have : ¬ k = j := fun h => hj h.symm
            simp [hv, hj, tableGet, this]
      · rename_i hlt hne
        by_cases hj : k' = j
        · have : ¬ j = k := by omega
          simp [tableGet, hj, this]
        · simp [tableGet, hj, ih]

/-- Every entry of an updated table is an old one or the written one. -/
theorem mem_tableSet {t : Table α} {k : Nat} {v : α} {e : Nat × α} (h : e ∈ tableSet d t k v) :
    e ∈ t ∨ e = (k, v) := by
  induction t with
  | nil => unfold tableSet at h; split at h <;> simp_all
  | cons x t ih =>
    obtain ⟨k', v'⟩ := x
    unfold tableSet at h
    split at h
    · split at h <;> simp_all; tauto
    · split at h
      · split at h <;> simp_all; tauto
      · simp only [List.mem_cons] at h ⊢
        rcases h with h | h
        · exact .inl (.inl h)
        · rcases ih h with h | h
          · exact .inl (.inr h)
          · exact .inr h

/-- A write at an index below 256 keeps the canonical form. -/
theorem tableWf_tableSet {t : Table α} (hw : tableWf d t = true) {k : Nat} (hk : k < 256) (v : α) :
    tableWf d (tableSet d t k v) = true := by
  induction t with
  | nil => unfold tableSet; split <;> simp_all [tableWf]
  | cons x t ih =>
    obtain ⟨k', v'⟩ := x
    obtain ⟨h1, h2, h3, h4⟩ := tableWf_cons.mp hw
    simp only [tableSet]
    split
    · rename_i hlt
      split
      · exact hw
      · rename_i hv
        refine tableWf_cons.mpr ⟨hk, hv, ?_, hw⟩
        intro e he
        rcases List.mem_cons.mp he with rfl | he
        · exact hlt
        · exact Nat.lt_trans hlt (h3 e he)
    · split
      · rename_i _ hkk
        subst hkk
        split
        · exact h4
        · rename_i hv
          exact tableWf_cons.mpr ⟨hk, hv, h3, h4⟩
      · rename_i hlt hne
        refine tableWf_cons.mpr ⟨h1, h2, ?_, ih h4⟩
        intro e he
        rcases mem_tableSet he with he | rfl
        · exact h3 e he
        · show k' < k
          omega

/-! ## The two tables of the state -/

/-- `cwt` after a write of one entry. -/
theorem cwEntry_setCwEntry {s : State} (hw : tableWf CodewordEntry.blank s.cwt = true) (x : Byte) (e : CodewordEntry)
    (y : Byte) : cwEntry (setCwEntry s x e) y = if y = x then e else cwEntry s y := by
  simp [cwEntry, tableGet_tableSet hw, BitVec.toNat_inj]

/-- `nt` after a write of one entry. -/
theorem ntEntry_setNtEntry {s : State} (hw : tableWf NodeEntry.blank s.nt = true) (x : Byte) (e : NodeEntry)
    (y : Byte) : ntEntry (setNtEntry s x e) y = if y = x then e else ntEntry s y := by
  simp [ntEntry, tableGet_tableSet hw, BitVec.toNat_inj]

/-- A write of one codeword entry keeps the canonical form. -/
theorem cwt_wf_setCwEntry {s : State} (hw : tableWf CodewordEntry.blank s.cwt = true) (x : Byte) (e : CodewordEntry) :
    tableWf CodewordEntry.blank (setCwEntry s x e).cwt = true :=
  tableWf_tableSet hw x.isLt e

/-- A write of one node entry keeps the canonical form. -/
theorem nt_wf_setNtEntry {s : State} (hw : tableWf NodeEntry.blank s.nt = true) (x : Byte) (e : NodeEntry) :
    tableWf NodeEntry.blank (setNtEntry s x e).nt = true :=
  tableWf_tableSet hw x.isLt e

end Sys2Proof.Machine
end

