-- ==== Sys2Proof/Tests/Slice0.lean ====
section
/-! SUPPORT. Tests: the WellFormed smoke tests, the decoding of words written out from `30_encoding.md`, single steps with the
results the spec's own examples give, and for each statement with hypotheses a witness that meets them. -/

namespace Sys2Proof.Tests

open Sys2Proof.Machine

/-! ## Small states -/

/-- The state an outcome goes on in. -/
def nextOf : Result → Option State
  | .next s => some s
  | .fault _ => none
  | .refused _ => none

/-- Scenario A loaded and locked (`41_host_reference_compile.md` R133): A = "10", B = "11", C = "0". -/
def codeA : State :=
  { State.reset with
    locked := true
    cwt := [(0x41, { v := true, len := 2, bits := 1 }), (0x42, { v := true, len := 2, bits := 3 }),
      (0x43, { v := true, len := 1, bits := 0 })]
    nt := [(0, { lv := true, l := 0x143, rv := true, r := 0x001 }),
      (1, { lv := true, l := 0x141, rv := true, r := 0x142 })]
    root := { v := true, leaf := false, val := 0 } }

/-- The degenerate tree of the one symbol X, loaded and locked. -/
def codeX : State :=
  { State.reset with
    locked := true
    cwt := [(0x58, { v := true, len := 0, bits := 0 })]
    root := { v := true, leaf := true, val := 0x58 } }

/-- Scenario A with the encoder in a message after the symbol A. -/
def encA : State := { codeA with encSt := .active, encAcc := [true, false], encNsym := 1, encNbits := 2 }

/-- Scenario A with the decoder at the start of a message. -/
def decA : State := { codeA with decSt := .active }

/-- The degenerate tree with the decoder at the start of a message and two symbols to emit. -/
def decX : State := { codeX with decSt := .active, decPos := 0x58, degCount := 2 }

/-- A state with other queue depths. -/
def withDepths (e d : Nat) (s : State) : State := { s with cfg := { encDepth := e, decDepth := d } }

/-! ## WellFormed smoke: an offset outside each row is refused -/

theorem test_wellFormed_refuses_low_reads :
    [Instr.rdId 0x04, .rdCmd 0x08, .rdStatus 0x04, .rdEncOut 0x10, .rdDecOut 0x0C, .rdEncNsym 0x18, .rdEncNbits 0x14,
      .rdEncErrsym 0x20, .rdDecNsym 0x1C].all (fun i => !i.wellFormed) = true := by decide

theorem test_wellFormed_refuses_high_reads :
    [Instr.rdDecNbits 0x28, .rdDegCount 0x24, .rdEncOlevel 0x30, .rdDecOlevel 0x2C, .rdEncCap 0x38, .rdDecCap 0x3C,
      .rdRsvd3C 0x40, .rdRsvd40 0x80, .rdRsvd80 0x7F].all (fun i => !i.wellFormed) = true := by decide

theorem test_wellFormed_refuses_writes :
    [Instr.wrCmd 0x00 0, .wrDegCount 0x2C 0, .wrIgnored00 0x04 0, .wrIgnored08 0x10 0, .wrIgnored10 0x20 0,
      .wrIgnored20 0x28 0, .wrIgnored2C 0x28 0, .wrIgnored30 0x40 0, .wrIgnored40 0x80 0,
      .wrIgnored80 0x04 0].all (fun i => !i.wellFormed) = true := by decide

/-! ## Decoding: words written out from the field diagrams of `30_encoding.md` R86 and the rows of R91 -/

theorem test_decode_system :
    decodeTableWord 32 0x00000000 = some .nop ∧ decodeTableWord 32 0x01000000 = some .reset ∧
    decodeTableWord 32 0x02000000 = some .clrErr ∧ decodeTableWord 32 0x20000000 = some .lock ∧
    decodeTableWord 32 0x21000000 = some .unlock := by decide

/-- Format D: OPC 0x10, SYM 0xC3, V 1, reserved, LEN 5. Format K: OPC 0x11, SYM 0xC3, IDX 17, reserved, DATA 0x96. Formats
T and R: OPC, NODE 0x81, reserved, LEAF, REF 0x7E. -/
theorem test_decode_table_load :
    decodeTableWord 32 0b00010000110000111000000000000101 = some (.cwDef 0xC3 true 5) ∧
    decodeTableWord 32 0b00010000110000110000000000000101 = some (.cwDef 0xC3 false 5) ∧
    decodeTableWord 32 0b00010001110000111000100010010110 = some (.cwBits 0xC3 17 0x96) ∧
    decodeTableWord 32 0b00011000100000010000000101111110 = some (.nodeL 0x81 true 0x7E) ∧
    decodeTableWord 32 0b00011001100000010000000001111110 = some (.nodeR 0x81 false 0x7E) ∧
    decodeTableWord 32 0b00011010000000000000000101111110 = some (.treeRoot true 0x7E) := by decide

/-- Format Y: OPC 0x41, reserved, SYM. Format B: OPC 0x51, reserved, LAST, BYTE. -/
theorem test_decode_units :
    decodeTableWord 32 0x40000000 = some .encStart ∧
    decodeTableWord 32 0b01000001000000000000000011000011 = some (.encSym 0xC3) ∧
    decodeTableWord 32 0x42000000 = some .encEnd ∧ decodeTableWord 32 0x43000000 = some .encAbort ∧
    decodeTableWord 32 0x50000000 = some .decStart ∧
    decodeTableWord 32 0b01010001000000000000000110010110 = some (.decByte true 0x96) ∧
    decodeTableWord 32 0b01010001000000000000000010010110 = some (.decByte false 0x96) ∧
    decodeTableWord 32 0x52000000 = some .decAbort := by decide

/-- Access descriptors `we*256 + addr` (R93): reads, each at the last offset its row covers. -/
theorem test_decode_reads :
    decodeTableWord 16 0x003 = some (.rdId 0x03) ∧ decodeTableWord 16 0x007 = some (.rdCmd 0x07) ∧
    decodeTableWord 16 0x00B = some (.rdStatus 0x0B) ∧ decodeTableWord 16 0x00F = some (.rdEncOut 0x0F) ∧
    decodeTableWord 16 0x013 = some (.rdDecOut 0x13) ∧ decodeTableWord 16 0x017 = some (.rdEncNsym 0x17) ∧
    decodeTableWord 16 0x01B = some (.rdEncNbits 0x1B) ∧ decodeTableWord 16 0x01F = some (.rdEncErrsym 0x1F) ∧
    decodeTableWord 16 0x023 = some (.rdDecNsym 0x23) ∧ decodeTableWord 16 0x027 = some (.rdDecNbits 0x27) ∧
    decodeTableWord 16 0x02B = some (.rdDegCount 0x2B) ∧ decodeTableWord 16 0x02F = some (.rdEncOlevel 0x2F) ∧
    decodeTableWord 16 0x033 = some (.rdDecOlevel 0x33) ∧ decodeTableWord 16 0x037 = some (.rdEncCap 0x37) ∧
    decodeTableWord 16 0x03B = some (.rdDecCap 0x3B) ∧ decodeTableWord 16 0x03F = some (.rdRsvd3C 0x3F) ∧
    decodeTableWord 16 0x07F = some (.rdRsvd40 0x7F) ∧ decodeTableWord 16 0x0FF = some (.rdRsvd80 0xFF) := by decide

/-- Access descriptors: writes, each at the last offset its row covers. -/
theorem test_decode_writes :
    decodeTableWord 16 0x107 = some (.wrCmd 0x07 0) ∧ decodeTableWord 16 0x12B = some (.wrDegCount 0x2B 0) ∧
    decodeTableWord 16 0x103 = some (.wrIgnored00 0x03 0) ∧ decodeTableWord 16 0x10F = some (.wrIgnored08 0x0F 0) ∧
    decodeTableWord 16 0x11F = some (.wrIgnored10 0x1F 0) ∧ decodeTableWord 16 0x127 = some (.wrIgnored20 0x27 0) ∧
    decodeTableWord 16 0x12F = some (.wrIgnored2C 0x2F 0) ∧ decodeTableWord 16 0x13F = some (.wrIgnored30 0x3F 0) ∧
    decodeTableWord 16 0x17F = some (.wrIgnored40 0x7F 0) ∧ decodeTableWord 16 0x1FF = some (.wrIgnored80 0xFF 0) := by
  decide

/-- R95: an opcode outside the map, and one reserved bit of each format, are illegal. -/
theorem test_decode_illegal_words :
    [0x03000000, 0x12000000, 0x1B000000, 0x44000000, 0x53000000, 0xFF000000, 0x20800000, 0x10004000, 0x10000100,
      0x11000400, 0x11000100, 0x18000200, 0x19008000, 0x1A010000, 0x1A000200, 0x41000100, 0x41800000, 0x51000200,
      0x51800000].all (fun w => (decodeTableWord 32 w).isNone) = true := by decide

/-- A command reaches CMD as a write at offset 0x04 (R98). -/
theorem test_command_is_a_write_of_cmd :
    (State.reset.withFetchWord 32 0x20000000).inputs = [.access (.write 0x04 0x20000000)] ∧
    (State.reset.withFetchWord 16 0x10B).inputs = [.access (.write 0x0B 0)] := by decide

/-! ## Single steps, with the results the spec's examples give -/

/-- `40_system_commands.md` R114: LOCK after reset makes STATUS read 1. -/
theorem test_lock_status :
    (nextOf (step (State.reset.withFetchWord 32 0x20000000))).map statusWord = some 0x00000001 := by decide

/-- `40_system_commands.md` R115: UNLOCK while the encoder is ACTIVE records BUSY. -/
theorem test_unlock_busy : (nextOf (execUnlock encA)).map (fun s => (s.cmdErr, s.locked)) = some (.busy, true) := by
  decide

/-- `42_table_load.md` R141: `CW_DEF 'A', 1, 2` clears the bits. -/
theorem test_cw_def :
    (nextOf (execCwDef 0x41 true 2 { codeA with locked := false })).map (fun s => cwEntry s 0x41) =
      some { v := true, len := 2, bits := 0 } := by decide

/-- `42_table_load.md` R142: `CW_BITS 'B', 0, 0xC0` gives bits 1,1,0,0,0,0,0,0; IDX 31 reaches bit 255. -/
theorem test_cw_bits :
    (nextOf (execCwBits 0x42 0 0xC0 State.reset)).map (fun s => (cwEntry s 0x42).bits) = some 3 ∧
    (nextOf (execCwBits 0x42 31 0x01 State.reset)).map (fun s => (cwEntry s 0x42).bits.getLsbD 255) = some true := by
  decide

/-- `42_table_load.md` R143, R144: `NODE_L 0, L:'C'` and `NODE_R 0, N:1`. -/
theorem test_nodes :
    (nextOf (execNodeL 0 true 0x43 State.reset)).map (fun s => ntEntry s 0) =
      some { lv := true, l := 0x143, rv := false, r := 0 } ∧
    (nextOf (execNodeR 0 false 1 State.reset)).map (fun s => ntEntry s 0) =
      some { lv := false, l := 0, rv := true, r := 0x001 } := by decide

/-- `42_table_load.md` R145: `TREE_ROOT L:'X'` makes ROOT_V and ROOT_LEAF 1. -/
theorem test_tree_root : (nextOf (execTreeRoot true 0x58 State.reset)).map statusWord = some 0x00300000 := by decide

/-- `43_encoder.md` R153: 'B' after 'A' and six more held bits completes one byte, `10101111`, and holds one bit. -/
theorem test_enc_sym_packs :
    (nextOf (execEncSym 0x42 { encA with encAcc := [true, false, true, false, true, true, true] })).map
      (fun s => (s.encPend, s.encAcc, s.encNsym, s.encNbits)) = some ([0xAF], [true], 2, 4) := by decide

/-- `43_encoder.md` R153: a symbol without a codeword records UNKNOWN_SYMBOL and the symbol. -/
theorem test_enc_sym_unknown :
    (nextOf (execEncSym 0x5A encA)).map (fun s => (s.encSt, s.encErr, s.encErrsym)) =
      some (.error, .unknownSymbol, 0x5A) := by decide

/-- `43_encoder.md` R156: ENC_START, ENC_SYM 'A', ENC_END commits 0xA0 with LAST. -/
theorem test_enc_end : (nextOf (execEncEnd encA)).map (fun s => (s.encQ, s.encSt)) = some ([(0xA0, true)], .idle) := by
  decide

/-- `44_decoder.md` R174: `DEC_BYTE 0xA0, LAST` commits 'A'. -/
theorem test_dec_byte_last :
    (nextOf (execDecByte true 0xA0 decA)).map (fun s => (s.decQ, s.decNsym, s.decNbits)) =
      some ([(0x41, true)], 1, 2) := by decide

/-- `44_decoder.md` R175, R176: 0x00 as the final byte is MALFORMED_PADDING, and a codeword cut short TRUNCATED_CODE. -/
theorem test_dec_byte_errors :
    (nextOf (execDecByte true 0x00 decA)).map (fun s => s.decErr) = some .malformedPadding ∧
    (nextOf (execDecByte true 0xC0 decA)).map (fun s => s.decErr) = some .truncatedCode := by decide

/-- `44_decoder.md` R178: 0x80 under a degenerate tree commits DEG_COUNT copies; another byte is EXCESS_BITS. -/
theorem test_dec_degenerate :
    (nextOf (execDecByte true 0x80 decX)).map (fun s => s.decQ) = some [(0x58, false), (0x58, true)] ∧
    (nextOf (execDecByte true 0xC0 decX)).map (fun s => s.decErr) = some .excessBits := by decide

/-- `10_state.md` R30: a pop answers BYTE, VALID and LAST. -/
theorem test_enc_out_pop :
    (nextOf (execRdEncOut 0x0C { codeA with encQ := [(0xA0, true)] })).map (fun s => (s.rdata, s.encQ)) =
      some (some 0x3A0, []) := by decide

/-- `45_register_access.md` R196, R211: ID, and an illegal word written to CMD. -/
theorem test_id_and_illegal_word :
    (nextOf (execRdId 0x00 State.reset)).map (fun s => s.rdata) = some (some 0x48554631) ∧
    (nextOf (execWrCmd 0x04 0xFF000000 State.reset)).map statusWord = some 0x00010000 := by decide

/-! ## Witnesses: the hypotheses of each statement are met together, at the boundaries of its clauses -/

/-- The invariant of `codeA`. -/
theorem inv_codeA : MachineInv codeA := by
  unfold MachineInv TablesInv EncoderInv DecoderInv LockInv ErrorInv CountersInv; decide

/-- The invariant of `encA`. -/
theorem inv_encA : MachineInv encA := by
  unfold MachineInv TablesInv EncoderInv DecoderInv LockInv ErrorInv CountersInv; decide

/-- The invariant of `decA`. -/
theorem inv_decA : MachineInv decA := by
  unfold MachineInv TablesInv EncoderInv DecoderInv LockInv ErrorInv CountersInv; decide

/-- The invariant of `codeX`. -/
theorem inv_codeX : MachineInv codeX := by
  unfold MachineInv TablesInv EncoderInv DecoderInv LockInv ErrorInv CountersInv; decide

/-- The invariant of `decX`. -/
theorem inv_decX : MachineInv decX := by
  unfold MachineInv TablesInv EncoderInv DecoderInv LockInv ErrorInv CountersInv; decide

/-- The Scenario A load meets the two conditions of `41_host_reference_compile.md` R132. -/
theorem codewords_codeA : CodewordsMatchTree (withDepths 1 3 codeA) := by
  constructor
  · show ∀ sym, (cwEntry _ sym).v = true → walkRoot _ (codeword (cwEntry _ sym)) = some sym
    decide +kernel
  · intro bits sym h
    match bits, h with
    | [], h => cases h
    | [false], h => cases h; rfl
    | false :: _ :: _, h => cases h
    | [true], h => cases h
    | [true, false], h => cases h; rfl
    | true :: false :: _ :: _, h => cases h
    | [true, true], h => cases h; rfl
    | true :: true :: _ :: _, h => cases h

/-- The degenerate load meets the two conditions. -/
theorem codewords_codeX : CodewordsMatchTree (withDepths 1 2 codeX) := by
  constructor
  · show ∀ sym, (cwEntry _ sym).v = true → walkRoot _ (codeword (cwEntry _ sym)) = some sym
    decide +kernel
  · intro bits sym h
    match bits, h with
    | [], h => cases h; rfl
    | _ :: _, h => cases h

/-- The Scenario A load is consistent: its tree is full (`44_decoder.md` R182). -/
theorem consistent_codeA : Consistent (withDepths 1 3 codeA) :=
  ⟨codewords_codeA, rfl, .node (.leaf 0x43 0) (.node (.leaf 0x41 0) (.leaf 0x42 0) 0 0) 0 0,
    rfl, ⟨_, rfl, rfl, rfl⟩, _, rfl, rfl, ⟨_, rfl, rfl, rfl⟩, _, rfl, rfl, rfl⟩

/-- The degenerate load is consistent. -/
theorem consistent_codeX : Consistent (withDepths 1 2 codeX) := ⟨codewords_codeX, rfl, .leaf 0x58 0, rfl, rfl⟩

/-- A node with one child undefined is no full tree, although R132's two conditions hold: A alone, at "0". -/
theorem test_half_defined_node_is_not_full :
    ¬ FullTree { State.reset with nt := [(0, { lv := true, l := 0x141, rv := false, r := 0 })],
                                  root := { v := true, leaf := false, val := 0 } } := by
  rintro ⟨-, tree, h⟩
  cases tree with
  | leaf => cases h.1
  | node => obtain ⟨-, -, r, hr, -⟩ := h; cases hr

/-- NopClrErrLockResults: the lowest and the highest operand bit. -/
theorem witness_nop_clr_err_lock :
    (0x00000001 : Word).extractLsb' 24 8 = 0 ∧ (0x00000001 : Word) ≠ 0 ∧
    (0x00800000 : Word).extractLsb' 24 8 = 0 ∧ (0x00800000 : Word) ≠ 0 := by decide

/-- UnlockResult: no unit ACTIVE, one unit ACTIVE, a unit in ERROR. -/
theorem witness_unlock :
    (codeA.encSt ≠ .active ∧ codeA.decSt ≠ .active) ∧ encA.encSt = .active ∧ decA.decSt = .active ∧
    (encFail .sequence encA).encSt ≠ .active := by decide

/-- ResetEdgeGivesResetValues: a reset edge in the middle of a message, with an access behind it. -/
theorem witness_reset_edge :
    { encA with inputs := [.resetEdge, .access (.read 0x08)] }.inputs = .resetEdge :: [.access (.read 0x08)] ∧
    [PortEvent.access (.read 0x08)] = .access (.read 0x08) :: [] := by decide

/-- BytePackingIsMostSignificantBitFirst: eight bits, the first and the last of them. -/
theorem witness_byte_packing :
    [true, false, false, false, false, false, false, true].length = 8 ∧ (0 : Nat) < 8 ∧ (7 : Nat) < 8 := by decide

/-- TableCommandsRefusedWhileLocked. -/
theorem witness_table_commands_refused : codeA.locked = true := by decide

/-- CwDefResult, CwBitsResult, NodeCommandResults: unlocked and locked states; another entry; the first and last chunk bit,
a bit of the neighbouring chunks. -/
theorem witness_table_load :
    (TablesInv { codeA with locked := false } ∧ { codeA with locked := false }.locked = false) ∧ codeA.locked = true ∧
    (0x42 : Byte) ≠ 0x41 ∧ (0 : Nat) < 8 ∧ (7 : Nat) < 8 ∧
    (247 < 256 ∧ 247 / 8 ≠ (31 : BitVec 5).toNat) ∧ (8 < 256 ∧ 8 / 8 ≠ (0 : BitVec 5).toNat) :=
  ⟨⟨inv_codeA.2.1, rfl⟩, by decide⟩

/-- TreeRootResult: an unlocked and a locked state. -/
theorem witness_tree_root : State.reset.locked = false ∧ codeA.locked = true := by decide

/-- EncStartResult: a state for each clause. -/
theorem witness_enc_start :
    (encFail .sequence encA).encSt = .error ∧ (State.reset.encSt ≠ .error ∧ State.reset.locked = false) ∧
    (encA.encSt = .active ∧ encA.locked = true) ∧ codeA.encSt = .idle ∧ codeA.locked = true := by decide

/-- EncSymResult: a state for each clause; with six held bits 'B' completes one byte, one more than no room and exactly a
room of one. -/
theorem witness_enc_sym :
    (encFail .sequence encA).encSt = .error ∧ codeA.encSt = .idle ∧
    (encA.encSt = .active ∧ (cwEntry encA 0x5A).v = false) ∧
    (let s := withDepths 1 1 { encA with encAcc := [true, false, true, false, true, false], encQ := [(0, true)] };
      s.encSt = .active ∧ (cwEntry s 0x42).v = true ∧
      s.encQ.length + s.encPend.length + (s.encAcc.length + (cwEntry s 0x42).len.toNat) / 8 > s.cfg.encDepth) ∧
    (let s := withDepths 1 1 { encA with encAcc := [true, false, true, false, true, false] };
      s.encSt = .active ∧ (cwEntry s 0x42).v = true ∧
      s.encQ.length + s.encPend.length + (s.encAcc.length + (cwEntry s 0x42).len.toNat) / 8 ≤ s.cfg.encDepth) := by decide

/-- BytesPushedPerCommand: an accepted symbol and a committed message. -/
theorem witness_bytes_pushed :
    (EncoderInv encA ∧ encA.encSt = .active ∧ ∃ t, exec (.encSym 0x42) encA = .next t ∧ t.encSt = .active) ∧
    ∃ t, exec .encEnd encA = .next t ∧ t.encSt = .idle :=
  ⟨⟨inv_encA.2.2.1, rfl, _, rfl, rfl⟩, _, rfl, rfl⟩

/-- EncEndResult: a state for each clause; a full queue and exactly room for the final byte, with seven and no held bits. -/
theorem witness_enc_end :
    (encFail .sequence encA).encSt = .error ∧ codeA.encSt = .idle ∧
    (let s := withDepths 1 1 { encA with encQ := [(0, true)] };
      s.encSt = .active ∧ s.encQ.length + s.encPend.length + 1 > s.cfg.encDepth) ∧
    (let s := withDepths 1 1 { encA with encAcc := [true, true, true, true, true, true, true] };
      s.encSt = .active ∧ s.encQ.length + s.encPend.length + 1 ≤ s.cfg.encDepth ∧ s.encAcc.length < 8) ∧
    (let s := withDepths 1 1 { encA with encAcc := [] };
      s.encSt = .active ∧ s.encQ.length + s.encPend.length + 1 ≤ s.cfg.encDepth ∧ s.encAcc.length < 8) := by decide

/-- BytesPushedPerCommand, the clause on the counter. -/
theorem witness_held_bits : MachineInv encA ∧ encA.encSt = .active := ⟨inv_encA, rfl⟩

/-- UnitsInErrorIgnoreTheirCommands: each unit in ERROR and a command of its own. -/
theorem witness_units_in_error :
    ((encFail .sequence encA).encSt = .error ∧ EncoderCommand (.encSym 0x41) ∧ Instr.encSym 0x41 ≠ .encAbort) ∧
    (decFail .sequence decA).decSt = .error ∧ DecoderCommand (.decByte true 0) ∧ Instr.decByte true 0 ≠ .decAbort :=
  ⟨⟨rfl, .inr (.inl ⟨_, rfl⟩), by decide⟩, rfl, .inr (.inl ⟨_, _, rfl⟩), by decide⟩

/-- CommittedMessageBytes: "CAAB" (seven bits) and the empty message, each with room for exactly its bytes. -/
theorem witness_committed_message :
    (let s := withDepths 1 1 codeA;
      let syms : List Byte := [0x43, 0x41, 0x41, 0x42];
      s.encSt = .idle ∧ s.locked = true ∧ (∀ x ∈ syms, (cwEntry s x).v = true) ∧
      s.encQ.length + ((syms.flatMap (fun x => codeword (cwEntry s x))).length / 8 + 1) ≤ s.cfg.encDepth) ∧
    (let s := withDepths 1 1 codeA;
      let syms : List Byte := [];
      s.encSt = .idle ∧ s.locked = true ∧ (∀ x ∈ syms, (cwEntry s x).v = true) ∧
      s.encQ.length + ((syms.flatMap (fun x => codeword (cwEntry s x))).length / 8 + 1) ≤ s.cfg.encDepth) := by decide

/-- DecStartResult: a state for each clause. -/
theorem witness_dec_start :
    (decFail .sequence decA).decSt = .error ∧ (State.reset.decSt ≠ .error ∧ State.reset.locked = false) ∧
    (decA.decSt = .active ∧ decA.locked = true) ∧
    (let s := { State.reset with locked := true };
      s.decSt = .idle ∧ s.locked = true ∧ s.root.v = false) ∧
    codeA.decSt = .idle ∧ codeA.locked = true ∧ codeA.root.v = true := by decide

/-- FeedResult: a degenerate root; an undefined child; a Leaf without room and with exactly room; an Internal node. -/
theorem witness_feed :
    decX.root.leaf = true ∧
    ((ntEntry { decA with decPos := 9 } 9).lv = false ∧ decA.root.leaf = false) ∧
    (let s := withDepths 1 1 { decA with decQ := [(0, true)] };
      (ntEntry s s.decPos).lv = true ∧ (ntEntry s s.decPos).l.getLsbD 8 = true ∧
      s.decQ.length + s.decPend.length + 1 > s.cfg.decDepth) ∧
    (let s := withDepths 1 1 decA;
      (ntEntry s s.decPos).lv = true ∧ (ntEntry s s.decPos).l.getLsbD 8 = true ∧
      s.decQ.length + s.decPend.length + 1 ≤ s.cfg.decDepth) ∧
    (ntEntry decA decA.decPos).rv = true ∧ (ntEntry decA decA.decPos).r.getLsbD 8 = false := by decide

/-- FeedResult, the run of FEEDs: a first bit that succeeds and one that fails. -/
theorem witness_feed_bits : (∃ t, feed true decA = .ok t) ∧ ∃ t, feed true decX = .error t := ⟨⟨_, rfl⟩, _, rfl⟩

/-- DecByteResult: the states of the first clauses; bytes whose bits feed and fail; the lowest set bit at 0 and at 7. -/
theorem witness_dec_byte :
    (decFail .sequence decA).decSt = .error ∧ codeA.decSt = .idle ∧ decA.decSt = .active ∧
    (∃ t, feedBits [true, true, false, true, false, true, false, true] decA = .ok t) ∧
    (∃ t, feedBits [true, false, false, false, false, false, false, false] decX = .error t) ∧
    ((0x80 : Byte).getLsbD 7 = true ∧ (∀ j, j < 7 → (0x80 : Byte).getLsbD j = false) ∧
      ∃ t, feedBits ((List.range (7 - 7)).map (fun j => (0x80 : Byte).getLsbD (7 - j))) decX = .ok t) ∧
    ((0x01 : Byte).getLsbD 0 = true ∧
      ∃ t, feedBits ((List.range (7 - 0)).map (fun j => (0x01 : Byte).getLsbD (7 - j))) decX = .error t) :=
  ⟨rfl, rfl, rfl, ⟨_, rfl⟩, ⟨_, rfl⟩, ⟨rfl, by decide, _, rfl⟩, rfl, _, rfl⟩

/-- DecByteResult, the end of a message: too many copies and exactly room for them; not at the root and at the root. -/
theorem witness_dec_byte_end :
    (decX.root.leaf = true ∧ (withDepths 1 1 decX).decQ.length + decX.degCount.toNat > (withDepths 1 1 decX).cfg.decDepth) ∧
    (withDepths 1 2 decX).decQ.length + decX.degCount.toNat ≤ (withDepths 1 2 decX).cfg.decDepth ∧
    (∃ t, feedBits [true] decA = .ok t ∧ decA.root.leaf = false ∧ t.decPos ≠ decA.root.val) ∧
    ∃ t, feedBits [true, false] decA = .ok t ∧ t.decPos = decA.root.val :=
  ⟨by decide, by decide, ⟨_, rfl, rfl, by decide⟩, _, rfl, rfl⟩

/-- DegenerateMessageResult: bytes that are neither 0 nor 0x80; copies that do not fit, that just fit, and none at all. -/
theorem witness_degenerate_message :
    (decX.decSt = .active ∧ decX.root.leaf = true) ∧ ((0x81 : Byte) ≠ 0 ∧ (0x81 : Byte) ≠ 0x80) ∧
    (withDepths 1 1 decX).decQ.length + decX.degCount.toNat > (withDepths 1 1 decX).cfg.decDepth ∧
    (withDepths 1 2 decX).decQ.length + decX.degCount.toNat ≤ (withDepths 1 2 decX).cfg.decDepth ∧
    { decX with degCount := 0 }.degCount.toNat = 0 := by decide

/-- PaddingRemovalIsTheSourcesStep1: eight bits and one bit of padding; a zero final byte after a byte that holds a 1. -/
theorem witness_padding_removal :
    (0x80 : Byte) ≠ 0 ∧ (0x01 : Byte) ≠ 0 ∧ (stripPadding (([0x01, 0x00] : List Byte).flatMap byteBits)).isSome = true := by
  decide

/-- MessageDecodesAsOnePayload: a message whose FEEDs succeed and one whose FEEDs fail. -/
theorem witness_message_payload :
    (codeA.decSt = .idle ∧ codeA.locked = true ∧ codeA.root.v = true ∧ (0xA0 : Byte) ≠ 0) ∧
    (∃ t, feedBits (([0x55] : List Byte).flatMap byteBits ++ finalPayload 0xA0) decA = .ok t) ∧
    ∃ t, feedBits (([0x55] : List Byte).flatMap byteBits ++ finalPayload 0xA0) decX = .error t :=
  ⟨by decide, ⟨_, rfl⟩, _, rfl⟩

/-- ConstantStatusAndCapacityReads, CounterAndLevelReads, OutputReadsPop, DegCountAndIgnoredWrites, CmdWriteExecutesItsWord,
StatusFields: the first and the last offset of rows of each mask. -/
theorem witness_offsets :
    (0x00 : Byte) &&& 0xFC = 0x00 ∧ (0x3F : Byte) &&& 0xFC = 0x3C ∧ (0x40 : Byte) &&& 0xC0 = 0x40 ∧
    (0x7F : Byte) &&& 0xC0 = 0x40 ∧ (0x80 : Byte) &&& 0x80 = 0x80 ∧ (0xFF : Byte) &&& 0x80 = 0x80 ∧
    (0x14 : Byte) &&& 0xFC = 0x14 ∧ (0x33 : Byte) &&& 0xFC = 0x30 ∧ (0x0F : Byte) &&& 0xFC = 0x0C ∧
    (0x10 : Byte) &&& 0xFC = 0x10 ∧ (0x2B : Byte) &&& 0xFC = 0x28 ∧ (0x07 : Byte) &&& 0xFC = 0x04 ∧
    (0x0B : Byte) &&& 0xFC = 0x08 ∧ ((0x08 : Byte) &&& 0xFC ≠ 0x04 ∧ (0x08 : Byte) &&& 0xFC ≠ 0x28) := by decide

/-- StatusFields: each error field set, and cleared by its own command. -/
theorem witness_error_clears :
    (∃ t, exec .clrErr { codeA with cmdErr := .busy } = .next t ∧ t.cmdErr = .none) ∧
    (∃ t, exec .encAbort (encFail .overflow encA) = .next t ∧ (encFail .overflow encA).encErr ≠ .none ∧ t.encErr = .none) ∧
    ∃ t, exec .decAbort (decFail .overflow decA) = .next t ∧ (decFail .overflow decA).decErr ≠ .none ∧ t.decErr = .none :=
  ⟨⟨_, rfl, rfl⟩, ⟨_, rfl, by decide, rfl⟩, _, rfl, by decide, rfl⟩

/-- CounterAndLevelReads: a state with the invariant. -/
theorem witness_counter_reads : MachineInv { codeA with encQ := [(0xA0, true)] } := by
  unfold MachineInv TablesInv EncoderInv DecoderInv LockInv ErrorInv CountersInv; decide

/-- OutputReadsPop: empty queues and queues with an entry. -/
theorem witness_output_reads :
    codeA.encQ = [] ∧ codeA.decQ = [] ∧ { codeA with encQ := [(0xA0, true)] }.encQ = (0xA0, true) :: [] ∧
    { codeA with decQ := [(0x41, false), (0x42, true)] }.decQ = (0x41, false) :: [(0x42, true)] := by decide

/-- CmdWriteExecutesItsWord, IllegalWordsOnlyRecordIllegalCmd: a legal word, an illegal one by opcode and one by a reserved
bit. -/
theorem witness_cmd_write :
    decodeCommand 0x10418002 = .ok (.cwDef 0x41 true 2) ∧ decodeCommand 0xFF000000 = .error .undefinedOpcode ∧
    decodeCommand 0x10414002 = .error .reservedBits ∧ ∀ c, decodeCommand 0xFF000000 ≠ .ok c :=
  ⟨rfl, rfl, rfl, fun _ h => nomatch (show Except.error Reject.undefinedOpcode = _ from h)⟩

/-- DecodeOfEncode: a command, and accesses at the first and last offset of a row. -/
theorem witness_decode_of_encode :
    (Instr.cwBits 0xFF 31 0xFF).wellFormed = true ∧ (Instr.rdRsvd80 0x80).wellFormed = true ∧
    (Instr.wrIgnored80 0xFF 0xFFFFFFFF).wellFormed = true := by decide

/-- EncodeOfDecode: a command word and an access that decode. -/
theorem witness_encode_of_decode :
    decode (.command 0x510001A0) = .ok (.decByte true 0xA0) ∧ decode (.access (.write 0x2B 7)) = .ok (.wrDegCount 0x2B 7) :=
  ⟨rfl, rfl⟩

/-- LowAddressBitsIgnored: two offsets of one register. -/
theorem witness_low_address_bits : (0x0C : Byte).extractLsb' 2 6 = (0x0F : Byte).extractLsb' 2 6 := by decide

/-- StepRunsPresentedInstruction: a command and an access presented. -/
theorem witness_step_runs :
    (Instr.encStart.wellFormed = true ∧
      { codeA with inputs := [.access (.write 0x04 0x40000000)] }.inputs = .access (encode .encStart).toAccess :: []) ∧
    (Instr.rdEncOut 0x0F).wellFormed = true ∧
    { codeA with inputs := [.access (.read 0x0F)] }.inputs = .access (encode (.rdEncOut 0x0F)).toAccess :: [] := by decide

/-- IdleStepChangesNoState. -/
theorem witness_idle_step : encA.inputs = [] := by decide

/-- FirstCommandErrorKept: an error recorded, and one cleared by CLR_ERR and by RESET. -/
theorem witness_first_command_error :
    (∃ t, exec (.encSym 0x41) codeA = .next t) ∧
    (∃ t, exec (.cwDef 0 false 0) codeA = .next t ∧ codeA.cmdErr = .none ∧ t.cmdErr ≠ .none) ∧
    ∃ t, exec .clrErr { codeA with cmdErr := .busy } = .next t ∧ t.cmdErr ≠ .busy :=
  ⟨⟨_, rfl⟩, ⟨_, rfl, rfl, by decide⟩, _, rfl, by decide⟩

/-- UnitErrorEntry, the encoder: UNKNOWN_SYMBOL and another code. -/
theorem witness_unit_error_entry :
    (∃ t, exec (.encSym 0x5A) encA = .next t ∧ encA.encSt ≠ .error ∧ t.encSt = .error) ∧
    ∃ t, exec .encEnd codeA = .next t ∧ codeA.encSt ≠ .error ∧ t.encSt = .error ∧ t.encErr ≠ .unknownSymbol :=
  ⟨⟨_, rfl, by decide, by decide⟩, _, rfl, by decide, by decide, by decide⟩

/-- UnitErrorEntry, the decoder before any FEED: DEC_START fails, DEC_BYTE in IDLE, a zero final byte. -/
theorem witness_dec_error_before_feed :
    (∃ t, exec .decStart decA = .next t ∧ decA.decSt ≠ .error ∧ t.decSt = .error) ∧
    (∃ t, exec (.decByte false 0x55) codeA = .next t ∧ codeA.decSt ≠ .error ∧ t.decSt = .error) ∧
    ∃ t, exec (.decByte true 0) decA = .next t ∧ decA.decSt ≠ .error ∧ t.decSt = .error :=
  ⟨⟨_, rfl, by decide, by decide⟩, ⟨_, rfl, by decide, by decide⟩, _, rfl, by decide, by decide⟩

/-- UnitErrorEntry, the decoder after FEEDs: in a queue of one, the bits `0, 0` of 0x3F give 'C', which is pending, and then
OVERFLOW at the second bit, so one bit stays counted; a codeword cut short; copies of a degenerate message that do not fit. -/
theorem witness_dec_error_in_feed :
    (∃ t, exec (.decByte false 0x3F) (withDepths 1 1 decA) = .next t ∧ t.decSt = .error ∧ t.decErr = .overflow ∧
      t.decNbits = 1 ∧ t.decNsym = 1 ∧ t.decPend = []) ∧
    (∃ t, exec (.decByte true 0xC0) decA = .next t ∧ t.decSt = .error ∧ t.decErr = .truncatedCode ∧ t.decNbits = 1) ∧
    ∃ t, exec (.decByte true 0x80) (withDepths 1 1 decX) = .next t ∧ t.decSt = .error ∧ t.decErr = .overflow :=
  ⟨⟨_, rfl, by decide, by decide, by decide, by decide, by decide⟩, ⟨_, rfl, by decide, by decide, by decide⟩,
    _, rfl, by decide, by decide⟩

/-- A register read performs only itself. -/
theorem performs_rdId {a : Byte} {c : Instr} (h : Performs (.rdId a) c) : c = .rdId a := by
  rcases h with h | ⟨_, _, h, -⟩
  · exact h.symm
  · cases h

/-- UnitErrorsAreSticky: each unit in ERROR and an instruction that is no ABORT and no reset. -/
theorem witness_unit_errors_sticky :
    (∃ t, exec (.rdId 0) (encFail .overflow encA) = .next t) ∧ (encFail .overflow encA).encSt = .error ∧
    (decFail .overflow decA).decSt = .error ∧ ¬ Performs (.rdId 0) .encAbort ∧ ¬ Performs (.rdId 0) .decAbort ∧
    ¬ Performs (.rdId 0) .reset :=
  ⟨⟨_, rfl⟩, rfl, rfl, fun h => (nomatch performs_rdId h), fun h => (nomatch performs_rdId h),
    fun h => (nomatch performs_rdId h)⟩

/-- StatusFieldWriters: each field changed by a command. -/
theorem witness_status_field_writers :
    (∃ t, exec .lock State.reset = .next t ∧ t.locked ≠ State.reset.locked) ∧
    (∃ t, exec .encStart codeA = .next t ∧ t.encSt ≠ codeA.encSt) ∧
    (∃ t, exec .decStart codeA = .next t ∧ t.decSt ≠ codeA.decSt) ∧
    (∃ t, exec .unlock encA = .next t ∧ t.cmdErr ≠ encA.cmdErr) ∧
    ∃ t, exec (.treeRoot false 0) State.reset = .next t ∧ t.root ≠ State.reset.root :=
  ⟨⟨_, rfl, by decide⟩, ⟨_, rfl, by decide⟩, ⟨_, rfl, by decide⟩, ⟨_, rfl, by decide⟩, _, rfl, by decide⟩

/-- StatusFieldWriters, CMD_ERR: each code raised, and one cleared. -/
theorem witness_command_error_raisers :
    (∃ t, exec (.treeRoot false 0) codeA = .next t ∧ t.cmdErr = .tableLocked ∧ codeA.locked = true ∧
      TableLoadCommand (.treeRoot false 0)) ∧
    (∃ t, exec .unlock decA = .next t ∧ t.cmdErr = .busy ∧ decA.decSt = .active) ∧
    (∃ t, exec (.wrCmd 0x04 0xFF000000) codeA = .next t ∧ t.cmdErr = .illegalCmd) ∧
    ∃ t, exec .clrErr { codeA with cmdErr := .busy } = .next t ∧ t.cmdErr ≠ .busy :=
  ⟨⟨_, rfl, by decide, rfl, .inr (.inr (.inr (.inr ⟨_, _, rfl⟩)))⟩, ⟨_, rfl, by decide, rfl⟩, ⟨_, rfl, by decide⟩,
    _, rfl, by decide⟩

/-- CounterWriters, the decoder: DEC_START, a byte, a failing byte, a degenerate commit and a reset change them. -/
theorem witness_decoder_counter_writers :
    (let s := { codeA with decNsym := 5, decNbits := 9 };
      ∃ t, exec .decStart s = .next t ∧ t.decNsym ≠ s.decNsym ∧ t.decNbits ≠ s.decNbits) ∧
    (∃ t, exec (.decByte false 0x3F) decA = .next t ∧ t.decNsym ≠ decA.decNsym ∧ t.decNbits = 8) ∧
    (∃ t, exec (.decByte false 0x3F) (withDepths 1 1 decA) = .next t ∧ t.decSt = .error ∧ t.decNbits ≠ decA.decNbits) ∧
    (∃ t, exec (.decByte true 0x80) decX = .next t ∧ t.decNsym ≠ decX.decNsym ∧ t.decNsym = decX.degCount) ∧
    ∃ t, exec .reset { codeA with decNbits := 9 } = .next t ∧ t.decNbits ≠ 9 :=
  ⟨⟨_, rfl, by decide, by decide⟩, ⟨_, rfl, by decide, by decide⟩, ⟨_, rfl, by decide, by decide⟩,
    ⟨_, rfl, by decide, by decide⟩, _, rfl, by decide⟩

/-- CounterWriters, the encoder and DEG_COUNT: each changed. -/
theorem witness_counter_writers :
    (∃ t, exec (.encSym 0x43) encA = .next t ∧ t.encNsym ≠ encA.encNsym ∧ t.encNbits ≠ encA.encNbits) ∧
    (∃ t, exec (.encSym 0x5A) encA = .next t ∧ t.encErrsym ≠ encA.encErrsym) ∧
    ∃ t, exec (.wrDegCount 0x28 0xFFFFFFFF) decX = .next t ∧ t.degCount ≠ decX.degCount :=
  ⟨⟨_, rfl, by decide, by decide⟩, ⟨_, rfl, by decide⟩, _, rfl, by decide⟩

/-- QueueWriters: a commit and a pop of each queue. -/
theorem witness_queue_writers :
    (∃ t, exec .encEnd encA = .next t ∧ t.encQ ≠ encA.encQ) ∧
    (∃ t, exec (.rdEncOut 0x0C) { codeA with encQ := [(1, true)] } = .next t ∧ t.encQ ≠ [(1, true)]) ∧
    (∃ t, exec (.decByte true 0xA0) decA = .next t ∧ t.decQ ≠ decA.decQ) ∧ MachineInv decA ∧
    ∃ t, exec (.rdDecOut 0x10) { codeA with decQ := [(1, true)] } = .next t ∧ t.decQ ≠ [(1, true)] :=
  ⟨⟨_, rfl, by decide⟩, ⟨_, rfl, by decide⟩, ⟨_, rfl, by decide⟩, inv_decA, _, rfl, by decide⟩

/-- CompiledCodeFixedWhileActive: an ACTIVE unit and an instruction that is no reset. -/
theorem witness_compiled_code_fixed :
    LockInv encA ∧ encA.encSt = .active ∧ decA.decSt = .active ∧ LockInv decA ∧ ¬ Performs (.rdId 0) .reset ∧
    ∃ t, exec (.rdId 0) encA = .next t :=
  ⟨inv_encA.2.2.2.2.1, rfl, rfl, inv_decA.2.2.2.2.1, fun h => (nomatch performs_rdId h), _, rfl⟩

/-- UnitsAreIndependent: two states that differ in the other unit and its tables. -/
theorem witness_units_independent :
    (let s' := { encA with decSt := .active, nt := [] };
      EncoderCommand .encEnd ∧ encoderView encA = encoderView s' ∧ encA.cwt = s'.cwt ∧ encA.locked = s'.locked ∧
        encA.cfg = s'.cfg) ∧
    (let s' := { decA with encSt := .active, cwt := [] };
      DecoderCommand .decStart ∧ decoderView decA = decoderView s' ∧ decA.nt = s'.nt ∧ decA.root = s'.root ∧
        decA.locked = s'.locked ∧ decA.cfg = s'.cfg) :=
  ⟨⟨.inr (.inr (.inl rfl)), rfl, rfl, rfl, rfl⟩, .inl rfl, rfl, rfl, rfl, rfl, rfl⟩

/-- UnspecifiedContentsUnobservable: two states with the invariant that differ in `dec_pos` and in a codeword bit beyond its
length. -/
theorem witness_unspecified_contents :
    let s' := { codeA with
      decPos := 7
      cwt := [(0x41, { v := true, len := 2, bits := 5 }), (0x42, { v := true, len := 2, bits := 3 }),
        (0x43, { v := true, len := 1, bits := 0 })] };
    MachineInv codeA ∧ MachineInv s' ∧ SameVisible codeA s' ∧ codeA ≠ s' := by
  refine ⟨inv_codeA, ?_, ⟨?_, fun _ => ⟨rfl, rfl, fun _ => rfl, fun _ => rfl⟩, ⟨rfl, fun _ => rfl⟩, by decide, rfl⟩,
    by decide⟩
  · unfold MachineInv TablesInv EncoderInv DecoderInv LockInv ErrorInv CountersInv; decide
  · intro sym
    by_cases h : sym = 0x41
    · subst h
      refine ⟨rfl, fun _ => ⟨rfl, fun i hi => ?_⟩⟩
      have hi : i < 2 := hi
      interval_cases i <;> rfl
    · have hn : ¬ 0x41 = sym.toNat := fun hh => h (BitVec.eq_of_toNat_eq hh.symm)
      simp [SameCodeword, cwEntry, codeA, tableGet, hn]

/-- EncoderInvariantKept and InvariantKept: a step from a state with the invariant, an access in it. -/
theorem witness_invariant_kept :
    MachineInv { encA with inputs := [.access (.write 0x04 0x42000000)] } ∧
    ∃ t, step { encA with inputs := [.access (.write 0x04 0x42000000)] } = .next t :=
  ⟨inv_encA, _, rfl⟩

/-- ResetStateHasInvariant: the smallest and the largest depths. -/
theorem witness_reset_invariant :
    ({ encDepth := 1, decDepth := 1 } : Config).Valid ∧ ({ encDepth := 2 ^ 24, decDepth := 2 ^ 24 } : Config).Valid := by
  decide

/-- TablesAreCanonical: a canonical table with its first and last index listed. -/
theorem witness_tables_canonical :
    tableWf (0 : Nat) [(0, 1), (255, 2)] = true ∧ (255 : Nat) < 256 ∧
    ∀ k, k < 256 → tableGet (0 : Nat) [(0, 1), (255, 2)] k = tableGet 0 [(0, 1), (255, 2)] k :=
  ⟨by decide, by decide, fun _ _ => rfl⟩

/-- EncodeThenDecodeIsIdentity: a message under a full tree and one under a degenerate tree, with exactly the room. -/
theorem witness_round_trip :
    (let s := withDepths 1 3 codeA;
      let syms : List Byte := [0x41, 0x42, 0x43];
      MachineInv s ∧ CodewordsMatchTree s ∧ s.locked = true ∧ s.root.v = true ∧ s.encSt = .idle ∧ s.decSt = .idle ∧
      (∀ x ∈ syms, (cwEntry s x).v = true) ∧
      s.encQ.length + ((syms.flatMap (fun x => codeword (cwEntry s x))).length / 8 + 1) ≤ s.cfg.encDepth ∧
      s.decQ.length + syms.length ≤ s.cfg.decDepth) ∧
    (let s := withDepths 1 2 codeX;
      let syms : List Byte := [0x58, 0x58];
      MachineInv s ∧ CodewordsMatchTree s ∧ s.locked = true ∧ s.root.v = true ∧ s.encSt = .idle ∧ s.decSt = .idle ∧
      (∀ x ∈ syms, (cwEntry s x).v = true) ∧
      s.encQ.length + ((syms.flatMap (fun x => codeword (cwEntry s x))).length / 8 + 1) ≤ s.cfg.encDepth ∧
      s.decQ.length + syms.length ≤ s.cfg.decDepth) := by
  refine ⟨⟨?_, codewords_codeA, ?_⟩, ⟨?_, codewords_codeX, ?_⟩⟩
  · unfold MachineInv TablesInv EncoderInv DecoderInv LockInv ErrorInv CountersInv; decide
  · decide
  · unfold MachineInv TablesInv EncoderInv DecoderInv LockInv ErrorInv CountersInv; decide
  · decide

/-- The counts of Scenario A (`41_host_reference_compile.md` R133). -/
def countsA : Counts := fun s => if s = 0x41 ∨ s = 0x42 ∨ s = 0x43 then 3 else 0

/-- The tree of Scenario A: C on the left, then A and B. -/
theorem test_build_scenario_A :
    (buildTree (fun s => (countsA s : Rat))).map (fun t => walkTree t []) =
      some [(0x43, [false]), (0x41, [true, false]), (0x42, [true, true])] := by decide +kernel

/-- NormalizeResult: counts that sum to 0 and counts that do not. -/
theorem witness_normalize : (allSymbols.map (fun _ => 0 : Counts)).sum = 0 ∧ (allSymbols.map countsA).sum ≠ 0 := by
  decide +kernel

/-- The tree of Scenario A, with the counts as weights. -/
def treeA : CodeTree := .node (.leaf 0x43 3) (.node (.leaf 0x41 3) (.leaf 0x42 3) 6 0x41) 9 0x41

/-- CountsAndWeightsBuildTheSameCode: a frequency table normalizes. -/
theorem witness_counts_and_weights : ∃ w, normalizeCounts countsA = .ok w := by
  have ht : ¬ totalCount countsA = 0 := by decide +kernel
  exact ⟨_, if_neg ht⟩

/-- DeriveCoversExactlyTheWeights: a tree is built. -/
theorem witness_derive : buildTree (fun s => (countsA s : Rat)) = some treeA := by decide +kernel

/-- CodewordsArePrefixFree: a built tree with an Internal node, and two codewords of it; and a tree of one Leaf. -/
theorem witness_prefix_free :
    internalCount treeA ≠ 0 ∧ codewordOf treeA 0x41 = some [true, false] ∧ codewordOf treeA 0x43 = some [false] ∧
    internalCount (.leaf 0xFF 1) = 0 ∧ codewordOf (.leaf 0xFF 1) 0xFF = some [] := by decide +kernel

/-- The weights of Scenario A are its counts over 9 (`41_host_reference_compile.md` R121, R133). -/
theorem test_normalize_scenario_A :
    normalizeCounts countsA = .ok (fun s => (countsA s : Rat) / ((9 : Nat) : Rat)) := by
  have ht : totalCount countsA = 9 := by decide +kernel
  unfold normalizeCounts
  rw [ht]
  rfl

/-- A tree is built from the weights of Scenario A. -/
theorem test_build_from_weights : (buildTree (fun s => (countsA s : Rat) / ((9 : Nat) : Rat))).isSome = true := by
  decide +kernel

/-- LoadIsConsistent: a frequency table compiles. -/
theorem witness_load_consistent : ∃ load, compileCounts countsA = .ok load := by
  cases h : buildTree (fun s => (countsA s : Rat) / ((9 : Nat) : Rat)) with
  | none =>
    have hb := test_build_from_weights
    rw [h] at hb
    cases hb
  | some t =>
    refine ⟨loadCode t, ?_⟩
    unfold compileCounts
    rw [test_normalize_scenario_A]
    show (match buildTree _ with | none => _ | some t => _) = _
    rw [h]

/-- LoadIsConsistent: the state after reset meets the hypotheses on the state. -/
theorem witness_load_consistent_state : TablesInv State.reset ∧ State.reset.locked = false := ⟨⟨rfl, rfl⟩, rfl⟩

/-- The load of Scenario A is consistent whatever the decoder does. -/
theorem consistent_decA (q : List (Byte × Bool)) (p : Byte) (d : Nat) :
    Consistent { withDepths 1 d decA with decQ := q, decPos := p } := by
  refine (consistent_congr (t := withDepths 1 3 codeA) ?_ ?_ ?_).mpr consistent_codeA <;> rfl

/-- ConsistentLoadNeverRaisesTableError: a FEED that fails at the second node of the tree; a message; an instruction in a
message, one that is no table-load command and no reset; and the degenerate tree. -/
theorem witness_no_table_error :
    (let s := { withDepths 1 1 decA with decQ := [(0, true)], decPos := 1 };
      Consistent s ∧ s.decSt = .active ∧ DecoderInTree s ∧ ∃ t, feedBits [false] s = .error t) ∧
    (let s := withDepths 1 3 codeA;
      Consistent s ∧ s.locked = true ∧ s.decSt = .idle ∧ s.decErr = .none ∧ ∃ t, runInstrs (decMsg [0x55]) s = .next t) ∧
    (let s := { withDepths 1 3 decA with decQ := [], decPos := 1 };
      LockInv s ∧ Consistent s ∧ DecoderInTree s ∧ (∃ t, exec (.decByte false 0x55) s = .next t) ∧
        s.decErr ≠ .tableError ∧ (∀ c, TableLoadCommand c → ¬ Performs (.rdId 0) c) ∧ ¬ Performs (.rdId 0) .reset) ∧
    (Consistent (withDepths 1 2 codeX) ∧ DecoderInTree (withDepths 1 2 decX)) := by
  refine ⟨⟨consistent_decA _ _ _, rfl, fun _ _ => ?_, _, rfl⟩, ⟨consistent_codeA, rfl, rfl, rfl, _, rfl⟩,
    ⟨?_, consistent_decA _ _ _, fun _ _ => ?_, ⟨_, rfl⟩, by decide, ?_, fun h => (nomatch performs_rdId h)⟩,
    consistent_codeX, fun _ h => (nomatch h)⟩
  · exact ⟨.node (.leaf 0x41 0) (.leaf 0x42 0) 0 0, rfl, ⟨_, rfl, rfl, rfl⟩, _, rfl, rfl, rfl⟩
  · unfold LockInv; decide
  · exact ⟨.node (.leaf 0x41 0) (.leaf 0x42 0) 0 0, rfl, ⟨_, rfl, rfl, rfl⟩, _, rfl, rfl, rfl⟩
  · rintro c hc h
    rw [performs_rdId h] at hc
    rcases hc with ⟨_, _, _, h⟩ | ⟨_, _, _, h⟩ | ⟨_, _, _, h⟩ | ⟨_, _, _, h⟩ | ⟨_, _, h⟩ <;> cases h

/-- PopMinTakesTheLeast: two leaves of equal weight. -/
theorem witness_pop_min :
    popMin [.leaf 0x42 1, .leaf 0x41 1] = some (.leaf 0x41 1, [.leaf 0x42 1]) := by decide +kernel

/-- SingleSymbolGivesALeaf: one symbol of non-zero weight. -/
theorem witness_single_symbol :
    let w : Byte → Rat := fun y => if y = 0xFF then 1 else 0
    0 < w 0xFF ∧ ∀ y, y ≠ 0xFF → ¬ 0 < w y := by
  refine ⟨by decide +kernel, fun y hy => ?_⟩
  show ¬ (0 : Rat) < if y = 0xFF then 1 else 0
  rw [if_neg hy]
  decide

end Sys2Proof.Tests
end

section
/-! SUPPORT. Decoding undoes encoding (`30_encoding.md` R86 to R93): at most one row takes a word or a descriptor, so a row
that takes one is the row the decoder uses, and the row of a well-formed instruction builds it back. -/

namespace Sys2Proof.Laws.EncodesItsRow

/-- The encoding of every well-formed instruction is taken by the opcode table's row for it. -/
theorem encode_takes_row (i : Instr) : Statement i :=
  i.rec nop reset clrErr cwDef cwBits nodeL nodeR treeRoot lock unlock
    encStart encSym encEnd encAbort decStart decByte decAbort
    rdId rdCmd rdStatus rdEncOut rdDecOut rdEncNsym rdEncNbits rdEncErrsym rdDecNsym rdDecNbits
    rdDegCount rdEncOlevel rdDecOlevel rdEncCap rdDecCap rdRsvd3C rdRsvd40 rdRsvd80
    wrCmd wrDegCount wrIgnored00 wrIgnored08 wrIgnored10 wrIgnored20 wrIgnored2C wrIgnored30 wrIgnored40 wrIgnored80

end Sys2Proof.Laws.EncodesItsRow

namespace Sys2Proof.Machine

open Sys2Proof.Laws

/-! ## At most one row takes a word (`30_encoding.md` R92, R93) -/

/-- Of rows that differ pairwise on a bit both match, at most one takes a word: two that take it agree on those bits. -/
theorem eq_of_masked {α : Type} {n : Nat} {pat mask : α → BitVec n} {rows : List α}
    (hd : rows.Pairwise (fun r r' => pat r &&& mask r' ≠ pat r' &&& mask r)) {r r' : α} (hr : r ∈ rows)
    (hr' : r' ∈ rows) {x : BitVec n} (h : x &&& mask r = pat r) (h' : x &&& mask r' = pat r') : r = r' := by
  have hs : Std.Symm (fun r r' => pat r &&& mask r' ≠ pat r' &&& mask r) := ⟨fun _ _ hne => hne.symm⟩
  by_contra hne
  refine hd.forall hr hr' hne ?_
  rw [← h, ← h', BitVec.and_assoc, BitVec.and_assoc, BitVec.and_comm (mask r)]

/-- Any two rows of the opcode map differ on a bit both of them match. -/
theorem commandRows_differ : commandRows.Pairwise (fun r r' => r.pat &&& r'.mask ≠ r'.pat &&& r.mask) := by
  decide +kernel

/-- Any two access rows differ on a bit both of them match. -/
theorem accessRows_differ : accessRows.Pairwise (fun r r' => r.pat &&& r'.mask ≠ r'.pat &&& r.mask) := by
  decide +kernel

/-- At most one row of the opcode map takes a command word (`30_encoding.md` R92). -/
theorem commandRows_unique {r r' : CommandRow} {w : Word} (hr : r ∈ commandRows) (hr' : r' ∈ commandRows)
    (h : r.hits w = true) (h' : r'.hits w = true) : r = r' :=
  eq_of_masked commandRows_differ hr hr' (beq_iff_eq.mp h) (beq_iff_eq.mp h')

/-- At most one access row takes a descriptor (`30_encoding.md` R93). -/
theorem accessRows_unique {r r' : AccessRow} {d : BitVec 9} (hr : r ∈ accessRows) (hr' : r' ∈ accessRows)
    (h : r.hits d = true) (h' : r'.hits d = true) : r = r' :=
  eq_of_masked accessRows_differ hr hr' (beq_iff_eq.mp h) (beq_iff_eq.mp h')

/-- A row of the opcode map that takes a word decodes it. -/
theorem decodeCommand_of_hits {r : CommandRow} {w : Word} (hr : r ∈ commandRows) (h : r.hits w = true) :
    decodeCommand w = .ok (r.build w) := by
  obtain ⟨r', hf⟩ := Option.isSome_iff_exists.mp (List.find?_isSome (p := fun r => r.hits w).mpr ⟨r, hr, h⟩)
  have h' := List.find?_some (p := fun r : CommandRow => r.hits w) hf
  have hr' : r' = r := commandRows_unique (List.mem_of_find?_eq_some hf) hr h' h
  simp only [decodeCommand, hf, hr']

/-- An access row that takes an access's descriptor decodes it. -/
theorem decodeAccess_of_hits {r : AccessRow} {a : Access} (hr : r ∈ accessRows) (h : r.hits a.descriptor = true) :
    decodeAccess a = r.build a.addr a.wdata := by
  obtain ⟨r', hr', h', hd⟩ := decodeAccess_eq a
  rw [hd, accessRows_unique hr' hr h' h]

/-! ## The operands of an encoded command (`30_encoding.md` R86) -/

/-- Bit `i` of a placed field. -/
theorem placeField_getLsbD {n : Nat} (x : BitVec n) (lo i : Nat) :
    (placeField x lo).getLsbD i = (decide (i < 32) && decide (lo ≤ i) && x.getLsbD (i - lo)) := by
  by_cases hlo : lo ≤ i
  · have hlt : ¬ i < lo := by omega
    by_cases h32 : i < 32
    · have hsub : i - lo < 32 := by omega
      simp [placeField, hlt, hlo, hsub]
    · simp [placeField, h32]
  · have hlt : i < lo := by omega
    simp [placeField, hlt, hlo]

/-- Bit `i` of a placed field, within the word. -/
theorem placeField_getElem {n : Nat} (x : BitVec n) (lo i : Nat) (h : i < 32) :
    (placeField x lo)[i] = (decide (lo ≤ i) && x.getLsbD (i - lo)) := by
  rw [← BitVec.getLsbD_eq_getElem, placeField_getLsbD]
  simp [h]

/-- A placed field is read back at its own bits. -/
theorem extractLsb'_placeField_same {n : Nat} (x : BitVec n) {lo : Nat} (h : lo + n ≤ 32) :
    (placeField x lo).extractLsb' lo n = x := by
  apply BitVec.eq_of_getLsbD_eq
  intro i hi
  have hlt : lo + i < 32 := by omega
  simp [placeField_getElem, hi, hlt]

/-- A placed field is zero at the bits of another one. -/
theorem extractLsb'_placeField_disjoint {m n : Nat} (x : BitVec m) {lo lo' : Nat}
    (h : lo' + m ≤ lo ∨ lo + n ≤ lo') : (placeField x lo').extractLsb' lo n = 0#n := by
  apply BitVec.eq_of_getLsbD_eq
  intro i hi
  rcases h with h | h
  · simp [placeField_getLsbD, BitVec.getLsbD_of_ge x (lo + i - lo') (by omega)]
  · have hlt : ¬ lo' ≤ lo + i := by omega
    simp [placeField_getLsbD, hlt]

/-! ## The row of an instruction -/

/-- The rows of the opcode map are those of the opcode table (`30_encoding.md` R91). -/
theorem row_commandRows {r : CommandRow} (hr : r ∈ commandRows) (w : Word) :
    EncodesItsRow.row (r.build w) = (r.pat.toNat, r.mask.toNat) := by
  fin_cases hr <;> rfl

/-- The access rows are those of the opcode table (`30_encoding.md` R93). -/
theorem row_accessRows {r : AccessRow} (hr : r ∈ accessRows) (addr : Byte) (wdata : Word) :
    EncodesItsRow.row (r.build addr wdata) = (r.pat.toNat, r.mask.toNat) := by
  fin_cases hr <;> rfl

/-- Some row of the opcode map builds a command from its word: every operand is read back from the bits it was placed
at. -/
theorem exists_commandRow_build {i : Instr} {w : Word} (h : encode i = .command w) :
    ∃ r ∈ commandRows, r.build w = i := by
  simp only [commandRows, List.cons_append, List.nil_append, List.exists_mem_cons_iff]
  cases i <;> cases h <;>
    simp (disch := omega) [highOperand, lowOperand, idxField, vField, bit8Field, BitVec.extractLsb'_or,
      extractLsb'_placeField_same, extractLsb'_placeField_disjoint, placeField_getElem]

/-- Some access row builds a register access from its offset and write data. -/
theorem exists_accessRow_build {i : Instr} {a : Access} (h : encode i = .access a) :
    ∃ r ∈ accessRows, r.build a.addr a.wdata = i := by
  simp only [accessRows, readRows, writeRows, List.cons_append, List.nil_append, List.exists_mem_cons_iff]
  cases i <;> cases h <;> simp [Access.addr, Access.wdata]

/-- The opcode table's match and mask on numbers are the decoder's on bits. -/
theorem masked_beq_of_toNat {n : Nat} {x mask pat : BitVec n} (h : x.toNat &&& mask.toNat = pat.toNat) :
    (x &&& mask == pat) = true :=
  beq_iff_eq.mpr (BitVec.eq_of_toNat_eq (by rw [BitVec.toNat_and, h]))

/-- Decoding the encoding of a well-formed instruction gives it back (`30_encoding.md` R86 to R93). -/
theorem decode_encode {i : Instr} (hi : i.wellFormed = true) : decode (encode i) = .ok i := by
  have ht := EncodesItsRow.encode_takes_row i hi
  cases he : encode i with
  | command w =>
    obtain ⟨r, hr, hb⟩ := exists_commandRow_build he
    rw [he, ← hb, row_commandRows hr] at ht
    exact (decodeCommand_of_hits hr (masked_beq_of_toNat ht)).trans (congrArg _ hb)
  | access a =>
    obtain ⟨r, hr, hb⟩ := exists_accessRow_build he
    rw [he, ← hb, row_accessRows hr] at ht
    exact congrArg _ ((decodeAccess_of_hits hr (masked_beq_of_toNat ht)).trans hb)

end Sys2Proof.Machine
end

section
/-! SUPPORT. The step (`00_scope.md` R16, R19): performing the access that carries an encoding is performing what the encoding
decodes to, and an idle edge. -/

namespace Sys2Proof.Machine

/-- Performing the access that carries an encoding is performing the instruction it decodes to: a command word is carried
by a write of CMD (`30_encoding.md` R98, `45_register_access.md` R211). -/
theorem exec_toAccess {e : Encoded} {i : Instr} (h : decode e = .ok i) (s : State) :
    exec (decodeAccess e.toAccess) s = exec i s := by
  cases e with
  | command w =>
    have hcmd : decodeAccess (.write cmdOffset w) = .wrCmd cmdOffset w :=
      Except.ok.inj (decode_encode (i := .wrCmd cmdOffset w) rfl)
    simp only [Encoded.toAccess, hcmd]
    exact executeWord_ok h s
  | access a => exact congrArg (exec · s) (Except.ok.inj h)

/-- With nothing presented, a step is an idle edge. -/
theorem step_of_nil {s : State} (h : s.inputs = []) : step s = .next (idleEdge s) := by
  simp only [step, h]

/-- With an access presented next, a step takes, acknowledges and performs it. -/
theorem step_of_access {s : State} {a : Access} {es : List PortEvent} (h : s.inputs = .access a :: es) :
    step s = exec (decodeAccess a) (acceptAccess s) := by
  simp only [step, h]

/-- Accepting the next access takes it from the inputs and shows it acknowledged, with no read data yet. -/
theorem acceptAccess_of_cons {s : State} {e : PortEvent} {es : List PortEvent} (h : s.inputs = e :: es) :
    acceptAccess s = { s with inputs := es, ack := true, rdata := none } := by
  simp only [acceptAccess, h, List.tail_cons]

/-- Settles O36: the step performs the presented access, and that access decodes back to the instruction. -/
theorem stepRunsPresentedInstruction : Obligations.StepRunsPresentedInstruction := by
  intro s i es hi hs
  rw [step_of_access hs, exec_toAccess (decode_encode hi), acceptAccess_of_cons hs]

/-- Settles O37: with nothing presented a step is an idle edge, which shows only the port outputs. -/
theorem idleStepChangesNoState : Obligations.IdleStepChangesNoState :=
  fun _ hs => step_of_nil hs

end Sys2Proof.Machine
end

section
/-! SUPPORT. What every instruction can do, over all of them: a command performed, or an access's own effect; and, field
by field, which commands write the state that both units share. -/

namespace Sys2Proof.Machine

/-- Everything an instruction can do: perform one command, or what an access does itself (`45_register_access.md`). -/
inductive InstrEffect (s : State) (i : Instr) : State → Prop where
  | command (c : Instr) (hp : Performs i c) {t : State} (h : CommandEffect s c t) : InstrEffect s i t
  | answer (v : Word) : InstrEffect s i (returnData v s)
  | encPop (a : Byte) (hi : i = .rdEncOut a) (e : Byte × Bool) (rest : List (Byte × Bool)) (hq : s.encQ = e :: rest) :
      InstrEffect s i (returnData (outWord e) { s with encQ := rest })
  | decPop (a : Byte) (hi : i = .rdDecOut a) (e : Byte × Bool) (rest : List (Byte × Bool)) (hq : s.decQ = e :: rest) :
      InstrEffect s i (returnData (outWord e) { s with decQ := rest })
  | degCount (a : Byte) (w : Word) (hi : i = .wrDegCount a w) : InstrEffect s i { s with degCount := w }
  | nothing : InstrEffect s i s
  | illegal (a : Byte) (w : Word) (hi : i = .wrCmd a w) (hw : ∀ c, decodeCommand w ≠ .ok c) :
      InstrEffect s i (cmdError .illegalCmd s)

/-- The cases of `InstrEffect` are all an instruction can do. -/
theorem exec_effect {i : Instr} {s t : State} (h : exec i s = .next t) : InstrEffect s i t := by
  cases hc : isCommand i with
  | true => exact .command i (.inl rfl) (exec_command hc h)
  | false =>
    obtain ⟨v, rfl⟩ | ⟨a, e, rest, hi, hq, rfl⟩ | ⟨a, e, rest, hi, hq, rfl⟩ | ⟨a, w, hi, rfl⟩ | rfl |
      ⟨a, w, hi, ⟨hw, rfl⟩ | ⟨c, hd, hcc, hx⟩⟩ := execAccess_next hc h
    · exact .answer v
    · exact .encPop a hi e rest hq
    · exact .decPop a hi e rest hq
    · exact .degCount a w hi
    · exact .nothing
    · exact .illegal a w hi hw
    · exact .command c (.inr ⟨a, w, hi, hd⟩) (exec_command hcc hx)

/-- An instruction performs a command, or writes no more than CMD_ERR, the head of a queue, DEG_COUNT and the read data. -/
theorem InstrEffect.command_or_frame {i : Instr} {s t : State} (h : InstrEffect s i t) :
    (∃ c, Performs i c ∧ CommandEffect s c t) ∨
      t = { s with cmdErr := t.cmdErr, encQ := t.encQ, decQ := t.decQ, degCount := t.degCount, rdata := t.rdata } := by
  cases h with
  | command c hp hc => exact .inl ⟨c, hp, hc⟩
  | illegal => exact .inr (by rw [cmdError_eq])
  | _ => exact .inr rfl

/-- A run of FEEDs without failure writes only the decoder's position, pending symbols and counters. -/
theorem feedBits_update {bs : Bits} {s u : State} (h : feedBits bs s = .ok u) :
    ∃ pos pend nsym nbits, u = { s with decPos := pos, decPend := pend, decNsym := nsym, decNbits := nbits } := by
  obtain ⟨out, hu, -⟩ := feedBits_ok h
  exact ⟨_, _, _, _, hu⟩

variable {s t : State} {c : Instr}

/-- No command changes the depths. -/
theorem CommandEffect.cfg_eq (h : CommandEffect s c t) : t.cfg = s.cfg := by
  cases h with
  | tableLocked | busy => exact cmdError_cfg _ _
  | fed _ _ _ hu | feedFailed _ _ _ _ _ _ _ _ _ hu | truncated _ _ _ _ _ hu | decCommit _ _ _ _ _ hu =>
    obtain ⟨_, _, _, _, rfl⟩ := feedBits_update hu
    rfl
  | _ => rfl

/-- Which commands write LOCKED, and to what. -/
theorem CommandEffect.locked_cases (h : CommandEffect s c t) :
    t.locked = s.locked ∨ (c = .lock ∧ t.locked = true) ∨
      (c = .unlock ∧ t.locked = false ∧ s.encSt ≠ .active ∧ s.decSt ≠ .active) ∨ (c = .reset ∧ t.locked = false) := by
  cases h with
  | tableLocked | busy => exact .inl (cmdError_locked _ _)
  | lock => exact .inr (.inl ⟨rfl, rfl⟩)
  | unlock he hd => exact .inr (.inr (.inl ⟨rfl, rfl, he, hd⟩))
  | reset => exact .inr (.inr (.inr ⟨rfl, rfl⟩))
  | fed _ _ _ hu | feedFailed _ _ _ _ _ _ _ _ _ hu | truncated _ _ _ _ _ hu | decCommit _ _ _ _ _ hu =>
    obtain ⟨_, _, _, _, rfl⟩ := feedBits_update hu
    exact .inl rfl
  | _ => exact .inl rfl

/-- Which commands write `cwt`: a table-load command while unlocked writes one entry, RESET clears the table. -/
theorem CommandEffect.cwt_cases (h : CommandEffect s c t) :
    t.cwt = s.cwt ∨ (TableLoadCommand c ∧ s.locked = false ∧ ∃ sym e, t = setCwEntry s sym e) ∨
      (c = .reset ∧ t.cwt = []) := by
  cases h with
  | tableLocked | busy => exact .inl (cmdError_cwt _ _)
  | codeword _ hc hl sym e => exact .inr (.inl ⟨hc, hl, sym, e, rfl⟩)
  | reset => exact .inr (.inr ⟨rfl, rfl⟩)
  | fed _ _ _ hu | feedFailed _ _ _ _ _ _ _ _ _ hu | truncated _ _ _ _ _ hu | decCommit _ _ _ _ _ hu =>
    obtain ⟨_, _, _, _, rfl⟩ := feedBits_update hu
    exact .inl rfl
  | _ => exact .inl rfl

/-- Which commands write `nt`: a table-load command while unlocked writes one entry, RESET clears the table. -/
theorem CommandEffect.nt_cases (h : CommandEffect s c t) :
    t.nt = s.nt ∨ (TableLoadCommand c ∧ s.locked = false ∧ ∃ n e, t = setNtEntry s n e) ∨ (c = .reset ∧ t.nt = []) := by
  cases h with
  | tableLocked | busy => exact .inl (cmdError_nt _ _)
  | node _ hc hl n e => exact .inr (.inl ⟨hc, hl, n, e, rfl⟩)
  | reset => exact .inr (.inr ⟨rfl, rfl⟩)
  | fed _ _ _ hu | feedFailed _ _ _ _ _ _ _ _ _ hu | truncated _ _ _ _ _ hu | decCommit _ _ _ _ _ hu =>
    obtain ⟨_, _, _, _, rfl⟩ := feedBits_update hu
    exact .inl rfl
  | _ => exact .inl rfl

/-- Which commands write the root register. -/
theorem CommandEffect.root_cases (h : CommandEffect s c t) :
    t.root = s.root ∨ (s.locked = false ∧ ∃ leaf ref, c = .treeRoot leaf ref) ∨ c = .reset := by
  cases h with
  | tableLocked | busy => exact .inl (cmdError_root _ _)
  | root hl leaf ref => exact .inr (.inl ⟨hl, leaf, ref, rfl⟩)
  | reset => exact .inr (.inr rfl)
  | fed _ _ _ hu | feedFailed _ _ _ _ _ _ _ _ _ hu | truncated _ _ _ _ _ hu | decCommit _ _ _ _ _ hu =>
    obtain ⟨_, _, _, _, rfl⟩ := feedBits_update hu
    exact .inl rfl
  | _ => exact .inl rfl

/-- Which commands write CMD_ERR, and to what (`60_exceptions.md` R224): an error is kept once recorded. -/
theorem CommandEffect.cmdErr_cases (h : CommandEffect s c t) :
    t.cmdErr = s.cmdErr ∨
      (s.cmdErr = .none ∧ t.cmdErr = .tableLocked ∧ s.locked = true ∧ TableLoadCommand c) ∨
      (s.cmdErr = .none ∧ t.cmdErr = .busy ∧ (s.encSt = .active ∨ s.decSt = .active) ∧ c = .unlock) ∨
      (t.cmdErr = .none ∧ (c = .clrErr ∨ c = .reset)) := by
  cases h with
  | tableLocked _ hc hl => by_cases hs : s.cmdErr = .none <;> simp [hs, hl, hc]
  | busy ha => by_cases hs : s.cmdErr = .none <;> simp [hs, ha]
  | clrErr => simp
  | reset => simp [State.resetWith]
  | fed _ _ _ hu | feedFailed _ _ _ _ _ _ _ _ _ hu | truncated _ _ _ _ _ hu | decCommit _ _ _ _ _ hu =>
    obtain ⟨_, _, _, _, rfl⟩ := feedBits_update hu
    exact .inl rfl
  | _ => exact .inl rfl

/-- Only the encoder's own commands and RESET write the encoder. -/
theorem CommandEffect.encoderView_cases (h : CommandEffect s c t) :
    encoderView t = encoderView s ∨ EncoderCommand c ∨ c = .reset := by
  cases h with
  | tableLocked | busy => exact .inl (by rw [cmdError_eq]; rfl)
  | encFailed _ hc => exact .inr (.inl (hc.imp_right (·.imp_right .inl)))
  | unknownSymbol | encStart | encSym | encEnd | encAbort | reset => simp [EncoderCommand]
  | fed _ _ _ hu | feedFailed _ _ _ _ _ _ _ _ _ hu | truncated _ _ _ _ _ hu | decCommit _ _ _ _ _ hu =>
    obtain ⟨_, _, _, _, rfl⟩ := feedBits_update hu
    exact .inl rfl
  | _ => exact .inl rfl

/-- Only the decoder's own commands and RESET write the decoder. -/
theorem CommandEffect.decoderView_cases (h : CommandEffect s c t) :
    decoderView t = decoderView s ∨ DecoderCommand c ∨ c = .reset := by
  cases h with
  | tableLocked | busy => exact .inl (by rw [cmdError_eq]; rfl)
  | decStartFailed | decStart | byteInIdle | malformedPadding | fed | feedFailed | degenerateOverflow | degenerateCommit
  | truncated | decCommit | decAbort | reset => simp [DecoderCommand]
  | _ => exact .inl rfl

end Sys2Proof.Machine
end

section
/-! SUPPORT. The contents that `10_state.md` R50 leaves unspecified (U1 to U5 of `93_implementation_defined.md`) are
unobservable: two states that differ only in them answer states that differ only in them. The partner of a state is the
same state with other hidden contents, so each meaning reads and writes the visible rest of both alike. -/

namespace Sys2Proof.Machine

/-! ## Codeword and node entries that agree where a rule may read them -/

/-- Agreeing valid entries have the same codeword. -/
theorem SameCodeword.codeword_eq {a b : CodewordEntry} (h : SameCodeword a b) (hv : a.v = true) :
    codeword a = codeword b :=
  have ⟨hl, hb⟩ := h.2 hv
  codeword_congr hl hb

/-- Appending either of two agreeing valid entries gives the same state. -/
theorem SameCodeword.appendCodeword_eq {a b : CodewordEntry} (h : SameCodeword a b) (hv : a.v = true) (s : State) :
    appendCodeword a s = appendCodeword b s := by
  simp only [appendCodeword, completedBytes, h.codeword_eq hv, (h.2 hv).1]

/-- A chunk written to both of two agreeing entries (`42_table_load.md` R142). -/
theorem SameCodeword.putChunk {a b : CodewordEntry} (h : SameCodeword a b) (idx : BitVec 5) (data : Byte) :
    SameCodeword { a with bits := putChunk a.bits idx data } { b with bits := putChunk b.bits idx data } := by
  refine ⟨h.1, fun hv => ⟨(h.2 hv).1, fun i hi => ?_⟩⟩
  have hi' : i < a.len.toNat := hi
  have h256 : i < 256 := Nat.lt_trans hi' a.len.isLt
  simp only [putChunk_getLsbD _ _ _ _ h256, (h.2 hv).2 i hi']

/-- The defined children of two agreeing node entries are the same. -/
theorem SameNode.childOf_eq {a b : NodeEntry} (h : SameNode a b) (bit : Bool) : childOf a bit = childOf b bit := by
  obtain ⟨hl, hr, hvl, hvr⟩ := h
  cases bit
  · cases hv : a.lv <;> simp [childOf, ← hl, hv, hvl]
  · cases hv : a.rv <;> simp [childOf, ← hr, hv, hvr]

/-! ## The partner of a state -/

/-- The state with other contents where the host may not see them. -/
def State.withHidden (s : State) (cwt : Table CodewordEntry) (nt : Table NodeEntry) (root : Root) (pos : Byte) :
    State :=
  { s with cwt := cwt, nt := nt, root := root, decPos := pos }

/-- The state with other tables. -/
def State.withTables (s : State) (cwt : Table CodewordEntry) (nt : Table NodeEntry) : State :=
  { s with cwt := cwt, nt := nt }

/-- A state that agrees on the visible rest is this state with other hidden contents. -/
theorem SameVisible.eq_withHidden {s s' : State} (h : SameVisible s s') :
    ∃ cwt nt root pos, s' = s.withHidden cwt nt root pos := by
  obtain ⟨-, -, -, -, hrest⟩ := h
  exact ⟨s'.cwt, s'.nt, s'.root, s'.decPos, hrest.symm⟩

/-- Every state agrees with itself. -/
theorem SameVisible.refl (s : State) : SameVisible s s :=
  ⟨fun _ => ⟨rfl, fun _ => ⟨rfl, fun _ _ => rfl⟩⟩, fun _ => ⟨rfl, rfl, fun _ => rfl, fun _ => rfl⟩,
    ⟨rfl, fun _ => rfl⟩, fun _ => rfl, rfl⟩

/-- Both meanings answer a next state, and the two agree on the visible rest. -/
def AgreeNext (x y : Result) : Prop := ∃ t t', x = .next t ∧ y = .next t' ∧ SameVisible t t'

/-- Two answers that agree. -/
theorem AgreeNext.next {t t' : State} (h : SameVisible t t') : AgreeNext (.next t) (.next t') := ⟨t, t', rfl, rfl, h⟩

/-- Two meanings that test the same condition agree when their branches do. -/
theorem AgreeNext.ite {p q : Prop} [Decidable p] [Decidable q] {x x' y y' : Result} (hpq : p ↔ q)
    (hx : p → AgreeNext x x') (hy : ¬ p → AgreeNext y y') : AgreeNext (if p then x else y) (if q then x' else y') := by
  by_cases hp : p
  · rw [if_pos hp, if_pos (hpq.mp hp)]; exact hx hp
  · rw [if_neg hp, if_neg (hpq.not.mp hp)]; exact hy hp

section
variable {s t : State} {cwt : Table CodewordEntry} {nt : Table NodeEntry} {root : Root} {pos : Byte}

/-- An update of the visible rest keeps the agreement, when the decoder does not become ACTIVE by it. -/
theorem SameVisible.update (h : SameVisible s (s.withHidden cwt nt root pos))
    (hcode : (t.cwt, t.nt, t.root) = (s.cwt, s.nt, s.root))
    (hpos : t.decSt = .active → s.decSt = .active ∧ t.decPos = s.decPos) :
    SameVisible t (t.withHidden cwt nt root pos) := by
  obtain ⟨hcw, hnode, hroot, hp, -⟩ := h
  simp only [Prod.mk.injEq] at hcode
  obtain ⟨hc, hn, hr⟩ := hcode
  refine ⟨fun sym => ?_, fun n => ?_, hr ▸ hroot, fun ha => ?_, rfl⟩
  · rw [cwEntry, hc]; exact hcw sym
  · rw [ntEntry, hn]; exact hnode n
  · exact (hpos ha).2.trans (hp (hpos ha).1)

/-- An answer that updates the visible rest alone: the partner's answer is the answer's partner. -/
theorem SameVisible.next (h : SameVisible s (s.withHidden cwt nt root pos))
    (hcode : (t.cwt, t.nt, t.root) = (s.cwt, s.nt, s.root))
    (hpos : t.decSt = .active → s.decSt = .active ∧ t.decPos = s.decPos) :
    AgreeNext (.next t) (.next (t.withHidden cwt nt root pos)) := .next (h.update hcode hpos)

/-- While the decoder is ACTIVE with a root, only the tables can differ. -/
theorem SameVisible.withHidden_eq_withTables (h : SameVisible s (s.withHidden cwt nt root pos))
    (ha : s.decSt = .active) (hv : s.root.v = true) : s.withHidden cwt nt root pos = s.withTables cwt nt := by
  obtain ⟨-, -, ⟨-, hroot⟩, hpos, -⟩ := h
  have hroot : s.root = root := hroot hv
  have hpos : s.decPos = pos := hpos ha
  rw [← hroot, ← hpos]
  rfl

/-! ## System commands and the encoder -/

/-- An error recorded in both. -/
theorem SameVisible.cmdError (h : SameVisible s (s.withHidden cwt nt root pos)) (c : ErrCode) :
    SameVisible (cmdError c s) (cmdError c (s.withHidden cwt nt root pos)) := by
  rw [cmdError_eq, cmdError_eq]
  exact h.update rfl fun ha => ⟨ha, rfl⟩

/-- ENC_START tests and writes visible components alone. -/
theorem agreeNext_encStart (h : SameVisible s (s.withHidden cwt nt root pos)) :
    AgreeNext (execEncStart s) (execEncStart (s.withHidden cwt nt root pos)) :=
  .ite .rfl (fun _ => .next h) fun _ =>
    .ite .rfl (fun _ => h.next rfl fun ha => ⟨ha, rfl⟩) fun _ =>
      .ite .rfl (fun _ => h.next rfl fun ha => ⟨ha, rfl⟩) fun _ =>
        h.next rfl fun ha => ⟨ha, rfl⟩

/-- ENC_SYM reads a codeword only where it is valid, and then its length and the bits below it. -/
theorem agreeNext_encSym (h : SameVisible s (s.withHidden cwt nt root pos)) (sym : Byte) :
    AgreeNext (execEncSym sym s) (execEncSym sym (s.withHidden cwt nt root pos)) := by
  have he : SameCodeword (cwEntry s sym) (cwEntry (s.withHidden cwt nt root pos) sym) := h.1 sym
  refine .ite .rfl (fun _ => .next h) fun _ => .ite .rfl (fun _ => h.next rfl fun ha => ⟨ha, rfl⟩) fun _ =>
    .ite (by rw [he.1]) (fun _ => h.next rfl fun ha => ⟨ha, rfl⟩) fun hv => ?_
  have hv : (cwEntry s sym).v = true := by simpa using hv
  have hk : completedBytes s (cwEntry s sym) = completedBytes s (cwEntry (s.withHidden cwt nt root pos) sym) := by
    simp only [completedBytes, (he.2 hv).1]
  rw [hk, he.appendCodeword_eq hv]
  exact .ite .rfl (fun _ => h.next rfl fun ha => ⟨ha, rfl⟩) fun _ => h.next rfl fun ha => ⟨ha, rfl⟩

/-- ENC_END tests and writes visible components alone. -/
theorem agreeNext_encEnd (h : SameVisible s (s.withHidden cwt nt root pos)) :
    AgreeNext (execEncEnd s) (execEncEnd (s.withHidden cwt nt root pos)) :=
  .ite .rfl (fun _ => .next h) fun _ => .ite .rfl (fun _ => h.next rfl fun ha => ⟨ha, rfl⟩) fun _ =>
    .ite .rfl (fun _ => h.next rfl fun ha => ⟨ha, rfl⟩) fun _ => h.next rfl fun ha => ⟨ha, rfl⟩

/-! ## Table load -/

/-- The lock guard refuses both or lets both writes through. -/
theorem SameVisible.guardUnlocked (h : SameVisible s (s.withHidden cwt nt root pos)) {w w' : State}
    (hw : SameVisible w w') :
    AgreeNext (.next (guardUnlocked s w)) (.next (guardUnlocked (s.withHidden cwt nt root pos) w')) := by
  cases hl : s.locked with
  | true =>
    rw [guardUnlocked_locked hl, guardUnlocked_locked (s := s.withHidden cwt nt root pos) hl]
    exact .next (h.cmdError _)
  | false =>
    rw [guardUnlocked_unlocked hl, guardUnlocked_unlocked (s := s.withHidden cwt nt root pos) hl]
    exact .next hw

end

section
variable {s s' : State}

/-- Agreeing codeword entries written to both. -/
theorem SameVisible.setCwEntry (h : SameVisible s s') (hs : TablesInv s) (hs' : TablesInv s') (sym : Byte)
    {e e' : CodewordEntry} (he : SameCodeword e e') : SameVisible (setCwEntry s sym e) (setCwEntry s' sym e') := by
  obtain ⟨hcw, hnode, hroot, hpos, hrest⟩ := h
  refine ⟨fun y => ?_, hnode, hroot, hpos, ?_⟩
  · rw [cwEntry_setCwEntry hs.1, cwEntry_setCwEntry hs'.1]
    split
    · exact he
    · exact hcw y
  · conv_rhs => rw [← hrest]
    rfl

/-- Agreeing node entries written to both. -/
theorem SameVisible.setNtEntry (h : SameVisible s s') (hs : TablesInv s) (hs' : TablesInv s') (n : Byte)
    {e e' : NodeEntry} (he : SameNode e e') : SameVisible (setNtEntry s n e) (setNtEntry s' n e') := by
  obtain ⟨hcw, hnode, hroot, hpos, hrest⟩ := h
  refine ⟨hcw, fun y => ?_, hroot, hpos, ?_⟩
  · rw [ntEntry_setNtEntry hs.2, ntEntry_setNtEntry hs'.2]
    split
    · exact he
    · exact hnode y
  · conv_rhs => rw [← hrest]
    rfl

/-- One root written to both. -/
theorem SameVisible.setRoot (h : SameVisible s s') (r : Root) :
    SameVisible { s with root := r } { s' with root := r } := by
  obtain ⟨hcw, hnode, -, hpos, hrest⟩ := h
  refine ⟨hcw, hnode, ⟨rfl, fun _ => rfl⟩, hpos, ?_⟩
  conv_rhs => rw [← hrest]

end

/-! ## The decoder -/

/-- A state function on both results of FEED. -/
def mapBoth (f : State → State) : Except State State → Except State State
  | .ok s => .ok (f s)
  | .error s => .error (f s)

section
variable {s : State} {cwt : Table CodewordEntry} {nt : Table NodeEntry}

/-- FEED reads the node table only where a child is defined. -/
theorem feed_withTables (hn : ∀ n, SameNode (ntEntry s n) (ntEntry (s.withTables cwt nt) n)) (b : Bool) :
    feed b (s.withTables cwt nt) = mapBoth (·.withTables cwt nt) (feed b s) := by
  have hchild : childOf (ntEntry (s.withTables cwt nt) (s.withTables cwt nt).decPos) b =
      childOf (ntEntry s s.decPos) b := ((hn s.decPos).childOf_eq b).symm
  have hroot : (s.withTables cwt nt).root = s.root := rfl
  have hfull : decFull (s.withTables cwt nt) = decFull s := rfl
  simp only [feed, hchild, hroot, hfull]
  cases childOf (ntEntry s s.decPos) b <;> dsimp only <;> split_ifs <;> rfl

/-- So does a run of FEEDs. -/
theorem feedBits_withTables (hn : ∀ n, SameNode (ntEntry s n) (ntEntry (s.withTables cwt nt) n)) (bs : Bits) :
    feedBits bs (s.withTables cwt nt) = mapBoth (·.withTables cwt nt) (feedBits bs s) := by
  induction bs generalizing s with
  | nil => rfl
  | cons b bs ih =>
    simp only [feedBits, feed_withTables hn]
    cases hf : feed b s with
    | error u => rfl
    | ok u => obtain ⟨-, ref, -, ⟨-, -, rfl⟩ | ⟨-, rfl⟩⟩ := feed_ok hf <;> exact ih hn

/-- The end of a message reads no table. -/
theorem finishMessage_withTables (s : State) :
    finishMessage (s.withTables cwt nt) = (finishMessage s).withTables cwt nt := by
  have hroot : (s.withTables cwt nt).root = s.root := rfl
  have hpos : (s.withTables cwt nt).decPos = s.decPos := rfl
  have hq : (s.withTables cwt nt).decQ = s.decQ := rfl
  have hdeg : (s.withTables cwt nt).degCount = s.degCount := rfl
  have hcfg : (s.withTables cwt nt).cfg = s.cfg := rfl
  simp only [finishMessage, hroot, hpos, hq, hdeg, hcfg]
  split_ifs <;> rfl

/-- A byte of the message, not the final one. -/
theorem feedWholeByte_withTables (hn : ∀ n, SameNode (ntEntry s n) (ntEntry (s.withTables cwt nt) n)) (byte : Byte) :
    feedWholeByte byte (s.withTables cwt nt) = (feedWholeByte byte s).withTables cwt nt := by
  simp only [feedWholeByte, feedBits_withTables hn]
  cases feedBits (byteBits byte) s <;> rfl

/-- The final byte of the message. -/
theorem feedFinalByte_withTables (hn : ∀ n, SameNode (ntEntry s n) (ntEntry (s.withTables cwt nt) n)) (byte : Byte) :
    feedFinalByte byte (s.withTables cwt nt) = (feedFinalByte byte s).withTables cwt nt := by
  simp only [feedFinalByte, feedBits_withTables hn]
  split_ifs
  · rfl
  · cases feedBits (finalPayload byte) s with
    | ok u => exact finishMessage_withTables u
    | error u => rfl

/-- DEC_BYTE during a message. -/
theorem execDecByte_active (ha : s.decSt = .active) (last : Bool) (byte : Byte) :
    execDecByte last byte s = .next (if last then feedFinalByte byte s else feedWholeByte byte s) := by
  cases last <;> simp [execDecByte, ha]

end

section
variable {s : State} {cwt : Table CodewordEntry} {nt : Table NodeEntry} {root : Root} {pos : Byte}

/-- DEC_BYTE: during a message the position and the root are visible. -/
theorem agreeNext_decByte (h : SameVisible s (s.withHidden cwt nt root pos)) (hl : LockInv s) (last : Bool)
    (byte : Byte) : AgreeNext (execDecByte last byte s) (execDecByte last byte (s.withHidden cwt nt root pos)) := by
  cases hs : s.decSt with
  | error =>
    exact .ite .rfl (fun _ => .next h) fun hne => absurd hs hne
  | idle =>
    exact .ite .rfl (fun _ => .next h) fun _ =>
      .ite .rfl (fun _ => h.next rfl nofun) fun hne => absurd hs hne
  | active =>
    have hw := h.withHidden_eq_withTables hs (hl.2 hs).2
    rw [hw] at h ⊢
    obtain ⟨hcw, hnode, -⟩ := h
    have heq : execDecByte last byte (s.withTables cwt nt) =
        .next ((if last then feedFinalByte byte s else feedWholeByte byte s).withTables cwt nt) := by
      rw [execDecByte_active (s := s.withTables cwt nt) hs]
      cases last
      · exact congrArg _ (feedWholeByte_withTables hnode byte)
      · exact congrArg _ (feedFinalByte_withTables hnode byte)
    refine ⟨_, _, execDecByte_active hs last byte, heq, ?_⟩
    generalize ht : (if last then feedFinalByte byte s else feedWholeByte byte s) = t
    have hx : CommandEffect s (.decByte last byte) t := exec_command rfl (ht ▸ execDecByte_active hs last byte)
    have hcwt : t.cwt = s.cwt := by simpa [TableLoadCommand] using hx.cwt_cases
    have hnt : t.nt = s.nt := by simpa [TableLoadCommand] using hx.nt_cases
    refine ⟨fun sym => ?_, fun n => ?_, ⟨rfl, fun _ => rfl⟩, fun _ => rfl, rfl⟩
    · rw [cwEntry, hcwt]; exact hcw sym
    · rw [ntEntry, hnt]; exact hnode n

/-- DEC_START: a root that is read is defined, so visible. -/
theorem agreeNext_decStart (h : SameVisible s (s.withHidden cwt nt root pos)) :
    AgreeNext (execDecStart s) (execDecStart (s.withHidden cwt nt root pos)) := by
  obtain ⟨-, -, ⟨hv, hroot⟩, -, -⟩ := id h
  refine .ite .rfl (fun _ => .next h) fun _ => .ite .rfl (fun _ => h.next rfl nofun) fun _ =>
    .ite .rfl (fun _ => h.next rfl nofun) fun _ => .ite (by rw [hv]) (fun _ => h.next rfl nofun) fun hr => ?_
  have hroot : s.root = root := hroot (by simpa using hr)
  subst hroot
  exact .next ⟨h.1, h.2.1, h.2.2.1, fun _ => rfl, rfl⟩

/-! ## Every command, every access, every step -/

/-- Two states that agree step alike by any command. -/
theorem agreeNext_command (h : SameVisible s (s.withHidden cwt nt root pos)) (ht : TablesInv s)
    (ht' : TablesInv (s.withHidden cwt nt root pos)) (hl : LockInv s) {c : Instr} (hc : isCommand c = true) :
    AgreeNext (exec c s) (exec c (s.withHidden cwt nt root pos)) := by
  cases c with
  | nop => exact .next h
  | reset => exact .next (.refl _)
  | clrErr => exact h.next rfl fun ha => ⟨ha, rfl⟩
  | cwDef sym v len => exact h.guardUnlocked (h.setCwEntry ht ht' sym ⟨rfl, fun _ => ⟨rfl, fun _ _ => rfl⟩⟩)
  | cwBits sym idx data => exact h.guardUnlocked (h.setCwEntry ht ht' sym ((h.1 sym).putChunk idx data))
  | nodeL node leaf ref =>
    obtain ⟨hlv, hrv, hl, hr⟩ := h.2.1 node
    exact h.guardUnlocked (h.setNtEntry ht ht' node ⟨rfl, hrv, fun _ => rfl, hr⟩)
  | nodeR node leaf ref =>
    obtain ⟨hlv, hrv, hl, hr⟩ := h.2.1 node
    exact h.guardUnlocked (h.setNtEntry ht ht' node ⟨hlv, rfl, hl, fun _ => rfl⟩)
  | treeRoot leaf ref => exact h.guardUnlocked (h.setRoot _)
  | lock => exact h.next rfl fun ha => ⟨ha, rfl⟩
  | unlock => exact .ite .rfl (fun _ => .next (h.cmdError _)) fun _ => h.next rfl fun ha => ⟨ha, rfl⟩
  | encStart => exact agreeNext_encStart h
  | encSym sym => exact agreeNext_encSym h sym
  | encEnd => exact agreeNext_encEnd h
  | encAbort => exact h.next rfl fun ha => ⟨ha, rfl⟩
  | decStart => exact agreeNext_decStart h
  | decByte last byte => exact agreeNext_decByte h hl last byte
  | decAbort => exact h.next rfl nofun
  | _ => cases hc

/-- STATUS shows nothing hidden: ROOT_LEAF is masked by the root's valid bit (`10_state.md` R24). -/
theorem SameVisible.statusWord_eq (h : SameVisible s (s.withHidden cwt nt root pos)) :
    statusWord (s.withHidden cwt nt root pos) = statusWord s := by
  obtain ⟨-, -, ⟨hv, hroot⟩, -, -⟩ := h
  have hflag : rootLeafFlag (s.withHidden cwt nt root pos).root = rootLeafFlag s.root := by
    cases hr : s.root.v with
    | false => simp [rootLeafFlag, ← hv, hr]
    | true => rw [hroot hr]
  simp only [statusWord, hflag, ← hv]
  rfl

/-- One answer to a read of both. -/
theorem SameVisible.returnData (h : SameVisible s (s.withHidden cwt nt root pos)) (v : Word) :
    SameVisible (returnData v s) (returnData v (s.withHidden cwt nt root pos)) :=
  h.update rfl fun ha => ⟨ha, rfl⟩

/-- A pop of ENC_OUT, or the answer of an empty queue. -/
theorem agreeNext_rdEncOut (h : SameVisible s (s.withHidden cwt nt root pos)) (a : Byte) :
    AgreeNext (execRdEncOut a s) (execRdEncOut a (s.withHidden cwt nt root pos)) := by
  have hq : (s.withHidden cwt nt root pos).encQ = s.encQ := rfl
  simp only [execRdEncOut, hq]
  cases s.encQ with
  | nil => exact .next (h.returnData 0)
  | cons e rest => exact h.next rfl fun ha => ⟨ha, rfl⟩

/-- A pop of DEC_OUT, or the answer of an empty queue. -/
theorem agreeNext_rdDecOut (h : SameVisible s (s.withHidden cwt nt root pos)) (a : Byte) :
    AgreeNext (execRdDecOut a s) (execRdDecOut a (s.withHidden cwt nt root pos)) := by
  have hq : (s.withHidden cwt nt root pos).decQ = s.decQ := rfl
  simp only [execRdDecOut, hq]
  cases s.decQ with
  | nil => exact .next (h.returnData 0)
  | cons e rest => exact h.next rfl fun ha => ⟨ha, rfl⟩

/-- Two states that agree step alike by any instruction. -/
theorem agreeNext_exec (h : SameVisible s (s.withHidden cwt nt root pos)) (ht : TablesInv s)
    (ht' : TablesInv (s.withHidden cwt nt root pos)) (hl : LockInv s) (i : Instr) :
    AgreeNext (exec i s) (exec i (s.withHidden cwt nt root pos)) := by
  cases hc : isCommand i with
  | true => exact agreeNext_command h ht ht' hl hc
  | false =>
    cases i with
    | rdId | rdCmd | rdEncNsym | rdEncNbits | rdEncErrsym | rdDecNsym | rdDecNbits | rdDegCount | rdEncOlevel
    | rdDecOlevel | rdEncCap | rdDecCap | rdRsvd3C | rdRsvd40 | rdRsvd80 => exact .next (h.returnData _)
    | wrIgnored00 | wrIgnored08 | wrIgnored10 | wrIgnored20 | wrIgnored2C | wrIgnored30 | wrIgnored40
    | wrIgnored80 => exact .next h
    | rdStatus a =>
      show AgreeNext _ (.next (Machine.returnData (statusWord _) _))
      rw [h.statusWord_eq]
      exact .next (h.returnData _)
    | rdEncOut a => exact agreeNext_rdEncOut h a
    | rdDecOut a => exact agreeNext_rdDecOut h a
    | wrDegCount a w => exact h.next rfl fun ha => ⟨ha, rfl⟩
    | wrCmd a w =>
      show AgreeNext (executeWord w s) (executeWord w _)
      cases hd : decodeCommand w with
      | error r => rw [executeWord_error hd, executeWord_error hd]; exact .next (h.cmdError _)
      | ok c =>
        rw [executeWord_ok hd, executeWord_ok hd]
        exact agreeNext_command h ht ht' hl (decodeCommand_isCommand hd)
    | _ => cases hc

/-- Two states that agree step alike. -/
theorem agreeNext_step (h : SameVisible s (s.withHidden cwt nt root pos)) (ht : TablesInv s)
    (ht' : TablesInv (s.withHidden cwt nt root pos)) (hl : LockInv s) :
    AgreeNext (step s) (step (s.withHidden cwt nt root pos)) := by
  rcases step_cases s with ⟨hi, hs⟩ | ⟨es, hi, hs⟩ | ⟨a, es, hi, hs⟩ <;> rw [hs]
  · rw [step_of_nil (s := s.withHidden cwt nt root pos) hi]
    exact h.next rfl fun ha => ⟨ha, rfl⟩
  · have hs' : step (s.withHidden cwt nt root pos) = .next (resetEdge s) := by
      simp only [step, show (s.withHidden cwt nt root pos).inputs = _ from hi]
      rfl
    rw [hs']
    exact .next (.refl _)
  · rw [step_of_access (s := s.withHidden cwt nt root pos) hi]
    exact agreeNext_exec (s := acceptAccess s) (h.update rfl fun ha => ⟨ha, rfl⟩) ht ht' hl _

end

/-- Settles O47: the partner of a state answers the partner of its answer. -/
theorem unspecifiedContentsUnobservable : Obligations.UnspecifiedContentsUnobservable := by
  intro s s' hs hs' h
  obtain ⟨-, ht, -, -, hl, -⟩ := hs
  obtain ⟨-, ht', -⟩ := hs'
  obtain ⟨cwt, nt, root, pos, rfl⟩ := h.eq_withHidden
  exact agreeNext_step h ht ht' hl

end Sys2Proof.Machine
end

section
/-! SUPPORT. The invariants: the tables' canonical form determines them, and every step keeps the encoder's invariant
(`10_state.md` R44) and the machine's. -/

namespace Sys2Proof.Machine

/-! ## Canonical tables are equal when they read alike -/

section
variable {α : Type} [DecidableEq α] {d : α}

/-- A canonical table that reads at the first index of another as that one does begins no later. -/
theorem head_le_of_tableGet_eq {k k' : Nat} {v v' : α} {t t' : Table α} (hw : tableWf d ((k, v) :: t) = true)
    (hw' : tableWf d ((k', v') :: t') = true)
    (hr : tableGet d ((k, v) :: t) k = tableGet d ((k', v') :: t') k) : k' ≤ k := by
  obtain ⟨-, hv, -, -⟩ := tableWf_cons.mp hw
  obtain ⟨-, -, hlt', -⟩ := tableWf_cons.mp hw'
  by_contra hk
  have hd : tableGet d ((k', v') :: t') k = d :=
    tableGet_below (List.forall_mem_cons.mpr ⟨by omega, fun e he => by have := hlt' e he; omega⟩)
  rw [hd] at hr
  exact hv (by simpa [tableGet] using hr)

/-- Two canonical tables that read alike at every index are one. -/
theorem eq_of_tableGet_eq {t t' : Table α} (hw : tableWf d t = true) (hw' : tableWf d t' = true)
    (hr : ∀ k, k < 256 → tableGet d t k = tableGet d t' k) : t = t' := by
  induction t generalizing t' with
  | nil =>
    cases t' with
    | nil => rfl
    | cons e' t' =>
      obtain ⟨hk', hv', -, -⟩ := tableWf_cons.mp hw'
      exact absurd (hr _ hk') (by simpa [tableGet] using hv'.symm)
  | cons e t ih =>
    obtain ⟨hk, hv, hlt, ht⟩ := tableWf_cons.mp hw
    cases t' with
    | nil => exact absurd (hr _ hk) (by simpa [tableGet] using hv)
    | cons e' t' =>
      obtain ⟨k, v⟩ := e
      obtain ⟨k', v'⟩ := e'
      obtain ⟨hk', hv', hlt', ht'⟩ := tableWf_cons.mp hw'
      obtain rfl : k = k' :=
        Nat.le_antisymm (head_le_of_tableGet_eq hw' hw (hr k' hk').symm) (head_le_of_tableGet_eq hw hw' (hr k hk))
      obtain rfl : v = v' := by simpa [tableGet] using hr k hk
      refine congrArg _ (ih ht ht' fun j hj => ?_)
      by_cases hkj : k = j
      · subst hkj
        rw [tableGet_below hlt, tableGet_below hlt']
      · simpa [tableGet, hkj] using hr j hj

end

/-- Settles O51: the laws of a table write, and extensionality. -/
theorem tablesAreCanonical : Obligations.TablesAreCanonical :=
  fun _ _ _ _ ht =>
    ⟨fun _ v hk => tableWf_tableSet ht hk v, tableGet_tableSet ht, fun _ ht' hr => eq_of_tableGet_eq ht ht' hr⟩

/-! ## What every step keeps -/

/-- A property of states is kept by every step when it does not read the port and the accesses and commands keep it. -/
theorem step_invariant {P : State → Prop} {s t : State} (hs : P s) (h : step s = .next t)
    (port : ∀ s ins ack rdata, P s → P { s with inputs := ins, ack := ack, rdata := rdata })
    (encPop : ∀ s e rest, P s → s.encQ = e :: rest → P { s with encQ := rest })
    (decPop : ∀ s e rest, P s → s.decQ = e :: rest → P { s with decQ := rest })
    (degCount : ∀ s w, P s → P { s with degCount := w })
    (illegal : ∀ s, P s → P (cmdError .illegalCmd s))
    (command : ∀ s c t, P s → CommandEffect s c t → P t) : P t := by
  rcases step_cases s with ⟨-, hx⟩ | ⟨es, -, hx⟩ | ⟨a, es, -, hx⟩ <;> rw [hx] at h
  · cases h
    exact port s _ _ _ hs
  · cases h
    exact command _ _ _ (port s _ _ _ hs) .reset
  · have hs : P (acceptAccess s) := port s _ _ _ hs
    cases exec_effect h with
    | command c _ hc => exact command _ _ _ hs hc
    | answer v => exact port _ _ _ _ hs
    | encPop _ _ e rest hq => exact port _ _ _ _ (encPop _ e rest hs hq)
    | decPop _ _ e rest hq => exact port _ _ _ _ (decPop _ e rest hs hq)
    | degCount _ w => exact degCount _ w hs
    | nothing => exact hs
    | illegal => exact illegal _ hs

variable {s t : State} {c : Instr}

/-! ## The encoder's invariant (`10_state.md` R44) -/

/-- An accepted symbol leaves the committed and pending bytes within the depth it was checked against. -/
theorem appendCodeword_encPend_length (e : CodewordEntry) (s : State) :
    (appendCodeword e s).encPend.length = s.encPend.length + completedBytes s e := by
  simp [appendCodeword]

/-- Every command keeps the encoder's invariant. -/
theorem EncoderInv.command (hs : EncoderInv s) (h : CommandEffect s c t) : EncoderInv t := by
  obtain ⟨hacc, hidle, hroom⟩ := hs
  have hq : s.encQ.length ≤ s.cfg.encDepth := by omega
  cases h with
  | tableLocked | busy => rw [cmdError_eq]; exact ⟨hacc, hidle, hroom⟩
  | reset => exact ⟨Nat.zero_lt_succ 7, fun _ => ⟨rfl, rfl⟩, Nat.zero_le _⟩
  | encFailed | unknownSymbol | encAbort => exact ⟨Nat.zero_lt_succ 7, fun _ => ⟨rfl, rfl⟩, hq⟩
  | encStart => exact ⟨Nat.zero_lt_succ 7, fun hne => absurd rfl hne, hq⟩
  | encSym sym ha _ hr =>
    refine ⟨?_, fun hne => absurd ha hne, ?_⟩
    · rw [appendCodeword_encAcc_length]; omega
    · rw [appendCodeword_encPend_length, ← Nat.add_assoc]; exact hr
  | encEnd _ hr => exact ⟨Nat.zero_lt_succ 7, fun _ => ⟨rfl, rfl⟩, by simpa [commitEncoder, ← Nat.add_assoc] using hr⟩
  | fed _ _ _ hu | feedFailed _ _ _ _ _ _ _ _ _ hu | truncated _ _ _ _ _ hu | decCommit _ _ _ _ _ hu =>
    obtain ⟨_, _, _, _, rfl⟩ := feedBits_update hu
    exact ⟨hacc, hidle, hroom⟩
  | _ => exact ⟨hacc, hidle, hroom⟩

/-- A pop of ENC_OUT keeps the encoder's invariant. -/
theorem EncoderInv.encPop (hs : EncoderInv s) {e : Byte × Bool} {rest : List (Byte × Bool)} (hq : s.encQ = e :: rest) :
    EncoderInv { s with encQ := rest } := by
  obtain ⟨hacc, hidle, hroom⟩ := hs
  rw [hq, List.length_cons] at hroom
  exact ⟨hacc, hidle, by show rest.length + s.encPend.length ≤ s.cfg.encDepth; omega⟩

/-- Settles O48: commands, pops and the port keep the encoder's invariant. -/
theorem encoderInvariantKept : Obligations.EncoderInvariantKept :=
  fun _ _ hs h => step_invariant hs h (fun _ _ _ _ hs => hs) (fun _ _ _ hs hq => hs.encPop hq) (fun _ _ _ hs _ => hs)
    (fun _ _ hs => hs) (fun s hs => by rw [cmdError_eq]; exact hs) (fun _ _ _ hs hc => hs.command hc)

/-! ## The decoder's invariant (`10_state.md` R45) -/

/-- A run of FEEDs leaves the committed and pending symbols within the depth. -/
theorem feedBits_room {bs : Bits} {u : State} (hu : feedBits bs s = .ok u)
    (hs : s.decQ.length + s.decPend.length ≤ s.cfg.decDepth) : u.decQ.length + u.decPend.length ≤ u.cfg.decDepth := by
  obtain ⟨out, hu, hroom, -⟩ := feedBits_ok hu
  rw [hu]
  rcases hroom with rfl | hroom
  · simpa using hs
  · simpa [← Nat.add_assoc] using hroom

/-- Every command keeps the decoder's invariant. -/
theorem DecoderInv.command (hs : DecoderInv s) (h : CommandEffect s c t) : DecoderInv t := by
  obtain ⟨hidle, hroom⟩ := hs
  have hq : s.decQ.length ≤ s.cfg.decDepth := by omega
  cases h with
  | tableLocked | busy => rw [cmdError_eq]; exact ⟨hidle, hroom⟩
  | reset => exact ⟨fun _ => rfl, Nat.zero_le _⟩
  | decStartFailed | byteInIdle | malformedPadding | degenerateOverflow | decAbort => exact ⟨fun _ => rfl, hq⟩
  | decStart => exact ⟨fun _ => rfl, hq⟩
  | fed _ ha _ hu =>
    refine ⟨fun hne => ?_, feedBits_room hu hroom⟩
    obtain ⟨_, _, _, _, rfl⟩ := feedBits_update hu
    exact absurd ha hne
  | feedFailed _ _ _ _ _ _ _ _ _ hu | truncated _ _ _ _ _ hu =>
    have hr := feedBits_room hu hroom
    exact ⟨fun _ => rfl, Nat.le_trans (Nat.le_add_right _ _) hr⟩
  | degenerateCommit _ _ _ _ _ hr => exact ⟨fun _ => rfl, by simpa [commitDecoder] using hr⟩
  | decCommit _ _ _ _ _ hu => exact ⟨fun _ => rfl, by simpa [commitDecoder] using feedBits_room hu hroom⟩
  | _ => exact ⟨hidle, hroom⟩

/-- A pop of DEC_OUT keeps the decoder's invariant. -/
theorem DecoderInv.decPop (hs : DecoderInv s) {e : Byte × Bool} {rest : List (Byte × Bool)} (hq : s.decQ = e :: rest) :
    DecoderInv { s with decQ := rest } := by
  obtain ⟨hidle, hroom⟩ := hs
  rw [hq, List.length_cons] at hroom
  exact ⟨hidle, by show rest.length + s.decPend.length ≤ s.cfg.decDepth; omega⟩

/-! ## The tables, the lock and the errors -/

/-- Every command keeps the tables canonical. -/
theorem TablesInv.command (hs : TablesInv s) (h : CommandEffect s c t) : TablesInv t := by
  obtain ⟨hc, hn⟩ := hs
  constructor
  · rcases h.cwt_cases with he | ⟨-, -, sym, e, rfl⟩ | ⟨-, he⟩
    · rwa [he]
    · exact cwt_wf_setCwEntry hc sym e
    · rw [he]; rfl
  · rcases h.nt_cases with he | ⟨-, -, n, e, rfl⟩ | ⟨-, he⟩
    · rwa [he]
    · exact nt_wf_setNtEntry hn n e
    · rw [he]; rfl

/-- Every command keeps the lock behind every message (`20_memory.md` R75). -/
theorem LockInv.command (hs : LockInv s) (h : CommandEffect s c t) : LockInv t := by
  obtain ⟨he, hd⟩ := hs
  cases h with
  | tableLocked | busy => rw [cmdError_eq]; exact ⟨he, hd⟩
  | reset => exact ⟨nofun, nofun⟩
  | lock => exact ⟨fun _ => rfl, fun ha => ⟨rfl, (hd ha).2⟩⟩
  | unlock hne hnd => exact ⟨fun ha => absurd ha hne, fun ha => absurd ha hnd⟩
  | root => exact ⟨he, fun ha => ⟨(hd ha).1, rfl⟩⟩
  | encFailed | unknownSymbol | encEnd | encAbort => exact ⟨nofun, hd⟩
  | encStart _ hl => exact ⟨fun _ => hl, hd⟩
  | decStart _ hl hr => exact ⟨he, fun _ => ⟨hl, hr⟩⟩
  | decStartFailed | byteInIdle | malformedPadding | degenerateOverflow | degenerateCommit | decAbort =>
    exact ⟨he, nofun⟩
  | fed _ _ _ hu =>
    obtain ⟨_, _, _, _, rfl⟩ := feedBits_update hu
    exact ⟨he, hd⟩
  | feedFailed _ _ _ _ _ _ _ _ _ hu | truncated _ _ _ _ _ hu | decCommit _ _ _ _ _ hu =>
    obtain ⟨_, _, _, _, rfl⟩ := feedBits_update hu
    exact ⟨he, nofun⟩
  | _ => exact ⟨he, hd⟩

/-- A command error that the block records keeps the error fields fitting. -/
theorem ErrorInv.cmdError (hs : ErrorInv s) {e : ErrCode} (he : e ∈ [.none, .illegalCmd, .tableLocked, .busy]) :
    ErrorInv (cmdError e s) := by
  obtain ⟨henc, hdec, hc, hec, hdc⟩ := hs
  rw [cmdError_eq]
  exact ⟨henc, hdec, by dsimp only; split <;> assumption, hec, hdc⟩

/-- A failure of the encoder with one of its codes keeps the error fields fitting. -/
theorem ErrorInv.encFail (hs : ErrorInv s) {e : ErrCode}
    (he : e ∈ [.notLocked, .sequence, .unknownSymbol, .overflow]) : ErrorInv (encFail e s) := by
  obtain ⟨-, hdec, hc, -, hdc⟩ := hs
  have hne : e ≠ .none := by rintro rfl; simp at he
  exact ⟨iff_of_true rfl hne, hdec, hc, List.mem_cons_of_mem _ he, hdc⟩

/-- A failure of the decoder with one of its codes keeps the error fields fitting. -/
theorem ErrorInv.decFail (hs : ErrorInv s) {e : ErrCode} (he : e ∈ [.notLocked, .sequence, .overflow,
    .malformedPadding, .truncatedCode, .tableError, .excessBits]) : ErrorInv (decFail e s) := by
  obtain ⟨henc, -, hc, hec, -⟩ := hs
  have hne : e ≠ .none := by rintro rfl; simp at he
  exact ⟨henc, iff_of_true rfl hne, hc, hec, List.mem_cons_of_mem _ he⟩

/-- A run of FEEDs writes no error field. -/
theorem ErrorInv.feedBits (hs : ErrorInv s) {bs : Bits} {u : State} (hu : feedBits bs s = .ok u) : ErrorInv u := by
  obtain ⟨_, _, _, _, rfl⟩ := feedBits_update hu
  exact hs

/-- The commit of a decoder message without an error. -/
theorem ErrorInv.commitDecoder (hs : ErrorInv s) (ha : s.decSt = .active) (pend : List Byte) :
    ErrorInv (commitDecoder pend s) := by
  obtain ⟨henc, hdec, hc, hec, hdc⟩ := hs
  exact ⟨henc, by simpa [Machine.commitDecoder, ha] using hdec, hc, hec, hdc⟩

/-- Every command keeps the error fields fitting the unit states (`60_exceptions.md` R221, R227). -/
theorem ErrorInv.command (hs : ErrorInv s) (h : CommandEffect s c t) : ErrorInv t := by
  obtain ⟨henc, hdec, hc, hec, hdc⟩ := id hs
  have hnone {l : List ErrCode} : ErrCode.none ∈ .none :: l := List.mem_cons_self
  cases h with
  | tableLocked | busy => exact hs.cmdError (by decide)
  | reset => exact ⟨iff_of_false nofun (· rfl), iff_of_false nofun (· rfl), hnone, hnone, hnone⟩
  | clrErr => exact ⟨henc, hdec, hnone, hec, hdc⟩
  | encFailed _ _ _ e he => exact hs.encFail (by rcases he with rfl | rfl | rfl <;> decide)
  | unknownSymbol sym => exact ErrorInv.encFail (s := { s with encErrsym := sym }) hs (by decide)
  | encStart hi => exact ⟨by simpa [hi] using henc, hdec, hc, hec, hdc⟩
  | encEnd ha => exact ⟨by simpa [commitEncoder, ha] using henc, hdec, hc, hec, hdc⟩
  | encAbort => exact ⟨iff_of_false nofun (· rfl), hdec, hc, hnone, hdc⟩
  | decStartFailed _ e he => exact hs.decFail (by rcases he with rfl | rfl | ⟨rfl, -⟩ <;> decide)
  | decStart hi => exact ⟨henc, by simpa [hi] using hdec, hc, hec, hdc⟩
  | byteInIdle | malformedPadding | degenerateOverflow => exact hs.decFail (by decide)
  | fed _ _ _ hu => exact hs.feedBits hu
  | feedFailed _ _ _ _ _ _ _ _ _ hu e _ he => exact (hs.feedBits hu).decFail (by fin_cases he <;> decide)
  | truncated _ _ _ _ _ hu => exact (hs.feedBits hu).decFail (by decide)
  | degenerateCommit _ ha => exact ErrorInv.commitDecoder (s := { s with decNsym := s.degCount }) hs ha _
  | decCommit _ ha _ _ _ hu =>
    refine (hs.feedBits hu).commitDecoder ?_ _
    obtain ⟨_, _, _, _, rfl⟩ := feedBits_update hu
    exact ha
  | decAbort => exact ⟨henc, iff_of_false nofun (· rfl), hc, hec, hnone⟩
  | _ => exact hs

/-! ## The counters of a message (`43_encoder.md` R156, `44_decoder.md` R173) -/

/-- Every command keeps the counters of a message equal to its pending output: within the legal depths they do not
wrap. -/
theorem CountersInv.command (hs : CountersInv s) (hcfg : s.cfg.Valid) (henc : EncoderInv s) (hdec : DecoderInv s)
    (h : CommandEffect s c t) : CountersInv t := by
  obtain ⟨he, hd⟩ := hs
  obtain ⟨⟨-, hcap⟩, -, hdcap⟩ := hcfg
  cases h with
  | tableLocked | busy => rw [cmdError_eq]; exact ⟨he, hd⟩
  | reset => exact ⟨nofun, nofun⟩
  | encFailed | unknownSymbol | encEnd | encAbort => exact ⟨nofun, hd⟩
  | encStart => exact ⟨fun _ => rfl, hd⟩
  | encSym sym ha hv hr =>
    refine ⟨fun _ => ?_, hd⟩
    have hlen := (cwEntry s sym).len.isLt
    obtain ⟨hacc, -⟩ := henc
    rw [appendCodeword_encAcc_length, appendCodeword_encPend_length]
    simp only [appendCodeword, counterAddLen, completedBytes] at hr ⊢
    rw [BitVec.toNat_add, he ha, BitVec.toNat_setWidth]
    omega
  | decStart => exact ⟨he, fun _ => rfl⟩
  | decStartFailed | byteInIdle | malformedPadding | degenerateOverflow | degenerateCommit | decAbort =>
    exact ⟨he, nofun⟩
  | fed _ ha _ hu =>
    obtain ⟨_, hroom⟩ := hdec
    obtain ⟨out, hu, hout, -⟩ := feedBits_ok hu
    rw [hu]
    refine ⟨he, fun _ => ?_⟩
    have := hd ha
    have hlen : s.decPend.length + out.length ≤ 2 ^ 24 := by
      rcases hout with rfl | hout
      · simp; omega
      · omega
    simp only [BitVec.toNat_add, BitVec.toNat_ofNat, List.length_append]
    omega
  | feedFailed _ _ _ _ _ _ _ _ _ hu | truncated _ _ _ _ _ hu | decCommit _ _ _ _ _ hu =>
    obtain ⟨_, _, _, _, rfl⟩ := feedBits_update hu
    exact ⟨he, nofun⟩
  | _ => exact ⟨he, hd⟩

/-! ## The machine's invariant -/

/-- Every command keeps the machine's invariant. -/
theorem MachineInv.command (hs : MachineInv s) (h : CommandEffect s c t) : MachineInv t := by
  obtain ⟨hcfg, htab, henc, hdec, hlock, herr, hcount⟩ := hs
  exact ⟨h.cfg_eq ▸ hcfg, htab.command h, henc.command h, hdec.command h, hlock.command h, herr.command h,
    hcount.command hcfg henc hdec h⟩

/-- An illegal word keeps the machine's invariant. -/
theorem MachineInv.illegal (hs : MachineInv s) : MachineInv (cmdError .illegalCmd s) := by
  obtain ⟨hcfg, htab, henc, hdec, hlock, herr, hcount⟩ := hs
  have herr := herr.cmdError (e := .illegalCmd) (by decide)
  rw [cmdError_eq] at herr ⊢
  exact ⟨hcfg, htab, henc, hdec, hlock, herr, hcount⟩

/-- Settles O49: commands, pops, illegal words and the port keep the machine's invariant. -/
theorem invariantKept : Obligations.InvariantKept := by
  intro s t hs h
  refine step_invariant hs h (fun _ _ _ _ hs => hs) ?encPop ?decPop (fun _ _ hs => hs) (fun _ hs => hs.illegal)
    (fun _ _ _ hs hc => hs.command hc)
  case encPop =>
    rintro s e rest ⟨hcfg, htab, henc, hinv⟩ hq
    exact ⟨hcfg, htab, henc.encPop hq, hinv⟩
  case decPop =>
    rintro s e rest ⟨hcfg, htab, henc, hdec, hinv⟩ hq
    exact ⟨hcfg, htab, henc, hdec.decPop hq, hinv⟩

/-- The state after reset of a block with legal depths has the machine's invariant. -/
theorem machineInv_resetWith {cfg : Config} (h : cfg.Valid) : MachineInv (State.resetWith cfg) := by
  refine ⟨h, ⟨rfl, rfl⟩, ⟨Nat.zero_lt_succ 7, fun _ => ⟨rfl, rfl⟩, Nat.zero_le _⟩, ⟨fun _ => rfl, Nat.zero_le _⟩,
    ⟨nofun, nofun⟩, ?_, ⟨nofun, nofun⟩⟩
  simp [ErrorInv, State.resetWith]

/-- Settles O50: the depths of `State.reset` are legal. -/
theorem resetStateHasInvariant : Obligations.ResetStateHasInvariant :=
  ⟨machineInv_resetWith (by decide), fun _ => machineInv_resetWith⟩

end Sys2Proof.Machine
end

section
/-! SUPPORT. STATUS (`10_state.md` R24, R53) and the counters (R32 to R38): their fields, and which commands write them. -/

namespace Sys2Proof.Machine

variable {s t : State} {c i : Instr}

/-! ## STATUS, field by field (`10_state.md` R24) -/

/-- Every field of STATUS is read back at its place, and the bits between are 0. -/
theorem statusWord_fields (s : State) :
    (statusWord s).getLsbD 0 = s.locked ∧
      (statusWord s).extractLsb' 1 2 = s.encSt.code ∧
      (statusWord s).extractLsb' 3 2 = s.decSt.code ∧
      (statusWord s).extractLsb' 5 3 = 0 ∧
      (statusWord s).extractLsb' 8 4 = s.encErr.code ∧
      (statusWord s).extractLsb' 12 4 = s.decErr.code ∧
      (statusWord s).extractLsb' 16 4 = s.cmdErr.code ∧
      (statusWord s).getLsbD 20 = s.root.v ∧
      (statusWord s).getLsbD 21 = (if s.root.v then s.root.leaf else false) ∧
      (statusWord s).extractLsb' 22 10 = 0 := by
  refine ⟨?_, ?_, ?_, ?_, ?_, ?_, ?_, ?_, ?_, ?_⟩ <;>
    simp (disch := omega) [statusWord, BitVec.extractLsb'_or, extractLsb'_placeField_same,
      extractLsb'_placeField_disjoint, placeField_getElem, rootLeafFlag]

/-- A write at STATUS's offset is a write that has no effect (`45_register_access.md` R213). -/
theorem decodeAccess_write_status {a : Byte} (h : a &&& 0xFC = 0x08) (w : Word) :
    decodeAccess (.write a w) = .wrIgnored08 a w := by
  have hhits : ∀ a : Byte, a &&& 0xFC = 0x08 → ((1#1 ++ a) &&& 0x1F8#9 == 0x108#9) = true := by decide +kernel
  exact decodeAccess_of_hits (r := ⟨0x108, 0x1F8, .wrIgnored08⟩) (by simp [accessRows, writeRows]) (hhits a h)

/-! ## What clears an error field -/

/-- Of the commands only ENC_ABORT and RESET clear the encoder's error. -/
theorem CommandEffect.encErr_cleared (h : CommandEffect s c t) (hs : s.encErr ≠ .none) (ht : t.encErr = .none) :
    c = .encAbort ∨ c = .reset := by
  cases h with
  | tableLocked | busy => exact absurd (cmdError_encErr _ _ ▸ ht) hs
  | encAbort => exact .inl rfl
  | reset => exact .inr rfl
  | encFailed _ _ _ e he => rcases he with rfl | rfl | rfl <;> cases ht
  | unknownSymbol => cases ht
  | fed _ _ _ hu | feedFailed _ _ _ _ _ _ _ _ _ hu | truncated _ _ _ _ _ hu | decCommit _ _ _ _ _ hu =>
    obtain ⟨_, _, _, _, rfl⟩ := feedBits_update hu
    exact absurd ht hs
  | _ => exact absurd ht hs

/-- Of the commands only DEC_ABORT and RESET clear the decoder's error. -/
theorem CommandEffect.decErr_cleared (h : CommandEffect s c t) (hs : s.decErr ≠ .none) (ht : t.decErr = .none) :
    c = .decAbort ∨ c = .reset := by
  cases h with
  | tableLocked | busy => exact absurd (cmdError_decErr _ _ ▸ ht) hs
  | decAbort => exact .inl rfl
  | reset => exact .inr rfl
  | decStartFailed _ e he => rcases he with rfl | rfl | ⟨rfl, -⟩ <;> cases ht
  | byteInIdle | malformedPadding | degenerateOverflow | truncated => cases ht
  | feedFailed _ _ _ _ _ _ _ _ _ _ e _ he => fin_cases he <;> cases ht
  | fed _ _ _ hu | decCommit _ _ _ _ _ hu =>
    obtain ⟨_, _, _, _, rfl⟩ := feedBits_update hu
    exact absurd ht hs
  | _ => exact absurd ht hs

/-- Which instructions write CMD_ERR, and to what. -/
theorem InstrEffect.cmdErr_cases (h : InstrEffect s i t) :
    t.cmdErr = s.cmdErr ∨
      (s.cmdErr = .none ∧ t.cmdErr = .tableLocked ∧ s.locked = true ∧ ∃ c, TableLoadCommand c ∧ Performs i c) ∨
      (s.cmdErr = .none ∧ t.cmdErr = .busy ∧ (s.encSt = .active ∨ s.decSt = .active) ∧ Performs i .unlock) ∨
      (s.cmdErr = .none ∧ t.cmdErr = .illegalCmd ∧ ∃ a w, i = .wrCmd a w ∧ ∀ c, decodeCommand w ≠ .ok c) ∨
      (t.cmdErr = .none ∧ (Performs i .clrErr ∨ Performs i .reset)) := by
  cases h with
  | command c hp hc =>
    rcases hc.cmdErr_cases with he | ⟨hs, ht, hl, hcc⟩ | ⟨hs, ht, ha, rfl⟩ | ⟨ht, rfl | rfl⟩
    · exact .inl he
    · exact .inr (.inl ⟨hs, ht, hl, c, hcc, hp⟩)
    · exact .inr (.inr (.inl ⟨hs, ht, ha, hp⟩))
    · exact .inr (.inr (.inr (.inr ⟨ht, .inl hp⟩)))
    · exact .inr (.inr (.inr (.inr ⟨ht, .inr hp⟩)))
  | illegal a w hi hw =>
    by_cases hs : s.cmdErr = .none
    · exact .inr (.inr (.inr (.inl ⟨hs, by simp [hs], a, w, hi, hw⟩)))
    · exact .inl (by simp [hs])
  | _ => exact .inl rfl

/-- Settles O29: the fields of STATUS, its ignored write, and the three ways to clear an error. -/
theorem statusFields : Obligations.StatusFields := by
  refine fun s => ⟨statusWord_fields s, rfl, rfl, fun a w ha => by rw [decodeAccess_write_status ha]; rfl,
    fun i t h => ⟨fun hs ht => ?_, fun hs ht => ?_, fun hs ht => ?_⟩⟩
  · rcases (exec_effect h).cmdErr_cases with he | ⟨hn, -⟩ | ⟨hn, -⟩ | ⟨hn, -⟩ | ⟨-, hp⟩
    · exact absurd (he ▸ ht) hs
    · exact absurd hn hs
    · exact absurd hn hs
    · exact absurd hn hs
    · exact hp
  · rcases (exec_effect h).command_or_frame with ⟨c, hp, hc⟩ | hf
    · rcases hc.encErr_cleared hs ht with rfl | rfl
      · exact .inl hp
      · exact .inr hp
    · exact absurd ((congrArg State.encErr hf).symm.trans ht) hs
  · rcases (exec_effect h).command_or_frame with ⟨c, hp, hc⟩ | hf
    · rcases hc.decErr_cleared hs ht with rfl | rfl
      · exact .inl hp
      · exact .inr hp
    · exact absurd ((congrArg State.decErr hf).symm.trans ht) hs

/-! ## The writers of STATUS (`10_state.md` R53) -/

/-- Settles O42: the commands that write each field of STATUS; an access that performs none writes only CMD_ERR. -/
theorem statusFieldWriters : Obligations.StatusFieldWriters := by
  intro i s t h
  have hcmdErr := fun hne => (exec_effect h).cmdErr_cases.resolve_left hne
  rcases (exec_effect h).command_or_frame with ⟨c, hp, hc⟩ | hf
  · refine ⟨fun hne => ?locked, fun hne => ?encoder, fun hne => ?decoder, hcmdErr, fun hne => ?root⟩
    case locked =>
      rcases hc.locked_cases with he | ⟨rfl, ht⟩ | ⟨rfl, ht, hidle⟩ | ⟨rfl, ht⟩
      · exact absurd he hne
      · exact .inl ⟨hp, ht⟩
      · exact .inr (.inl ⟨hp, ht, hidle⟩)
      · exact .inr (.inr ⟨hp, ht⟩)
    case encoder =>
      rcases hc.encoderView_cases with hv | (rfl | ⟨x, rfl⟩ | rfl | rfl) | rfl
      · simp only [encoderView, Prod.mk.injEq] at hv
        exact absurd hne (by simp [hv])
      · exact .inl hp
      · exact .inr (.inl ⟨x, hp⟩)
      · exact .inr (.inr (.inl hp))
      · exact .inr (.inr (.inr (.inl hp)))
      · exact .inr (.inr (.inr (.inr hp)))
    case decoder =>
      rcases hc.decoderView_cases with hv | (rfl | ⟨last, byte, rfl⟩ | rfl) | rfl
      · simp only [decoderView, Prod.mk.injEq] at hv
        exact absurd hne (by simp [hv])
      · exact .inl hp
      · exact .inr (.inl ⟨last, byte, hp⟩)
      · exact .inr (.inr (.inl hp))
      · exact .inr (.inr (.inr hp))
    case root =>
      rcases hc.root_cases with he | ⟨-, leaf, ref, rfl⟩ | rfl
      · exact absurd he hne
      · exact .inl ⟨leaf, ref, hp⟩
      · exact .inr hp
  · refine ⟨fun hne => absurd (congrArg State.locked hf) hne, fun hne => absurd hne ?_, fun hne => absurd hne ?_,
      hcmdErr, fun hne => absurd (congrArg State.root hf) hne⟩
    · simp [congrArg State.encSt hf, congrArg State.encErr hf]
    · simp [congrArg State.decSt hf, congrArg State.decErr hf]

/-! ## The writers of the counters (`10_state.md` R32 to R38) -/

/-- What the commands do to the encoder's counters. -/
theorem CommandEffect.encCounters_cases (h : CommandEffect s c t) :
    (t.encNsym = s.encNsym ∧ t.encNbits = s.encNbits) ∨
      (c = .encStart ∧ t.encNsym = 0 ∧ t.encNbits = 0) ∨
      (∃ x, c = .encSym x ∧ t.encNsym = s.encNsym + 1 ∧
        t.encNbits = s.encNbits + (cwEntry s x).len.setWidth 32) ∨
      (c = .reset ∧ t.encNsym = 0 ∧ t.encNbits = 0) := by
  cases h with
  | tableLocked | busy => exact .inl ⟨cmdError_encNsym _ _, cmdError_encNbits _ _⟩
  | encStart => exact .inr (.inl ⟨rfl, rfl, rfl⟩)
  | encSym sym => exact .inr (.inr (.inl ⟨sym, rfl, rfl, rfl⟩))
  | reset => exact .inr (.inr (.inr ⟨rfl, rfl, rfl⟩))
  | fed _ _ _ hu | feedFailed _ _ _ _ _ _ _ _ _ hu | truncated _ _ _ _ _ hu | decCommit _ _ _ _ _ hu =>
    obtain ⟨_, _, _, _, rfl⟩ := feedBits_update hu
    exact .inl ⟨rfl, rfl⟩
  | _ => exact .inl ⟨rfl, rfl⟩

/-- What the commands do to ENC_ERRSYM. -/
theorem CommandEffect.encErrsym_cases (h : CommandEffect s c t) :
    t.encErrsym = s.encErrsym ∨ (∃ x, c = .encSym x ∧ t.encErr = .unknownSymbol ∧ t.encErrsym = x) ∨
      (c = .reset ∧ t.encErrsym = 0) := by
  cases h with
  | tableLocked | busy => exact .inl (cmdError_encErrsym _ _)
  | unknownSymbol sym => exact .inr (.inl ⟨sym, rfl, rfl, rfl⟩)
  | reset => exact .inr (.inr ⟨rfl, rfl⟩)
  | fed _ _ _ hu | feedFailed _ _ _ _ _ _ _ _ _ hu | truncated _ _ _ _ _ hu | decCommit _ _ _ _ _ hu =>
    obtain ⟨_, _, _, _, rfl⟩ := feedBits_update hu
    exact .inl rfl
  | _ => exact .inl rfl

/-- DEG_COUNT is no command's to write but RESET's (`10_state.md` R38). -/
theorem CommandEffect.degCount_cases (h : CommandEffect s c t) :
    t.degCount = s.degCount ∨ (c = .reset ∧ t.degCount = 0) := by
  cases h with
  | tableLocked | busy => exact .inl (cmdError_degCount _ _)
  | reset => exact .inr ⟨rfl, rfl⟩
  | fed _ _ _ hu | feedFailed _ _ _ _ _ _ _ _ _ hu | truncated _ _ _ _ _ hu | decCommit _ _ _ _ _ hu =>
    obtain ⟨_, _, _, _, rfl⟩ := feedBits_update hu
    exact .inl rfl
  | _ => exact .inl rfl

/-- The decoder's counters after a DEC_BYTE during a message (`44_decoder.md` R174): as the FEEDs of its byte leave them,
up to the end of the payload or the first failure, and DEC_NSYM from DEG_COUNT when they commit a degenerate message. -/
def FedCounters (last : Bool) (byte : Byte) (s t : State) : Prop :=
  s.decSt = .active ∧
    ∃ bs rest u, bytePayload last byte = bs ++ rest ∧ feedBits bs s = .ok u ∧
      (rest = [] ∨ ∃ b bs' e, rest = b :: bs' ∧ feed b u = .error e) ∧
      t.decNbits = s.decNbits + BitVec.ofNat 32 bs.length ∧
      (t.decNsym = u.decNsym ∨
        (last = true ∧ byte ≠ 0 ∧ s.root.leaf = true ∧ rest = [] ∧ t.decSt = .idle ∧ t.decNsym = s.degCount))

/-- FEEDs without failure count the bits they consume (`10_state.md` R36). -/
theorem feedBits_decNbits {bs : Bits} {u : State} (hu : feedBits bs s = .ok u) :
    u.decNbits = s.decNbits + BitVec.ofNat 32 bs.length := by
  obtain ⟨out, hu, -⟩ := feedBits_ok hu
  rw [hu]

/-- What the commands do to the decoder's counters. -/
theorem CommandEffect.decCounters_cases (h : CommandEffect s c t) :
    (t.decNsym = s.decNsym ∧ t.decNbits = s.decNbits) ∨
      (c = .decStart ∧ t.decNsym = 0 ∧ t.decNbits = 0) ∨
      (∃ last byte, c = .decByte last byte ∧ FedCounters last byte s t) ∨
      (c = .reset ∧ t.decNsym = 0 ∧ t.decNbits = 0) := by
  cases h with
  | tableLocked | busy => exact .inl ⟨cmdError_decNsym _ _, cmdError_decNbits _ _⟩
  | decStart => exact .inr (.inl ⟨rfl, rfl, rfl⟩)
  | fed byte ha u hu =>
    have hbits := feedBits_decNbits hu
    exact .inr (.inr (.inl ⟨false, byte, rfl, ha, byteBits byte, [], _, (List.append_nil _).symm, hu, .inl rfl,
      hbits, .inl rfl⟩))
  | feedFailed last byte ha _ pre b rest u hp hu e hf =>
    have hbits := feedBits_decNbits hu
    exact .inr (.inr (.inl ⟨last, byte, rfl, ha, pre, b :: rest, u, hp, hu, .inr ⟨b, rest, _, rfl, hf⟩,
      hbits, .inl rfl⟩))
  | truncated byte ha _ _ u hu | decCommit byte ha _ _ u hu =>
    have hbits := feedBits_decNbits hu
    exact .inr (.inr (.inl ⟨true, byte, rfl, ha, finalPayload byte, [], u, (List.append_nil _).symm, hu, .inl rfl,
      hbits, .inl rfl⟩))
  | degenerateCommit byte ha hz hleaf hu =>
    have hbits := feedBits_decNbits hu
    exact .inr (.inr (.inl ⟨true, byte, rfl, ha, finalPayload byte, [], s, (List.append_nil _).symm, hu, .inl rfl,
      hbits, .inr ⟨rfl, hz, hleaf, rfl, rfl, rfl⟩⟩))
  | reset => exact .inr (.inr (.inr ⟨rfl, rfl, rfl⟩))
  | _ => exact .inl ⟨rfl, rfl⟩

/-- What the instructions do to DEG_COUNT. -/
theorem InstrEffect.degCount_cases (h : InstrEffect s i t) :
    t.degCount = s.degCount ∨ (∃ a w, i = .wrDegCount a w ∧ t.degCount = w) ∨ (Performs i .reset ∧ t.degCount = 0) := by
  cases h with
  | command c hp hc =>
    rcases hc.degCount_cases with he | ⟨rfl, ht⟩
    · exact .inl he
    · exact .inr (.inr ⟨hp, ht⟩)
  | degCount a w hi => exact .inr (.inl ⟨a, w, hi, rfl⟩)
  | illegal => exact .inl (cmdError_degCount _ _)
  | _ => exact .inl rfl

/-- Settles O43: the commands that write each counter; an access that performs none writes only DEG_COUNT. -/
theorem counterWriters : Obligations.CounterWriters := by
  intro i s t h
  have hdeg := fun hne => (exec_effect h).degCount_cases.resolve_left hne
  rcases (exec_effect h).command_or_frame with ⟨c, hp, hc⟩ | hf
  · refine ⟨fun hne => ?encNsym, fun hne => ?encNbits, fun hne => ?encErrsym, fun hne => ?decoder, hdeg⟩
    case encNsym =>
      rcases hc.encCounters_cases with ⟨he, -⟩ | ⟨rfl, ht, -⟩ | ⟨x, rfl, ht, -⟩ | ⟨rfl, ht, -⟩
      · exact absurd he hne
      · exact .inl ⟨hp, ht⟩
      · exact .inr (.inl ⟨x, hp, ht⟩)
      · exact .inr (.inr ⟨hp, ht⟩)
    case encNbits =>
      rcases hc.encCounters_cases with ⟨-, he⟩ | ⟨rfl, -, ht⟩ | ⟨x, rfl, -, ht⟩ | ⟨rfl, -, ht⟩
      · exact absurd he hne
      · exact .inl ⟨hp, ht⟩
      · exact .inr (.inl ⟨x, hp, ht⟩)
      · exact .inr (.inr ⟨hp, ht⟩)
    case encErrsym =>
      rcases hc.encErrsym_cases with he | ⟨x, rfl, ht⟩ | ⟨rfl, ht⟩
      · exact absurd he hne
      · exact .inl ⟨x, hp, ht⟩
      · exact .inr ⟨hp, ht⟩
    case decoder =>
      rcases hc.decCounters_cases with ⟨hsym, hbits⟩ | ⟨rfl, ht⟩ | ⟨last, byte, rfl, ht⟩ | ⟨rfl, ht⟩
      · exact absurd hne (by simp [hsym, hbits])
      · exact .inl ⟨hp, ht⟩
      · exact .inr (.inl ⟨last, byte, hp, ht⟩)
      · exact .inr (.inr ⟨hp, ht⟩)
  · refine ⟨fun hne => absurd (congrArg State.encNsym hf) hne, fun hne => absurd (congrArg State.encNbits hf) hne,
      fun hne => absurd (congrArg State.encErrsym hf) hne, fun hne => absurd hne ?_, hdeg⟩
    simp [congrArg State.decNsym hf, congrArg State.decNbits hf]

end Sys2Proof.Machine
end

section
/-! SUPPORT. The port (`20_memory.md` R62, R66): every instruction answers a next state, and the low two bits of an
offset play no part in an access. -/

namespace Sys2Proof.Machine

/-! ## Every instruction answers a next state (`45_register_access.md` R215) -/

/-- A test between two meanings that answer a next state answers one. -/
theorem exists_next_ite {p : Prop} [Decidable p] {x y : Result} (hx : ∃ t, x = .next t) (hy : ∃ t, y = .next t) :
    ∃ t, (if p then x else y) = .next t := by
  split
  · exact hx
  · exact hy

/-- Every command answers a next state: each of its branches does. -/
theorem exec_command_completes {c : Instr} (hc : isCommand c = true) (s : State) : ∃ t, exec c s = .next t := by
  cases c with
  | unlock => exact exists_next_ite ⟨_, rfl⟩ ⟨_, rfl⟩
  | encStart | encEnd | decByte =>
    exact exists_next_ite ⟨_, rfl⟩ (exists_next_ite ⟨_, rfl⟩ (exists_next_ite ⟨_, rfl⟩ ⟨_, rfl⟩))
  | encSym | decStart =>
    exact exists_next_ite ⟨_, rfl⟩ (exists_next_ite ⟨_, rfl⟩ (exists_next_ite ⟨_, rfl⟩
      (exists_next_ite ⟨_, rfl⟩ ⟨_, rfl⟩)))
  | nop | reset | clrErr | cwDef | cwBits | nodeL | nodeR | treeRoot | lock | encAbort | decAbort => exact ⟨_, rfl⟩
  | _ => cases hc

/-- Every instruction answers a next state: a pop answers from an empty queue too, and an illegal word only records its
error. -/
theorem exec_completes (i : Instr) (s : State) : ∃ t, exec i s = .next t := by
  cases hc : isCommand i with
  | true => exact exec_command_completes hc s
  | false =>
    cases i with
    | rdEncOut | rdDecOut =>
      simp only [exec, execRdEncOut, execRdDecOut]
      split <;> exact ⟨_, rfl⟩
    | wrCmd a w =>
      rcases execWrCmd_cases a w s with ⟨-, hx⟩ | ⟨c, -, hcc, hx⟩
      · exact ⟨_, hx⟩
      · rw [hx]; exact exec_command_completes hcc s
    | rdId | rdCmd | rdStatus | rdEncNsym | rdEncNbits | rdEncErrsym | rdDecNsym | rdDecNbits | rdDegCount | rdEncOlevel
    | rdDecOlevel | rdEncCap | rdDecCap | rdRsvd3C | rdRsvd40 | rdRsvd80 | wrDegCount | wrIgnored00 | wrIgnored08
    | wrIgnored10 | wrIgnored20 | wrIgnored2C | wrIgnored30 | wrIgnored40 | wrIgnored80 => exact ⟨_, rfl⟩
    | _ => cases hc

/-! ## The low two bits of an offset (`20_memory.md` R66) -/

/-- No access row tests the low two bits of the descriptor. -/
theorem accessRow_hits_congr {r : AccessRow} (hr : r ∈ accessRows) {d d' : BitVec 9} (h : d &&& 0x1FC = d' &&& 0x1FC) :
    r.hits d = r.hits d' := by
  have hmask : r.mask = 0x1FC &&& r.mask := by fin_cases hr <;> rfl
  simp only [AccessRow.hits]
  rw [hmask, ← BitVec.and_assoc, ← BitVec.and_assoc, h]

/-- Within one access row the offset plays no part in the meaning. -/
theorem exec_accessRow_congr {r : AccessRow} (hr : r ∈ accessRows) (a a' : Byte) (w : Word) (s : State) :
    exec (r.build a w) s = exec (r.build a' w) s := by
  fin_cases hr <;> rfl

/-- Two accesses with the same write data whose descriptors agree above the low two bits have one meaning: the row that
takes the one takes the other. -/
theorem exec_decodeAccess_congr {x y : Access} (hd : x.descriptor &&& 0x1FC = y.descriptor &&& 0x1FC)
    (hw : x.wdata = y.wdata) (s : State) : exec (decodeAccess x) s = exec (decodeAccess y) s := by
  obtain ⟨r, hr, hx, hdx⟩ := decodeAccess_eq x
  have hy : r.hits y.descriptor = true := accessRow_hits_congr hr hd ▸ hx
  rw [hdx, decodeAccess_of_hits hr hy, hw]
  exact exec_accessRow_congr hr _ _ _ s

/-- Offsets with the same word address give descriptors that agree above the low two bits. -/
theorem descriptor_masked_congr {a a' : Byte} (h : a.extractLsb' 2 6 = a'.extractLsb' 2 6) (we : BitVec 1) :
    (we ++ a) &&& 0x1FC = (we ++ a') &&& 0x1FC := by
  have hword : ∀ b : Byte, b &&& 0xFC#8 = b.extractLsb' 2 6 ++ 0#2 := by decide +kernel
  have hmask : (0x1FC : BitVec 9) = 1#1 ++ 0xFC#8 := rfl
  rw [hmask, BitVec.and_append, BitVec.and_append, hword, hword, h]

/-- Settles O34: both accesses decode by one row, whose meaning does not read the offset. -/
theorem lowAddressBitsIgnored : Obligations.LowAddressBitsIgnored := by
  intro s a a' h
  refine ⟨?_, fun w => ?_⟩
  · obtain ⟨t, ht⟩ := exec_completes (decodeAccess (.read a)) s
    exact ⟨t, ht, exec_decodeAccess_congr (x := .read a) (y := .read a') (descriptor_masked_congr h 0) rfl s ▸ ht⟩
  · obtain ⟨t, ht⟩ := exec_completes (decodeAccess (.write a w)) s
    exact ⟨t, ht, exec_decodeAccess_congr (x := .write a w) (y := .write a' w) (descriptor_masked_congr h 1) rfl s ▸ ht⟩

end Sys2Proof.Machine
end

section
/-! SUPPORT. What writes the output queues (`20_memory.md` R61, R78), and what holds the Compiled Code fixed during a
message (R75). -/

namespace Sys2Proof.Machine

variable {s t : State} {c : Instr}

/-! ## The queues (`20_memory.md` R78) -/

/-- ENC_END commits the pending bytes and one final byte, tagged (`43_encoder.md` R156). -/
theorem commitEncoder_encQ (s : State) : ∃ final, (commitEncoder s).encQ =
    s.encQ ++ (s.encPend.map (fun b => (b, false)) ++ [(final, true)]) :=
  ⟨_, congrArg (s.encQ ++ ·) (tagLast_append_singleton _ _)⟩

/-- What the commands do to the encoder's queue. -/
theorem CommandEffect.encQ_cases (h : CommandEffect s c t) :
    t.encQ = s.encQ ∨
      (c = .encEnd ∧ s.encSt = .active ∧ t.encSt = .idle ∧
        ∃ final, t.encQ = s.encQ ++ (s.encPend.map (fun b => (b, false)) ++ [(final, true)])) ∨
      (c = .reset ∧ t.encQ = []) := by
  cases h with
  | tableLocked | busy => exact .inl (cmdError_encQ _ _)
  | encEnd ha => exact .inr (.inl ⟨rfl, ha, rfl, commitEncoder_encQ s⟩)
  | reset => exact .inr (.inr ⟨rfl, rfl⟩)
  | fed _ _ _ hu | feedFailed _ _ _ _ _ _ _ _ _ hu | truncated _ _ _ _ _ hu | decCommit _ _ _ _ _ hu =>
    obtain ⟨_, _, _, _, rfl⟩ := feedBits_update hu
    exact .inl rfl
  | _ => exact .inl rfl

/-- During a message FEEDs without failure keep DEC_NSYM at the number of pending symbols: within the legal depths it
does not wrap. -/
theorem feedBits_decNsym_toNat {bs : Bits} {u : State} (hs : MachineInv s) (ha : s.decSt = .active)
    (hu : feedBits bs s = .ok u) : u.decNsym.toNat = u.decPend.length := by
  obtain ⟨⟨-, -, hcap⟩, -, -, ⟨-, hfit⟩, -, -, -, hcount⟩ := hs
  have hsym := hcount ha
  have hroom := feedBits_room hu hfit
  obtain ⟨out, hu, -⟩ := feedBits_ok hu
  rw [hu] at hroom ⊢
  simp only [List.length_append, BitVec.toNat_add, BitVec.toNat_ofNat] at hroom ⊢
  omega

/-- What the commands do to the decoder's queue. -/
theorem CommandEffect.decQ_cases (h : CommandEffect s c t) :
    t.decQ = s.decQ ∨
      ((∃ b, c = .decByte true b) ∧ s.decSt = .active ∧ t.decSt = .idle ∧
        ∃ out, t.decQ = s.decQ ++ tagLast out ∧ (MachineInv s → t.decNsym.toNat = out.length)) ∨
      (c = .reset ∧ t.decQ = []) := by
  cases h with
  | tableLocked | busy => exact .inl (cmdError_decQ _ _)
  | degenerateCommit byte ha =>
    exact .inr (.inl ⟨⟨byte, rfl⟩, ha, rfl, _, rfl, fun _ => List.length_replicate.symm⟩)
  | decCommit byte ha _ _ u hu =>
    have hsym := fun hs => feedBits_decNsym_toNat hs ha hu
    have hq : u.decQ = s.decQ := by obtain ⟨_, _, _, _, rfl⟩ := feedBits_update hu; rfl
    exact .inr (.inl ⟨⟨byte, rfl⟩, ha, rfl, u.decPend, congrArg (· ++ _) hq, hsym⟩)
  | reset => exact .inr (.inr ⟨rfl, rfl⟩)
  | fed _ _ _ hu | feedFailed _ _ _ _ _ _ _ _ _ hu | truncated _ _ _ _ _ hu =>
    obtain ⟨_, _, _, _, rfl⟩ := feedBits_update hu
    exact .inl rfl
  | _ => exact .inl rfl

/-- Settles O44: a command commits or resets, an access pops, and nothing else writes a queue. -/
theorem queueWriters : Obligations.QueueWriters := by
  intro i s t h
  cases exec_effect h with
  | command c hp hc =>
    refine ⟨fun hne => ?_, fun hne => ?_⟩
    · rcases hc.encQ_cases with he | ⟨rfl, hcommit⟩ | ⟨rfl, ht⟩
      · exact absurd he hne
      · exact .inl ⟨hp, hcommit⟩
      · exact .inr (.inr ⟨hp, ht⟩)
    · rcases hc.decQ_cases with he | ⟨⟨b, rfl⟩, hcommit⟩ | ⟨rfl, ht⟩
      · exact absurd he hne
      · exact .inl ⟨⟨b, hp⟩, hcommit⟩
      · exact .inr (.inr ⟨hp, ht⟩)
  | encPop a hi e rest hq =>
    exact ⟨fun _ => .inr (.inl ⟨⟨a, hi⟩, (congrArg List.tail hq).symm⟩), fun hne => absurd rfl hne⟩
  | decPop a hi e rest hq =>
    exact ⟨fun hne => absurd rfl hne, fun _ => .inr (.inl ⟨⟨a, hi⟩, (congrArg List.tail hq).symm⟩)⟩
  | illegal => exact ⟨fun hne => absurd (cmdError_encQ _ _) hne, fun hne => absurd (cmdError_decQ _ _) hne⟩
  | _ => exact ⟨fun hne => absurd rfl hne, fun hne => absurd rfl hne⟩

/-! ## The Compiled Code during a message (`20_memory.md` R75) -/

/-- While the block is locked no command but RESET writes the Compiled Code. -/
theorem CommandEffect.compiledCode_of_locked (h : CommandEffect s c t) (hl : s.locked = true) (hr : c ≠ .reset) :
    t.cwt = s.cwt ∧ t.nt = s.nt ∧ t.root = s.root := by
  refine ⟨?_, ?_, ?_⟩
  · simpa [hl, hr] using h.cwt_cases
  · simpa [hl, hr] using h.nt_cases
  · simpa [hl, hr] using h.root_cases

/-- While a unit is ACTIVE no command but RESET unlocks the block: UNLOCK is refused with BUSY. -/
theorem CommandEffect.locked_of_active (h : CommandEffect s c t) (hl : s.locked = true)
    (ha : s.encSt = .active ∨ s.decSt = .active) (hr : c ≠ .reset) : t.locked = true := by
  rcases h.locked_cases with he | ⟨-, ht⟩ | ⟨-, -, he, hd⟩ | ⟨hc, -⟩
  · exact he.trans hl
  · exact ht
  · exact absurd ha (not_or.mpr ⟨he, hd⟩)
  · exact absurd hc hr

/-- Settles O45: an ACTIVE unit means a locked block, whose Compiled Code only a reset writes. -/
theorem compiledCodeFixedWhileActive : Obligations.CompiledCodeFixedWhileActive := by
  intro i s t ⟨henc, hdec⟩ ha hr h
  have hl : s.locked = true := ha.elim henc fun hd => (hdec hd).1
  rcases (exec_effect h).command_or_frame with ⟨c, hp, hc⟩ | hf
  · have hne : c ≠ .reset := by rintro rfl; exact hr hp
    exact ⟨hc.locked_of_active hl ha hne, hc.compiledCode_of_locked hl hne⟩
  · rw [hf]
    exact ⟨hl, rfl, rfl, rfl⟩

end Sys2Proof.Machine
end

section
/-! SUPPORT. The units are independent (`20_memory.md` R72, `43_encoder.md` R160, `44_decoder.md` R181): a unit's
command performed in another state with the same part answers that other state with the answer's part. -/

namespace Sys2Proof.Machine

/-! ## The part of each unit -/

/-- The state `r` with the encoder of `s` and what the encoder reads (`43_encoder.md` R160). -/
def State.withEncoderPart (r s : State) : State :=
  { r with
    cfg := s.cfg, locked := s.locked, cwt := s.cwt
    encSt := s.encSt, encErr := s.encErr, encAcc := s.encAcc, encPend := s.encPend, encQ := s.encQ
    encNsym := s.encNsym, encNbits := s.encNbits, encErrsym := s.encErrsym }

/-- The state `r` with the decoder of `s` and what the decoder reads (`44_decoder.md` R181). -/
def State.withDecoderPart (r s : State) : State :=
  { r with
    cfg := s.cfg, locked := s.locked, nt := s.nt, root := s.root
    decSt := s.decSt, decErr := s.decErr, decPos := s.decPos, decPend := s.decPend, decQ := s.decQ
    decNsym := s.decNsym, decNbits := s.decNbits, degCount := s.degCount }

variable {s s' t u : State} {c d : Instr} {f : State → State}

/-- A state whose encoder part is that of `s` is itself with that part. -/
theorem withEncoderPart_eq_self (hv : encoderView s = encoderView s') (hcwt : s.cwt = s'.cwt)
    (hl : s.locked = s'.locked) (hcfg : s.cfg = s'.cfg) : s'.withEncoderPart s = s' := by
  simp only [encoderView, Prod.mk.injEq] at hv
  simp only [State.withEncoderPart, hv, hcwt, hl, hcfg]

/-- A state whose decoder part is that of `s` is itself with that part. -/
theorem withDecoderPart_eq_self (hv : decoderView s = decoderView s') (hnt : s.nt = s'.nt) (hroot : s.root = s'.root)
    (hl : s.locked = s'.locked) (hcfg : s.cfg = s'.cfg) : s'.withDecoderPart s = s' := by
  simp only [decoderView, Prod.mk.injEq] at hv
  simp only [State.withDecoderPart, hv, hnt, hroot, hl, hcfg]

/-- A unit's command writes none of what it shares with the other unit or only reads: the depths, the lock, the Compiled
Code, DEG_COUNT. -/
theorem exec_unit_shared_eq (hc : EncoderCommand c ∨ DecoderCommand c) (h : exec c s = .next t) :
    t.cfg = s.cfg ∧ t.locked = s.locked ∧ t.cwt = s.cwt ∧ t.nt = s.nt ∧ t.root = s.root ∧ t.degCount = s.degCount := by
  obtain ⟨hcmd, hother⟩ : isCommand c = true ∧
      ¬ TableLoadCommand c ∧ (∀ leaf ref, c ≠ .treeRoot leaf ref) ∧ c ≠ .lock ∧ c ≠ .unlock ∧ c ≠ .reset := by
    rcases hc with (rfl | ⟨_, rfl⟩ | rfl | rfl) | (rfl | ⟨_, _, rfl⟩ | rfl) <;>
      exact ⟨rfl, by simp [TableLoadCommand]⟩
  have hx := exec_command hcmd h
  exact ⟨hx.cfg_eq, by simpa [hother] using hx.locked_cases, by simpa [hother] using hx.cwt_cases,
    by simpa [hother] using hx.nt_cases, by simpa [hother] using hx.root_cases,
    by simpa [hother] using hx.degCount_cases⟩

/-! ## Images of answers -/

/-- The first meaning answers a next state, and the second its image. -/
def AnswersImage (f : State → State) (x y : Result) : Prop := ∃ t, x = .next t ∧ y = .next (f t)

/-- Two answers, one the other's image. -/
theorem AnswersImage.next (h : s' = f s) : AnswersImage f (.next s) (.next s') := ⟨s, rfl, by rw [h]⟩

/-- Two meanings that test one condition. -/
theorem AnswersImage.ite {p : Prop} [Decidable p] {x x' y y' : Result} (hx : AnswersImage f x x')
    (hy : AnswersImage f y y') : AnswersImage f (if p then x else y) (if p then x' else y') := by
  split
  · exact hx
  · exact hy

/-! ## The encoder -/

/-- An encoder command reads and writes the encoder's part alone: every test it makes and every component it writes is
of that part. -/
theorem exec_withEncoderPart (hc : EncoderCommand c) (r s : State) :
    AnswersImage r.withEncoderPart (exec c s) (exec c (r.withEncoderPart s)) := by
  rcases hc with rfl | ⟨sym, rfl⟩ | rfl | rfl
  · exact .ite (.next rfl) (.ite (.next rfl) (.ite (.next rfl) (.next rfl)))
  · exact .ite (.next rfl) (.ite (.next rfl) (.ite (.next rfl) (.ite (.next rfl) (.next rfl))))
  · exact .ite (.next rfl) (.ite (.next rfl) (.ite (.next rfl) (.next rfl)))
  · exact .next rfl

/-- An encoder command changes only the encoder's components (`43_encoder.md` R160). -/
theorem exec_encoder_frame (hc : EncoderCommand c) (h : exec c s = .next t) :
    t = { s with encSt := t.encSt, encErr := t.encErr, encAcc := t.encAcc, encPend := t.encPend, encQ := t.encQ,
                 encNsym := t.encNsym, encNbits := t.encNbits, encErrsym := t.encErrsym } := by
  obtain ⟨hcfg, hl, hcwt, -⟩ := exec_unit_shared_eq (.inl hc) h
  obtain ⟨t', ht, hpart⟩ := exec_withEncoderPart hc s s
  obtain rfl : t' = t := Host.Outcome.next.inj (ht.symm.trans h)
  have hself : t' = s.withEncoderPart t' := Host.Outcome.next.inj (h.symm.trans hpart)
  conv_lhs => rw [hself]
  rw [State.withEncoderPart, hcfg, hl, hcwt]

/-! ## The decoder -/

/-- FEED reads and writes the decoder's part alone. -/
theorem feed_withDecoderPart (b : Bool) (r s : State) :
    feed b (r.withDecoderPart s) = mapBoth r.withDecoderPart (feed b s) := by
  have hroot : (r.withDecoderPart s).root = s.root := rfl
  have hnode : ntEntry (r.withDecoderPart s) (r.withDecoderPart s).decPos = ntEntry s s.decPos := rfl
  have hfull : decFull (r.withDecoderPart s) = decFull s := rfl
  simp only [feed, hroot, hnode, hfull]
  cases childOf (ntEntry s s.decPos) b <;> dsimp only <;> split_ifs <;> rfl

/-- So does a run of FEEDs. -/
theorem feedBits_withDecoderPart (bs : Bits) (r s : State) :
    feedBits bs (r.withDecoderPart s) = mapBoth r.withDecoderPart (feedBits bs s) := by
  induction bs generalizing s with
  | nil => rfl
  | cons b bs ih =>
    simp only [feedBits, feed_withDecoderPart]
    cases feed b s with
    | error u => rfl
    | ok u => exact ih u

/-- So does the end of a message. -/
theorem finishMessage_withDecoderPart (r s : State) :
    finishMessage (r.withDecoderPart s) = r.withDecoderPart (finishMessage s) := by
  have hroot : (r.withDecoderPart s).root = s.root := rfl
  have hpos : (r.withDecoderPart s).decPos = s.decPos := rfl
  have hq : (r.withDecoderPart s).decQ = s.decQ := rfl
  have hdeg : (r.withDecoderPart s).degCount = s.degCount := rfl
  have hcfg : (r.withDecoderPart s).cfg = s.cfg := rfl
  simp only [finishMessage, hroot, hpos, hq, hdeg, hcfg]
  split_ifs <;> rfl

/-- So does a byte of the message, not the final one. -/
theorem feedWholeByte_withDecoderPart (byte : Byte) (r s : State) :
    feedWholeByte byte (r.withDecoderPart s) = r.withDecoderPart (feedWholeByte byte s) := by
  simp only [feedWholeByte, feedBits_withDecoderPart]
  cases feedBits (byteBits byte) s <;> rfl

/-- So does the final byte of the message. -/
theorem feedFinalByte_withDecoderPart (byte : Byte) (r s : State) :
    feedFinalByte byte (r.withDecoderPart s) = r.withDecoderPart (feedFinalByte byte s) := by
  simp only [feedFinalByte, feedBits_withDecoderPart]
  split_ifs
  · rfl
  · cases feedBits (finalPayload byte) s with
    | ok u => exact finishMessage_withDecoderPart r u
    | error u => rfl

/-- A decoder command reads and writes the decoder's part alone: every test it makes and every component it writes is
of that part. -/
theorem exec_withDecoderPart (hd : DecoderCommand d) (r s : State) :
    AnswersImage r.withDecoderPart (exec d s) (exec d (r.withDecoderPart s)) := by
  rcases hd with rfl | ⟨last, byte, rfl⟩ | rfl
  · exact .ite (.next rfl) (.ite (.next rfl) (.ite (.next rfl) (.ite (.next rfl) (.next rfl))))
  · exact .ite (.next rfl) (.ite (.next rfl) (.ite (.next (feedFinalByte_withDecoderPart byte r s))
      (.next (feedWholeByte_withDecoderPart byte r s))))
  · exact .next rfl

/-- A decoder command changes only the decoder's components, and not DEG_COUNT (`44_decoder.md` R181). -/
theorem exec_decoder_frame (hd : DecoderCommand d) (h : exec d s = .next t) :
    t = { s with decSt := t.decSt, decErr := t.decErr, decPos := t.decPos, decPend := t.decPend, decQ := t.decQ,
                 decNsym := t.decNsym, decNbits := t.decNbits } := by
  obtain ⟨hcfg, hl, -, hnt, hroot, hdeg⟩ := exec_unit_shared_eq (.inr hd) h
  obtain ⟨t', ht, hpart⟩ := exec_withDecoderPart hd s s
  obtain rfl : t' = t := Host.Outcome.next.inj (ht.symm.trans h)
  have hself : t' = s.withDecoderPart t' := Host.Outcome.next.inj (h.symm.trans hpart)
  conv_lhs => rw [hself]
  rw [State.withDecoderPart, hcfg, hl, hnt, hroot, hdeg]

/-! ## The units together -/

/-- Two instructions that answer next states, performed one after the other. -/
theorem runInstrs_pair {i j : Instr} (hi : exec i s = .next t) (hj : exec j t = .next u) :
    runInstrs [i, j] s = .next u := by
  simp only [runInstrs, hi, hj]

/-- A command of each unit in either order: each meets its own part as the other found it, and both answers are the
state with the encoder's answer in its encoder and the decoder's in its decoder (`20_memory.md` R72). -/
theorem runInstrs_units_comm (hc : EncoderCommand c) (hd : DecoderCommand d) (s : State) :
    runInstrs [c, d] s = runInstrs [d, c] s := by
  obtain ⟨t, ht, -⟩ := exec_withEncoderPart hc s s
  obtain ⟨u, hu, -⟩ := exec_withDecoderPart hd s s
  have htf := exec_encoder_frame hc ht
  have huf := exec_decoder_frame hd hu
  have hdt : exec d t = .next (t.withDecoderPart u) := by
    obtain ⟨u', hu', hx⟩ := exec_withDecoderPart hd t s
    obtain rfl : u' = u := Host.Outcome.next.inj (hu'.symm.trans hu)
    have htpart : t.withDecoderPart s = t := by rw [htf]; rfl
    rwa [htpart] at hx
  have hcu : exec c u = .next (u.withEncoderPart t) := by
    obtain ⟨t', ht', hx⟩ := exec_withEncoderPart hc u s
    obtain rfl : t' = t := Host.Outcome.next.inj (ht'.symm.trans ht)
    have hupart : u.withEncoderPart s = u := by rw [huf]; rfl
    rwa [hupart] at hx
  have hjoin : t.withDecoderPart u = u.withEncoderPart t := by rw [htf, huf]; rfl
  rw [runInstrs_pair ht hdt, runInstrs_pair hu hcu, hjoin]

/-- Settles O46: each unit's command acts on its own part, wherever it is performed. -/
theorem unitsAreIndependent : Obligations.UnitsAreIndependent := by
  refine ⟨fun c s s' hc hv hcwt hl hcfg => ?_, fun d s s' hd hv hnt hroot hl hcfg => ?_,
    fun c d s hc hd => runInstrs_units_comm hc hd s⟩
  · obtain ⟨t, ht, ht'⟩ := exec_withEncoderPart hc s' s
    rw [withEncoderPart_eq_self hv hcwt hl hcfg] at ht'
    exact ⟨t, _, ht, ht', rfl, exec_encoder_frame hc ht⟩
  · obtain ⟨t, ht, ht'⟩ := exec_withDecoderPart hd s' s
    rw [withDecoderPart_eq_self hv hnt hroot hl hcfg] at ht'
    exact ⟨t, _, ht, ht', rfl, exec_decoder_frame hd ht⟩

end Sys2Proof.Machine
end

section
/-! SUPPORT. The encoding both ways (`30_encoding.md` R86 to R95): how many rows take a word, which words are legal, and that
what decodes is well formed and encodes to what was decoded. -/

namespace Sys2Proof.Machine

/-- Settles O32: the row of a well-formed instruction builds it back from its encoding. -/
theorem decodeOfEncode : Obligations.DecodeOfEncode :=
  fun _ hi => decode_encode hi

/-! ## How many rows take a word (`30_encoding.md` R92, R93) -/

/-- Of rows that differ pairwise on a bit both match, at most one is left by the test of a word. -/
theorem length_filter_masked_le_one {α : Type} {n : Nat} {pat mask : α → BitVec n} {rows : List α}
    (hd : rows.Pairwise (fun r r' => pat r &&& mask r' ≠ pat r' &&& mask r)) (x : BitVec n) :
    (rows.filter (fun r => x &&& mask r == pat r)).length ≤ 1 := by
  have htaken : ∀ r ∈ rows.filter (fun r => x &&& mask r == pat r), r ∈ rows ∧ x &&& mask r = pat r := by simp
  have hdiffer := hd.filter (fun r => x &&& mask r == pat r)
  match hf : rows.filter (fun r => x &&& mask r == pat r) with
  | [] | [_] => simp
  | r :: r' :: _ =>
    rw [hf] at htaken hdiffer
    obtain ⟨hr, hx⟩ := htaken r (by simp)
    obtain ⟨hr', hx'⟩ := htaken r' (by simp)
    obtain rfl := eq_of_masked hd hr hr' hx hx'
    exact absurd rfl (List.rel_of_pairwise_cons hdiffer List.mem_cons_self)

/-- Settles O31: two rows that take one word would agree on the bits both match, and the access rows cover every
descriptor. -/
theorem rowsAreExclusive : Obligations.RowsAreExclusive := by
  refine ⟨length_filter_masked_le_one commandRows_differ, fun d => ?_⟩
  have hle : (accessRows.filter (fun r => r.hits d)).length ≤ 1 := length_filter_masked_le_one accessRows_differ d
  obtain ⟨r, hr, hhits⟩ := List.find?_isSome.mp (accessRows_cover d)
  have hpos : 0 < (accessRows.filter (fun r => r.hits d)).length :=
    List.length_pos_of_mem (List.mem_filter.mpr ⟨hr, hhits⟩)
  omega

/-! ## Which words are legal (`30_encoding.md` R91, R95) -/

/-- A word decodes exactly when some row of the opcode map takes it. -/
theorem exists_decodeCommand_iff (w : Word) : (∃ c, decodeCommand w = .ok c) ↔ ∃ r ∈ commandRows, r.hits w = true := by
  constructor
  · rintro ⟨c, hc⟩
    obtain ⟨r, hr, hhits, -⟩ := decodeCommand_ok hc
    exact ⟨r, hr, hhits⟩
  · rintro ⟨r, hr, hhits⟩
    exact ⟨_, decodeCommand_of_hits hr hhits⟩

/-- Joined words are equal when their parts are. -/
theorem append_inj_iff {m n : Nat} {a b : BitVec m} {x y : BitVec n} : a ++ x = b ++ y ↔ a = b ∧ x = y := by
  refine ⟨fun h => ⟨?_, ?_⟩, fun ⟨ha, hx⟩ => by rw [ha, hx]⟩
  · simpa [BitVec.extractLsb'_append_eq_left] using congrArg (BitVec.extractLsb' n m) h
  · simpa [BitVec.extractLsb'_append_eq_right] using congrArg (BitVec.extractLsb' 0 n) h

/-- A mask that covers the opcode tests the opcode and the reserved bits apart. -/
theorem masked_opcode_iff (w : Word) (opc : Byte) (reserved : BitVec 24) :
    w &&& (0xFF#8 ++ reserved) = opc ++ 0#24 ↔ opcField w = opc ∧ w &&& reserved.setWidth 32 = 0 := by
  have hw : w = opcField w ++ w.extractLsb' 0 24 :=
    (BitVec.extractLsb'_append_extractLsb' (w := 8) (len := 24)).symm
  generalize opcField w = a, w.extractLsb' 0 24 = x at hw
  have hlow : reserved.setWidth 32 = 0#8 ++ reserved := BitVec.setWidth_eq_append (by decide)
  have hzero : (0 : Word) = 0#8 ++ 0#24 := rfl
  have hones : a &&& 0xFF#8 = a := BitVec.and_allOnes
  rw [hw, hlow, hzero, BitVec.and_append, BitVec.and_append, append_inj_iff, append_inj_iff, hones]
  simp

/-- The seventeen opcodes, each with the reserved low bits of its format, grouped by those bits. -/
def legalOpcodes : List (Byte × BitVec 24) :=
  [(0x00, 0xFFFFFF), (0x01, 0xFFFFFF), (0x02, 0xFFFFFF), (0x20, 0xFFFFFF), (0x21, 0xFFFFFF), (0x40, 0xFFFFFF),
   (0x42, 0xFFFFFF), (0x43, 0xFFFFFF), (0x50, 0xFFFFFF), (0x52, 0xFFFFFF), (0x10, 0x007F00), (0x11, 0x000700),
   (0x18, 0x00FE00), (0x19, 0x00FE00), (0x1A, 0xFFFE00), (0x51, 0xFFFE00), (0x41, 0xFFFF00)]

/-- Each row of the opcode map matches one of these opcodes and zeros at its reserved bits, and nothing else. -/
theorem commandRows_masks : (commandRows.map fun r => (r.pat, r.mask)).Perm
    (legalOpcodes.map fun p => (p.1 ++ 0#24, 0xFF#8 ++ p.2)) := by
  decide

/-- Some row takes a word exactly when its opcode is in the map and the reserved bits of that opcode's format are 0. -/
theorem exists_commandRow_hits_iff (w : Word) : (∃ r ∈ commandRows, r.hits w = true) ↔
    ∃ p ∈ legalOpcodes, opcField w = p.1 ∧ w &&& p.2.setWidth 32 = 0 := by
  calc (∃ r ∈ commandRows, r.hits w = true)
    _ ↔ ∃ q ∈ commandRows.map (fun r => (r.pat, r.mask)), w &&& q.2 = q.1 := by simp [CommandRow.hits]
    _ ↔ ∃ p ∈ legalOpcodes, w &&& (0xFF#8 ++ p.2) = p.1 ++ 0#24 := by
      simp only [commandRows_masks.mem_iff]
      simp
    _ ↔ _ := by simp only [masked_opcode_iff]

/-- Settles O30: a word decodes when a row of the opcode map takes it, and the write of any other word is the illegal one. -/
theorem illegalWordsOnlyRecordIllegalCmd : Obligations.IllegalWordsOnlyRecordIllegalCmd := by
  refine ⟨fun w => ?_, fun s a w hw => ?_⟩
  · rw [exists_decodeCommand_iff, exists_commandRow_hits_iff]
    -- The list as a disjunction first: `List.mem_cons` would rewrite the membership under the quantifier.
    simp only [legalOpcodes, List.exists_mem_cons_iff, List.not_mem_nil, false_and, exists_false, or_false]
    simp only [List.mem_cons, List.not_mem_nil, or_false, opcField, BitVec.ofNat_eq_ofNat, BitVec.reduceSetWidth,
      or_and_right, or_assoc]
  · obtain ⟨-, hx⟩ | ⟨c, hc, -⟩ := execWrCmd_cases a w s
    · rw [hx, cmdError_eq]
    · exact absurd hc (hw c)

/-! ## What decodes is well formed and encodes to what was decoded (`30_encoding.md` R86 to R93) -/

/-- A field read from a word and placed again is the word's own bits there. -/
theorem placeField_extractLsb' (w : Word) (lo n : Nat) :
    placeField (w.extractLsb' lo n) lo = w &&& placeField (BitVec.allOnes n) lo := by
  ext i hi
  rw [placeField_getElem _ _ _ hi, BitVec.getElem_and, placeField_getElem _ _ _ hi]
  by_cases hlo : lo ≤ i <;> simp [hlo, hi, Bool.and_comm]

/-- A flag of a word as a field of one bit. -/
theorem ofBool_getLsbD (w : Word) (lo : Nat) : BitVec.ofBool (w.getLsbD lo) = w.extractLsb' lo 1 := by
  ext i hi
  simp [show i = 0 by omega]

/-- What a row of the opcode map builds from any word encodes to the row's pattern with the word's own bits outside the
mask: the operands are those bits. -/
theorem encode_commandRow_build {r : CommandRow} (hr : r ∈ commandRows) (w : Word) :
    encode (r.build w) = .command (r.pat ||| (w &&& ~~~r.mask)) := by
  have hnone : w &&& ~~~(0xFFFFFFFF : Word) = 0#32 := BitVec.and_zero
  fin_cases hr <;>
    simp only [encode, formatN, formatD, formatK, formatT, formatRB, formatY, highOperand, lowOperand, idxField, vField,
      bit8Field, ofBool_getLsbD, placeField_extractLsb', BitVec.or_assoc, ← BitVec.and_or_distrib_left, hnone,
      BitVec.or_zero] <;>
    rfl

/-- A command word that decodes is the encoding of what it decodes to: its bits are the row's pattern where the mask is
set, and operands elsewhere. -/
theorem encode_decodeCommand {w : Word} {i : Instr} (h : decodeCommand w = .ok i) : encode i = .command w := by
  obtain ⟨r, hr, hhits, rfl⟩ := decodeCommand_ok h
  have hpat : w &&& r.mask = r.pat := beq_iff_eq.mp hhits
  rw [encode_commandRow_build hr, ← hpat, ← BitVec.and_or_distrib_left, BitVec.or_not_self, BitVec.and_allOnes]

/-- A command has no operand that its format cannot hold (`30_encoding.md` R90). -/
theorem wellFormed_of_isCommand {i : Instr} (h : isCommand i = true) : i.wellFormed = true := by
  cases i with
  | nop | reset | clrErr | cwDef | cwBits | nodeL | nodeR | treeRoot | lock | unlock
  | encStart | encSym | encEnd | encAbort | decStart | decByte | decAbort => rfl
  | _ => cases h

/-- What an access row builds encodes to the read or write that the row's top bit says. -/
theorem encode_accessRow_build {r : AccessRow} (hr : r ∈ accessRows) (addr : Byte) (wdata : Word) :
    encode (r.build addr wdata) = .access (if r.pat.msb then .write addr wdata else .read addr) := by
  fin_cases hr <;> rfl

/-- What an access row builds is well formed when the row's low eight bits cover the offset. -/
theorem wellFormed_accessRow_build {r : AccessRow} (hr : r ∈ accessRows) (addr : Byte) (wdata : Word) :
    (r.build addr wdata).wellFormed = offsetIn (r.pat.setWidth 8) (r.mask.setWidth 8) addr := by
  fin_cases hr <;> rfl

/-- Every access row matches the top bit of the descriptor, the write enable. -/
theorem accessRows_mask_msb {r : AccessRow} (hr : r ∈ accessRows) : r.mask.msb = true := by
  fin_cases hr <;> rfl

/-- The offset is the descriptor's low eight bits. -/
theorem descriptor_setWidth (a : Access) : a.descriptor.setWidth 8 = a.addr := by
  cases a <;> exact BitVec.setWidth_append_eq_right

/-- The descriptor's top bit tells a write from a read. -/
theorem access_eq_of_msb (a : Access) : (if a.descriptor.msb then .write a.addr a.wdata else .read a.addr) = a := by
  cases a with
  | read addr => exact if_neg (by rw [Access.descriptor, BitVec.msb_append]; simp)
  | write addr wdata => exact if_pos (by rw [Access.descriptor, BitVec.msb_append]; simp)

/-- What an access decodes to is well formed and encodes to that access. -/
theorem encode_decodeAccess (a : Access) :
    (decodeAccess a).wellFormed = true ∧ encode (decodeAccess a) = .access a := by
  obtain ⟨r, hr, hhits, hd⟩ := decodeAccess_eq a
  have hpat : a.descriptor &&& r.mask = r.pat := beq_iff_eq.mp hhits
  have hmsb : r.pat.msb = a.descriptor.msb := by rw [← hpat, BitVec.msb_and, accessRows_mask_msb hr, Bool.and_true]
  have hlow : a.addr &&& r.mask.setWidth 8 = r.pat.setWidth 8 := by
    rw [← hpat, BitVec.setWidth_and, descriptor_setWidth]
  rw [hd, wellFormed_accessRow_build hr, encode_accessRow_build hr, hmsb, access_eq_of_msb]
  exact ⟨beq_iff_eq.mpr hlow, rfl⟩

/-- Settles O33: the row that takes a word or a descriptor builds an instruction that keeps every bit of it. -/
theorem encodeOfDecode : Obligations.EncodeOfDecode := by
  intro e i h
  cases e with
  | command w => exact ⟨wellFormed_of_isCommand (decodeCommand_isCommand h), encode_decodeCommand h⟩
  | access a =>
    obtain rfl : decodeAccess a = i := Except.ok.inj h
    exact encode_decodeAccess a

end Sys2Proof.Machine
end

section
/-! SUPPORT. The system commands (`40_system_commands.md` R111 to R115), the words that opcode 0x00 makes illegal, and example
words of the spec. -/

namespace Sys2Proof.Machine

/-! ## Words of opcode 0x00 (`40_system_commands.md` R111) -/

/-- A word that no row takes, with an opcode of the map, has a reserved bit set (`30_encoding.md` R95). -/
theorem decodeCommand_eq_reservedBits {w : Word} (hw : ∀ r ∈ commandRows, r.hits w ≠ true)
    (ho : ∃ r ∈ commandRows, opcField r.pat = opcField w) : decodeCommand w = .error .reservedBits := by
  have hnone : commandRows.find? (fun r => r.hits w) = none := List.find?_eq_none.mpr hw
  have hany : commandRows.any (fun r => opcField r.pat == opcField w) = true := by simpa using ho
  simp only [decodeCommand, hnone, hany, if_true]

/-- With opcode 0x00 a row takes the zero word only: all the low bits of NOP's format are reserved. -/
theorem eq_zero_of_hits_opcode_zero {r : CommandRow} {w : Word} (hr : r ∈ commandRows) (h : r.hits w = true)
    (ho : opcField w = 0) : w = 0 := by
  have hnop : ∀ p ∈ legalOpcodes, p.1 = 0 → p = (0, 0xFFFFFF) := by simp [legalOpcodes]
  obtain ⟨p, hp, hopc, hreserved⟩ := (exists_commandRow_hits_iff w).mp ⟨r, hr, h⟩
  obtain rfl := hnop p hp (hopc.symm.trans ho)
  have hones : 0xFF#8 ++ 0xFFFFFF#24 = BitVec.allOnes 32 := rfl
  have hmasked := (masked_opcode_iff w 0x00#8 0xFFFFFF#24).mpr ⟨ho, hreserved⟩
  rwa [hones, BitVec.and_allOnes] at hmasked

/-- A word of opcode 0x00 other than NOP's is illegal by a reserved bit. -/
theorem decodeCommand_of_opcode_zero {w : Word} (ho : opcField w = 0) (hw : w ≠ 0) :
    decodeCommand w = .error .reservedBits :=
  decodeCommand_eq_reservedBits (fun _ hr h => hw (eq_zero_of_hits_opcode_zero hr h ho))
    ⟨⟨0x00000000, 0xFFFFFFFF, fun _ => .nop⟩, List.mem_cons_self, ho.symm⟩

/-- Settles O1: the three meanings by definition, the illegal words by the row of NOP. -/
theorem nopClrErrLockResults : Obligations.NopClrErrLockResults := by
  refine ⟨fun s => ⟨rfl, rfl, rfl⟩, rfl, rfl, rfl, fun w ho hw => ?_⟩
  have hd := decodeCommand_of_opcode_zero ho hw
  exact ⟨hd, fun s a => (executeWord_error hd s).trans (by rw [cmdError_eq])⟩

/-! ## UNLOCK (`40_system_commands.md` R115) -/

/-- A unit is ACTIVE when the encoder or the decoder is. -/
theorem unitActive_iff (s : State) : unitActive s = true ↔ s.encSt = .active ∨ s.decSt = .active := by
  simp [unitActive]

/-- Settles O2: UNLOCK's one condition is that a unit is ACTIVE. -/
theorem unlockResult : Obligations.UnlockResult := by
  refine ⟨fun s => ⟨fun he hd => ?_, fun ha => ?_⟩, rfl⟩
  · have hidle : ¬ unitActive s = true := by simp [unitActive_iff, he, hd]
    exact if_neg hidle
  · rw [← cmdError_eq]
    exact if_pos ((unitActive_iff s).mpr ha)

/-! ## RESET (`40_system_commands.md` R112) -/

/-- A reset gives every component of `10_state.md` R21 its value of R50. -/
theorem resetValues_resetBlock (s : State) : ResetValues (resetBlock s) := by
  simp [ResetValues, State.resetWith, cwEntry, ntEntry, tableGet, CodewordEntry.blank, NodeEntry.blank]

/-- Every field of STATUS shows a component whose reset value is coded 0. -/
theorem ResetValues.statusWord_eq_zero {t : State} (h : ResetValues t) : statusWord t = 0 := by
  obtain ⟨hlocked, -, -, hroot, hcmd, henc, hdec, hencSt, hdecSt, -⟩ := h
  simp only [statusWord, rootLeafFlag, hlocked, hroot, hcmd, henc, hdec, hencSt, hdecSt, Bool.false_and]
  rfl

/-- Settles O3: RESET is the reset of the block, which keeps the depths. -/
theorem softResetGivesResetValues : Obligations.SoftResetGivesResetValues :=
  ⟨fun s => ⟨resetBlock s, rfl, resetValues_resetBlock s, (resetValues_resetBlock s).statusWord_eq_zero, rfl⟩, rfl⟩

/-! ## Words of the spec -/

/-- Bits that number the encoding of a well-formed instruction decode to it. -/
theorem decodeTableWord_of_encode {nbits w : Nat} {i : Instr} (hw : encodedOfBits nbits w = some (encode i))
    (hi : i.wellFormed = true) : decodeTableWord nbits w = some i := by
  simp only [decodeTableWord, hw, decode_encode hi]

/-- Settles O35: each word is the encoding of its instruction; vector S11's has a reserved bit of CW_DEF's format set. -/
theorem specWordsDecode : Obligations.SpecWordsDecode := by
  refine ⟨decodeTableWord_of_encode rfl rfl, decodeTableWord_of_encode rfl rfl, decodeTableWord_of_encode rfl rfl,
    decodeTableWord_of_encode rfl rfl, decodeTableWord_of_encode rfl rfl, decodeTableWord_of_encode rfl rfl,
    decodeTableWord_of_encode rfl rfl, decodeTableWord_of_encode rfl rfl, ?illegal,
    decodeTableWord_of_encode rfl rfl, decodeTableWord_of_encode rfl rfl⟩
  case illegal => decide

end Sys2Proof.Machine
end

section
/-! SUPPORT. NORMALIZE, BUILD and DERIVE (`41_host_reference_compile.md` R121 to R129): the symbols, the key order, what
a round of the merge loop keeps, and the codewords of a tree as its paths. -/

namespace Sys2Proof.Machine

/-! ## The symbols (`00_scope.md` R7) -/

/-- Every byte is a symbol. -/
@[simp] theorem mem_allSymbols (x : Byte) : x ∈ allSymbols :=
  List.mem_map.mpr ⟨x.toNat, List.mem_range.mpr x.isLt, by simp⟩

/-- No symbol is listed twice. -/
theorem nodup_allSymbols : allSymbols.Nodup := by
  refine List.nodup_range.map_on fun m hm n hn h => ?_
  rw [List.mem_range] at hm hn
  have hmod := congrArg BitVec.toNat h
  rwa [BitVec.toNat_ofNat, BitVec.toNat_ofNat, Nat.mod_eq_of_lt hm, Nat.mod_eq_of_lt hn] at hmod

/-- There are `N_SYM` symbols. -/
theorem length_allSymbols : allSymbols.length = 256 := by simp [allSymbols]

/-- Symbols that are not listed twice are at most all of them. -/
theorem length_le_of_nodup_symbols {l : List Byte} (h : l.Nodup) : l.length ≤ 256 :=
  length_allSymbols ▸ (h.subperm fun x _ => mem_allSymbols x).length_le

/-! ## NORMALIZE (R121) -/

/-- NORMALIZE fails on counts that sum to 0. -/
theorem normalizeCounts_of_total_zero {c : Counts} (h : totalCount c = 0) :
    normalizeCounts c = .error .degenerateInput := if_pos h

/-- Everything NORMALIZE can succeed with: the exact quotients by a total that is not 0. -/
theorem normalizeCounts_eq_ok_iff {c : Counts} {w : Byte → Rat} :
    normalizeCounts c = .ok w ↔ totalCount c ≠ 0 ∧ (fun x => (c x : Rat) / (totalCount c : Rat)) = w := by
  by_cases h : totalCount c = 0
  · rw [normalizeCounts_of_total_zero h]
    exact ⟨nofun, fun hc => absurd h hc.1⟩
  · rw [show normalizeCounts c = .ok _ from if_neg h, Except.ok.injEq]
    exact (and_iff_right h).symm

/-- The quotients of counts by one total sum to the quotient of their sum. -/
theorem sum_map_div (c : Counts) (total : Nat) (l : List Byte) :
    (l.map fun x => (c x : Rat) / (total : Rat)).sum = ((l.map c).sum : Nat) / (total : Rat) := by
  induction l with
  | nil => simp
  | cons x l ih => simp only [List.map_cons, List.sum_cons, ih, Nat.cast_add, add_div]

/-- Settles O53: the failing branch is the total 0, and the quotients by any other total sum to 1. -/
theorem normalizeResult : Obligations.NormalizeResult := by
  refine ⟨⟨nodup_allSymbols, length_allSymbols, mem_allSymbols⟩, fun c => ⟨normalizeCounts_of_total_zero, fun h => ?_⟩⟩
  have hnonneg (x : Byte) : (0 : Rat) ≤ c x / totalCount c := div_nonneg (Nat.cast_nonneg _) (Nat.cast_nonneg _)
  refine ⟨_, normalizeCounts_eq_ok_iff.mpr ⟨h, rfl⟩, fun _ => rfl, hnonneg, ?_⟩
  exact (sum_map_div c _ allSymbols).trans (div_self (Nat.cast_ne_zero.mpr h))

/-! ## The key order and `pop_min` (R125, R126) -/

/-- The key of a node, in the lexicographic order of R126. -/
def treeKey (t : CodeTree) : Rat ×ₗ Nat := toLex (treeWeight t, (treeMinsym t).toNat)

/-- The key order of two nodes, written out. -/
theorem treeKey_lt_iff (x y : CodeTree) : treeKey x < treeKey y ↔
    treeWeight x < treeWeight y ∨ (treeWeight x = treeWeight y ∧ (treeMinsym x).toNat < (treeMinsym y).toNat) :=
  Prod.Lex.toLex_lt_toLex

/-- `keyLt` compares the keys. -/
theorem keyLt_iff (x y : CodeTree) : keyLt x y = true ↔ treeKey x < treeKey y := by
  simp [keyLt, treeKey_lt_iff]

/-- `pop_min` answers nothing on the empty queue only. -/
@[simp] theorem popMin_eq_none_iff {q : List CodeTree} : popMin q = none ↔ q = [] := by
  cases q with
  | nil => simp [popMin]
  | cons x q =>
    unfold popMin
    split
    · simp
    · split <;> simp

/-- `pop_min` takes one node out of the queue. -/
theorem popMin_perm {q rest : List CodeTree} {m : CodeTree} (h : popMin q = some (m, rest)) : (m :: rest).Perm q := by
  induction q using popMin.induct generalizing m rest with
  | case1 => cases h
  | case2 x q hq _ =>
    obtain rfl := popMin_eq_none_iff.mp hq
    cases h
    exact .refl _
  | case3 x q m' rest' hq hlt _ =>
    simp only [popMin, hq, hlt, if_true] at h
    cases h
    exact .refl _
  | case4 x q m' rest' hq hlt ih =>
    simp only [popMin, hq, hlt] at h
    cases h
    exact (List.Perm.swap ..).trans ((ih hq).cons x)

/-- `pop_min` takes a node of least key. -/
theorem popMin_le {q rest : List CodeTree} {m : CodeTree} (h : popMin q = some (m, rest)) :
    ∀ x ∈ q, treeKey m ≤ treeKey x := by
  induction q using popMin.induct generalizing m rest with
  | case1 => cases h
  | case2 x q hq _ =>
    obtain rfl := popMin_eq_none_iff.mp hq
    cases h
    simp
  | case3 x q m' rest' hq hlt ih =>
    simp only [popMin, hq, hlt, if_true] at h
    cases h
    exact List.forall_mem_cons.mpr ⟨le_rfl, fun y hy => ((keyLt_iff _ _).mp hlt).le.trans (ih hq y hy)⟩
  | case4 x q m' rest' hq hlt ih =>
    simp only [popMin, hq, hlt] at h
    cases h
    exact List.forall_mem_cons.mpr ⟨not_lt.mp (mt (keyLt_iff _ _).mpr hlt), ih hq⟩

/-- Settles O55: by the recursion of `pop_min` over the queue. -/
theorem popMinTakesTheLeast : Obligations.PopMinTakesTheLeast := by
  refine ⟨fun q => ?_, fun q rest m h => ⟨popMin_perm h, fun x hx => ?_⟩⟩
  · cases q with
    | nil => rfl
    | cons x q => simp [Option.isSome_iff_ne_none]
  · rw [← treeKey_lt_iff]
    exact not_lt.mpr (popMin_le h x hx)

/-! ## BUILD (R125) -/

/-- The symbols of a tree's leaves, left to right. -/
def treeSymbols : CodeTree → List Byte
  | .leaf s _ => [s]
  | .node l r _ _ => treeSymbols l ++ treeSymbols r

/-- The merge loop neither loses nor adds a leaf. -/
theorem buildLoop_symbols {n : Nat} {q : List CodeTree} {t : CodeTree} (h : buildLoop n q = some t) :
    (treeSymbols t).Perm (q.flatMap treeSymbols) := by
  induction n, q using buildLoop.induct with
  | case1 => simp [buildLoop] at h
  | case2 n t' =>
    obtain rfl : t' = t := by simpa [buildLoop] using h
    simp
  | case3 => simp [buildLoop] at h
  | case4 n q hnil hone ha => simp [buildLoop, ha] at h
  | case5 n q hnil hone a q₁ ha hb =>
    obtain rfl := popMin_eq_none_iff.mp hb
    exact absurd (List.singleton_perm.mp (popMin_perm ha)).symm (by simpa using hone a)
  | case6 n q hnil hone a q₁ ha b q₂ hb ih =>
    simp only [buildLoop, ha, hb] at h
    have hq : (a :: b :: q₂).Perm q := ((popMin_perm hb).cons a).trans (popMin_perm ha)
    refine (ih h).trans (List.Perm.trans ?_ (hq.flatMap_right treeSymbols))
    simp [mergeNodes, treeSymbols]

/-- The leaves of a built tree are the symbols of non-zero weight (R123). -/
theorem buildTree_symbols {w : Byte → Rat} {t : CodeTree} (h : buildTree w = some t) :
    (treeSymbols t).Perm (allSymbols.filter fun s => decide (0 < w s)) := by
  refine (buildLoop_symbols h).trans (.of_eq ?_)
  rw [treeLeaves, List.flatMap_map]
  exact List.flatMap_singleton' _

/-- A built tree has no symbol twice. -/
theorem buildTree_nodup {w : Byte → Rat} {t : CodeTree} (h : buildTree w = some t) : (treeSymbols t).Nodup :=
  (buildTree_symbols h).nodup_iff.mpr (nodup_allSymbols.filter _)

/-- A built tree has exactly the symbols of non-zero weight. -/
theorem mem_buildTree_symbols {w : Byte → Rat} {t : CodeTree} (h : buildTree w = some t) (x : Byte) :
    x ∈ treeSymbols t ↔ 0 < w x := by
  simp [(buildTree_symbols h).mem_iff]

/-- A full tree has one leaf more than it has Internal nodes. -/
theorem treeSymbols_length (t : CodeTree) : (treeSymbols t).length = internalCount t + 1 := by
  induction t with
  | leaf => rfl
  | node l r w m ihl ihr => simp [treeSymbols, internalCount, ihl, ihr]; omega

/-- A tree without a symbol twice has at most 255 Internal nodes, which the node table can hold (`00_scope.md` R9). -/
theorem internalCount_le {t : CodeTree} (h : (treeSymbols t).Nodup) : internalCount t ≤ 255 := by
  have hlen := length_le_of_nodup_symbols h
  rw [treeSymbols_length] at hlen
  omega

/-! ## DERIVE (R128): the codewords are the paths -/

/-- The walk below a node puts the path to the node before every path. -/
theorem walkTree_path (t : CodeTree) (path : Bits) :
    walkTree t path = (walkTree t []).map fun e => (e.1, path ++ e.2) := by
  induction t generalizing path with
  | leaf => simp [walkTree]
  | node l r w m ihl ihr =>
    rw [walkTree, walkTree, ihl, ihr, ihl ([] ++ [false]), ihr ([] ++ [true])]
    simp [Function.comp_def]

/-- The walk visits the leaves from left to right. -/
theorem walkTree_map_fst (t : CodeTree) (path : Bits) : (walkTree t path).map Prod.fst = treeSymbols t := by
  induction t generalizing path with
  | leaf => rfl
  | node l r w m ihl ihr => simp [walkTree, treeSymbols, ihl, ihr]

/-- The child of an Internal node that a bit leads to: 0 left, 1 right. -/
def subtree (l r : CodeTree) (b : Bool) : CodeTree := if b then r else l

/-- A path in a Leaf is empty and ends at its symbol. -/
theorem mem_walkTree_leaf {s x : Byte} {w : Rat} {p : Bits} : (x, p) ∈ walkTree (.leaf s w) [] ↔ x = s ∧ p = [] := by
  simp [walkTree]

/-- A path in an Internal node is a bit and a path in the child that the bit leads to. -/
theorem mem_walkTree_node {l r : CodeTree} {w : Rat} {m x : Byte} {p : Bits} :
    (x, p) ∈ walkTree (.node l r w m) [] ↔ ∃ b y, p = b :: y ∧ (x, y) ∈ walkTree (subtree l r b) [] := by
  rw [walkTree, walkTree_path l, walkTree_path r]
  simp [subtree, eq_comm, and_comm]

/-- In a tree without a symbol twice, the codewords are exactly the paths. -/
theorem codewordOf_eq_some_iff {t : CodeTree} (h : (treeSymbols t).Nodup) {x : Byte} {p : Bits} :
    codewordOf t x = some p ↔ (x, p) ∈ walkTree t [] := by
  rw [← walkTree_map_fst t []] at h
  rw [codewordOf, List.lookup_eq_some_iff]
  constructor
  · rintro ⟨_, _, he, -⟩
    simp [he]
  · intro hmem
    obtain ⟨l₁, l₂, he⟩ := List.append_of_mem hmem
    rw [he, List.map_append, List.nodup_append] at h
    obtain ⟨-, -, hdisjoint⟩ := h
    exact ⟨l₁, l₂, he, fun e hin => bne_iff_ne.mpr (hdisjoint _ (List.mem_map_of_mem hin) _ (by simp)).symm⟩

/-- The symbols with a codeword are those of the leaves. -/
theorem codewordOf_isSome_iff (t : CodeTree) (x : Byte) : (codewordOf t x).isSome = true ↔ x ∈ treeSymbols t := by
  simp [codewordOf, ← walkTree_map_fst t []]

/-- Settles O57: the leaves of a built tree are the symbols of non-zero weight, each once. -/
theorem deriveCoversExactlyTheWeights : Obligations.DeriveCoversExactlyTheWeights := by
  refine ⟨fun _ _ _ => rfl, fun _ _ _ _ _ => rfl, fun w t h => ⟨?_, fun x => ?_⟩⟩
  · exact (walkTree_map_fst t []).symm ▸ buildTree_nodup h
  · rw [codewordOf_isSome_iff, mem_buildTree_symbols h]

/-- Settles O56: the one leaf is the queue with which the merge loop ends. -/
theorem singleSymbolGivesALeaf : Obligations.SingleSymbolGivesALeaf := by
  intro w x hx hothers
  have hfilter : allSymbols.filter (fun s => decide (0 < w s)) = [x] := by
    refine (List.perm_singleton.mp ((List.perm_ext_iff_of_nodup ?_ (List.nodup_singleton x)).mpr fun y => ?_))
    · exact nodup_allSymbols.filter _
    · simp only [List.mem_filter, mem_allSymbols, true_and, decide_eq_true_eq, List.mem_singleton]
      exact ⟨fun hy => by_contra fun hne => hothers y hne hy, fun hy => hy ▸ hx⟩
  have hleaves : treeLeaves w = [.leaf x (w x)] := by rw [treeLeaves, hfilter]; rfl
  exact ⟨by rw [buildTree, hleaves]; rfl, by simp [codewordOf, walkTree]⟩

/-! ## The codewords of a tree (R129) -/

/-- No path of a tree continues another path. -/
theorem eq_of_walkTree_prefix {t : CodeTree} {a b : Byte} {p q : Bits} (ha : (a, p) ∈ walkTree t [])
    (hb : (b, q) ∈ walkTree t []) (hpq : p <+: q) : a = b := by
  induction t generalizing p q with
  | leaf s w => exact (mem_walkTree_leaf.mp ha).1.trans (mem_walkTree_leaf.mp hb).1.symm
  | node l r w m ihl ihr =>
    obtain ⟨i, p, rfl, hp⟩ := mem_walkTree_node.mp ha
    obtain ⟨j, q, rfl, hq⟩ := mem_walkTree_node.mp hb
    obtain ⟨rfl, htail⟩ := List.cons_prefix_cons.mp hpq
    cases i
    · exact ihl hp hq htail
    · exact ihr hp hq htail

/-- A path passes each Internal node at most once. -/
theorem length_le_of_mem_walkTree {t : CodeTree} {x : Byte} {p : Bits} (h : (x, p) ∈ walkTree t []) :
    p.length ≤ internalCount t := by
  induction t generalizing p with
  | leaf s w => simp [(mem_walkTree_leaf.mp h).2]
  | node l r w m ihl ihr =>
    obtain ⟨b, q, rfl, hq⟩ := mem_walkTree_node.mp h
    rw [List.length_cons, internalCount]
    cases b
    · have hle := ihl hq
      omega
    · have hle := ihr hq
      omega

/-- Only the path to a single Leaf is empty. -/
theorem internalCount_eq_zero_of_mem_walkTree_nil {t : CodeTree} {x : Byte} (h : (x, []) ∈ walkTree t []) :
    internalCount t = 0 := by
  cases t with
  | leaf => rfl
  | node => simp [mem_walkTree_node] at h

/-- Settles O58: two paths part at some node, and a path is at most as long as there are Internal nodes. -/
theorem codewordsArePrefixFree : Obligations.CodewordsArePrefixFree := by
  intro w t h
  have hnodup := buildTree_nodup h
  simp only [codewordOf_eq_some_iff hnodup]
  refine ⟨fun a b x y hne ha hb hxy => hne (eq_of_walkTree_prefix ha hb hxy), fun a x ha => ?_⟩
  refine ⟨fun hz => ?_, fun hz => ?_⟩
  · exact List.eq_nil_of_length_eq_zero (Nat.le_zero.mp (hz ▸ length_le_of_mem_walkTree ha))
  · refine ⟨List.length_pos_iff.mpr ?_, (length_le_of_mem_walkTree ha).trans (internalCount_le hnodup)⟩
    rintro rfl
    exact hz (internalCount_eq_zero_of_mem_walkTree_nil ha)

/-! ## Weights in proportion (R122) -/

/-- The tree with every weight multiplied by `k`. -/
def scaleTree (k : Rat) : CodeTree → CodeTree
  | .leaf s w => .leaf s (k * w)
  | .node l r w m => .node (scaleTree k l) (scaleTree k r) (k * w) m

/-- The weight of a scaled tree. -/
@[simp] theorem treeWeight_scaleTree (k : Rat) (t : CodeTree) : treeWeight (scaleTree k t) = k * treeWeight t := by
  cases t <;> rfl

/-- Scaling keeps the least symbol. -/
@[simp] theorem treeMinsym_scaleTree (k : Rat) (t : CodeTree) : treeMinsym (scaleTree k t) = treeMinsym t := by
  cases t <;> rfl

/-- A merge of scaled nodes is the scaled merge. -/
theorem mergeNodes_scaleTree (k : Rat) (a b : CodeTree) :
    mergeNodes (scaleTree k a) (scaleTree k b) = scaleTree k (mergeNodes a b) := by
  simp [mergeNodes, scaleTree, mul_add]

/-- Scaling by a positive factor keeps every comparison and every tie. -/
theorem keyLt_scaleTree {k : Rat} (hk : 0 < k) (x y : CodeTree) :
    keyLt (scaleTree k x) (scaleTree k y) = keyLt x y := by
  simp [keyLt, hk, hk.ne']

/-- `pop_min` takes the same node out of a scaled queue. -/
theorem popMin_scaleTree {k : Rat} (hk : 0 < k) (q : List CodeTree) :
    popMin (q.map (scaleTree k)) = (popMin q).map fun p => (scaleTree k p.1, p.2.map (scaleTree k)) := by
  induction q with
  | nil => rfl
  | cons x q ih =>
    rw [List.map_cons, popMin, popMin, ih]
    cases popMin q with
    | none => rfl
    | some p =>
      simp only [Option.map_some, keyLt_scaleTree hk]
      split <;> rfl

/-- The merge loop makes the same merges of a scaled queue. -/
theorem buildLoop_scaleTree {k : Rat} (hk : 0 < k) (n : Nat) (q : List CodeTree) :
    buildLoop n (q.map (scaleTree k)) = (buildLoop n q).map (scaleTree k) := by
  induction n generalizing q with
  | zero => match q with | [] | [_] | _ :: _ :: _ => rfl
  | succ n ih =>
    match q with
    | [] | [_] => rfl
    | x :: y :: q =>
      have hpop := popMin_scaleTree hk (x :: y :: q)
      simp only [List.map_cons] at hpop
      simp only [List.map_cons, buildLoop, hpop]
      cases popMin (x :: y :: q) with
      | none => rfl
      | some p =>
        simp only [Option.map_some, popMin_scaleTree hk]
        cases popMin p.2 with
        | none => rfl
        | some p' => simpa [mergeNodes_scaleTree] using ih (mergeNodes p.1 p'.1 :: p'.2)

/-- Weights in proportion to others give the scaled leaves. -/
theorem treeLeaves_scaleTree {k : Rat} (hk : 0 < k) (w : Byte → Rat) :
    treeLeaves (fun x => k * w x) = (treeLeaves w).map (scaleTree k) := by
  simp [treeLeaves, scaleTree, hk, Function.comp_def]

/-- Weights in proportion to others give the scaled tree. -/
theorem buildTree_scaleTree {k : Rat} (hk : 0 < k) (w : Byte → Rat) :
    buildTree (fun x => k * w x) = (buildTree w).map (scaleTree k) := by
  rw [buildTree, treeLeaves_scaleTree hk, List.length_map, buildLoop_scaleTree hk, buildTree]

/-- No weight shows in the paths. -/
@[simp] theorem walkTree_scaleTree (k : Rat) (t : CodeTree) (path : Bits) :
    walkTree (scaleTree k t) path = walkTree t path := by
  induction t generalizing path with
  | leaf => rfl
  | node l r w m ihl ihr => rw [scaleTree, walkTree, walkTree, ihl, ihr]

/-- No weight shows in the number of nodes. -/
@[simp] theorem internalCount_scaleTree (k : Rat) (t : CodeTree) : internalCount (scaleTree k t) = internalCount t := by
  induction t with
  | leaf => rfl
  | node l r w m ihl ihr => rw [scaleTree, internalCount, internalCount, ihl, ihr]

/-- No weight shows in a reference. -/
@[simp] theorem treeRef_scaleTree (k : Rat) (n : Nat) (t : CodeTree) : treeRef n (scaleTree k t) = treeRef n t := by
  cases t <;> rfl

/-- No weight shows in LAYOUT. -/
@[simp] theorem layoutFrom_scaleTree (k : Rat) (n : Nat) (t : CodeTree) :
    layoutFrom n (scaleTree k t) = layoutFrom n t := by
  induction t generalizing n with
  | leaf => rfl
  | node l r w m ihl ihr => simp [scaleTree, layoutFrom, ihl, ihr]

/-- No weight shows in LOAD. -/
theorem loadCode_scaleTree (k : Rat) (t : CodeTree) : loadCode (scaleTree k t) = loadCode t := by
  have hsymbol : loadSymbol (scaleTree k t) = loadSymbol t := by
    funext x
    simp [loadSymbol, codewordOf]
  simp [loadCode, loadTables, hsymbol]

/-- Settles O54: the counts are the weights scaled by their total, which changes no merge. -/
theorem countsAndWeightsBuildTheSameCode : Obligations.CountsAndWeightsBuildTheSameCode := by
  intro c w h
  obtain ⟨htotal, rfl⟩ := normalizeCounts_eq_ok_iff.mp h
  have hpos : (0 : Rat) < totalCount c := Nat.cast_pos.mpr (Nat.pos_of_ne_zero htotal)
  have hscale : (fun x => (c x : Rat)) = fun x => (totalCount c : Rat) * ((c x : Rat) / (totalCount c : Rat)) :=
    funext fun _ => (mul_div_cancel₀ _ hpos.ne').symm
  rw [hscale, buildTree_scaleTree hpos, Option.map_map]
  exact congrArg (Option.map · _) (funext fun t => (loadCode_scaleTree _ t).symm)

end Sys2Proof.Machine
end

section
/-! SUPPORT. Instructions performed one after the other (`20_memory.md` R71), and LOAD (`41_host_reference_compile.md` R130
to R132): what the tables hold after it, and that the load is consistent. -/

namespace Sys2Proof.Machine

/-! ## Sequences of instructions -/

section
variable {s t : State}

/-- The first instruction, then the others from the state it answers. -/
theorem runInstrs_cons {i : Instr} (h : exec i s = .next t) (is : List Instr) :
    runInstrs (i :: is) s = runInstrs is t := by
  rw [runInstrs, h]

/-- A first part of a sequence, then the rest from the state it answers. -/
theorem runInstrs_append {is : List Instr} (h : runInstrs is s = .next t) (js : List Instr) :
    runInstrs (is ++ js) s = runInstrs js t := by
  induction is generalizing s with
  | nil => cases h; rfl
  | cons i is ih =>
    rw [List.cons_append, runInstrs]
    rw [runInstrs] at h
    cases he : exec i s with
    | next u => rw [he] at h; exact ih h
    | fault r => rw [he] at h; cases h
    | refused r => rw [he] at h; cases h

end

/-- A sequence made of one part for each item, where each part answers the item's update and keeps what the next part
needs. -/
theorem runInstrs_flatMap {α : Type} {P : State → Prop} {part : α → List Instr} {update : State → α → State}
    (hpart : ∀ s x, P s → runInstrs (part x) s = .next (update s x) ∧ P (update s x)) (xs : List α) {s : State}
    (hs : P s) : runInstrs (xs.flatMap part) s = .next (xs.foldl update s) ∧ P (xs.foldl update s) := by
  induction xs generalizing s with
  | nil => exact ⟨rfl, hs⟩
  | cons x xs ih =>
    obtain ⟨hx, hP⟩ := hpart s x hs
    rw [List.flatMap_cons, runInstrs_append hx]
    exact ih hP

/-- After writes to different places, each place reads what was written to it. -/
theorem read_foldl_write {α σ ι ε : Type} [DecidableEq ι] {P : σ → Prop} {read : σ → ι → ε} {write : σ → α → σ}
    {place : α → ι} {value : α → ε} (hP : ∀ s x, P s → P (write s x))
    (hread : ∀ s x i, P s → read (write s x) i = if i = place x then value x else read s i) {xs : List α}
    (hxs : (xs.map place).Nodup) {s : σ} (hs : P s) :
    P (xs.foldl write s) ∧ ∀ x ∈ xs, read (xs.foldl write s) (place x) = value x := by
  induction xs using List.reverseRecOn with
  | nil => exact ⟨hs, by simp⟩
  | append_singleton xs y ih =>
    rw [List.map_append, List.nodup_append] at hxs
    obtain ⟨hxs, -, hy⟩ := hxs
    obtain ⟨hP', hvalue⟩ := ih hxs
    rw [List.foldl_append]
    refine ⟨hP _ y hP', fun x hx => ?_⟩
    rw [List.foldl_cons, List.foldl_nil, hread _ y _ hP']
    rcases List.mem_append.mp hx with hx | hx
    · rw [if_neg (hy _ (List.mem_map_of_mem hx) _ (List.mem_singleton_self _)), hvalue x hx]
    · rw [if_pos (congrArg place (List.mem_singleton.mp hx)), List.mem_singleton.mp hx]

/-! ## Writes of the tables -/

/-- Of two writes of one index the second remains. -/
theorem tableSet_tableSet {α : Type} [DecidableEq α] {d : α} {t : Table α} (hw : tableWf d t = true) {k : Nat}
    (hk : k < 256) (v v' : α) : tableSet d (tableSet d t k v) k v' = tableSet d t k v' := by
  have hw' := tableWf_tableSet hw hk v
  refine eq_of_tableGet_eq (tableWf_tableSet hw' hk v') (tableWf_tableSet hw hk v') fun j _ => ?_
  simp only [tableGet_tableSet hw', tableGet_tableSet hw]
  split <;> rfl

section
variable {s : State}

/-- A codeword entry read back after its write. -/
theorem cwEntry_setCwEntry_same (h : TablesInv s) (x : Byte) (e : CodewordEntry) :
    cwEntry (setCwEntry s x e) x = e := by
  rw [cwEntry_setCwEntry h.1, if_pos rfl]

/-- A node entry read back after its write. -/
theorem ntEntry_setNtEntry_same (h : TablesInv s) (n : Byte) (e : NodeEntry) :
    ntEntry (setNtEntry s n e) n = e := by
  rw [ntEntry_setNtEntry h.2, if_pos rfl]

/-- Of two writes of one codeword entry the second remains. -/
theorem setCwEntry_setCwEntry (h : TablesInv s) (x : Byte) (e e' : CodewordEntry) :
    setCwEntry (setCwEntry s x e) x e' = setCwEntry s x e' :=
  congrArg (fun cwt => { s with cwt := cwt }) (tableSet_tableSet h.1 x.isLt e e')

/-- Of two writes of one node entry the second remains. -/
theorem setNtEntry_setNtEntry (h : TablesInv s) (n : Byte) (e e' : NodeEntry) :
    setNtEntry (setNtEntry s n e) n e' = setNtEntry s n e' :=
  congrArg (fun nt => { s with nt := nt }) (tableSet_tableSet h.2 n.isLt e e')

/-- A write of a codeword entry keeps both tables canonical. -/
theorem TablesInv.setCwEntry (h : TablesInv s) (x : Byte) (e : CodewordEntry) :
    TablesInv (Machine.setCwEntry s x e) := ⟨cwt_wf_setCwEntry h.1 x e, h.2⟩

/-- A write of a node entry keeps both tables canonical. -/
theorem TablesInv.setNtEntry (h : TablesInv s) (n : Byte) (e : NodeEntry) :
    TablesInv (Machine.setNtEntry s n e) := ⟨h.1, nt_wf_setNtEntry h.2 n e⟩

/-- CW_DEF while unlocked (`42_table_load.md` R141). -/
theorem exec_cwDef (hl : s.locked = false) (x : Byte) (v : Bool) (len : Byte) :
    exec (.cwDef x v len) s = .next (setCwEntry s x { v := v, len := len, bits := 0 }) :=
  congrArg _ (guardUnlocked_unlocked hl)

/-- CW_BITS while unlocked, on an entry just written (`42_table_load.md` R142). -/
theorem exec_cwBits_setCwEntry (h : TablesInv s) (hl : s.locked = false) (x : Byte) (e : CodewordEntry)
    (idx : BitVec 5) (data : Byte) :
    exec (.cwBits x idx data) (setCwEntry s x e) =
      .next (setCwEntry s x { e with bits := putChunk e.bits idx data }) := by
  refine (congrArg _ (guardUnlocked_unlocked (s := setCwEntry s x e) hl)).trans ?_
  rw [cwEntry_setCwEntry_same h, setCwEntry_setCwEntry h]

/-- NODE_L while unlocked (`42_table_load.md` R143). -/
theorem exec_nodeL (hl : s.locked = false) (n : Byte) (leaf : Bool) (ref : Byte) :
    exec (.nodeL n leaf ref) s = .next (setNtEntry s n { ntEntry s n with lv := true, l := refOf leaf ref }) :=
  congrArg _ (guardUnlocked_unlocked hl)

/-- NODE_R while unlocked (`42_table_load.md` R144). -/
theorem exec_nodeR (hl : s.locked = false) (n : Byte) (leaf : Bool) (ref : Byte) :
    exec (.nodeR n leaf ref) s = .next (setNtEntry s n { ntEntry s n with rv := true, r := refOf leaf ref }) :=
  congrArg _ (guardUnlocked_unlocked hl)

end

/-! ## One codeword (R131, `30_encoding.md` R99) -/

/-- Bit `j` of a chunk is the codeword's bit at that place, and 0 beyond the codeword. -/
theorem chunkByte_getLsbD (cw : Bits) (i : Nat) {j : Nat} (hj : j < 8) :
    (chunkByte cw i).getLsbD (7 - j) = cw.getD (8 * i + j) false := by
  have hbits := byteBits_packByte (t := [0, 1, 2, 3, 4, 5, 6, 7].map fun j => cw.getD (8 * i + j) false) rfl
  have hbit := congrArg (fun l => l.getD j false) hbits
  interval_cases j <;> exact hbit

/-- The stored bits after the first `k` chunks of a codeword. -/
def chunkBits (cw : Bits) (k : Nat) : BitVec 256 :=
  (List.range k).foldl (fun bits i => putChunk bits (BitVec.ofNat 5 i) (chunkByte cw i)) 0

/-- One chunk more. -/
theorem chunkBits_succ (cw : Bits) (k : Nat) :
    chunkBits cw (k + 1) = putChunk (chunkBits cw k) (BitVec.ofNat 5 k) (chunkByte cw k) := by
  simp [chunkBits, List.range_succ]

/-- The chunks hold the codeword's bits, each at its place. -/
theorem chunkBits_getLsbD (cw : Bits) {k n : Nat} (hk : k ≤ 32) (hn : n < 256) :
    (chunkBits cw k).getLsbD n = (decide (n / 8 < k) && cw.getD n false) := by
  induction k with
  | zero => simp [chunkBits]
  | succ k ih =>
    have hidx : (BitVec.ofNat 5 k).toNat = k := by
      rw [BitVec.toNat_ofNat]
      exact Nat.mod_eq_of_lt (by omega)
    rw [chunkBits_succ, putChunk_getLsbD _ _ _ n hn, hidx, ih (by omega)]
    by_cases hnk : n / 8 = k
    · have hplace : 8 * k + n % 8 = n := by omega
      rw [if_pos hnk, chunkByte_getLsbD _ _ (Nat.mod_lt n (by omega)), hplace]
      simp [hnk]
    · have hlt : n / 8 < k + 1 ↔ n / 8 < k := by omega
      simp [hnk, hlt]

/-- The entry that the commands of one symbol leave: its codeword, or the blank entry. -/
def loadedEntry : Option Bits → CodewordEntry
  | some cw => { v := true, len := BitVec.ofNat 8 cw.length, bits := chunkBits cw ((cw.length + 7) / 8) }
  | none => CodewordEntry.blank

/-- A loaded entry is valid when there is a codeword. -/
@[simp] theorem loadedEntry_v (cw : Option Bits) : (loadedEntry cw).v = cw.isSome := by
  cases cw <;> rfl

/-- A loaded entry holds its codeword. -/
theorem codeword_loadedEntry {cw : Bits} (h : cw.length ≤ 255) : codeword (loadedEntry (some cw)) = cw := by
  have hlen : (BitVec.ofNat 8 cw.length).toNat = cw.length := by
    rw [BitVec.toNat_ofNat]
    exact Nat.mod_eq_of_lt (by omega)
  refine List.ext_getElem (by rw [codeword_length]; exact hlen) fun i _ hi => ?_
  rw [codeword_getElem]
  refine (chunkBits_getLsbD cw (by omega) (by omega)).trans ?_
  simp [show i / 8 < (cw.length + 7) / 8 by omega, hi]

section
variable {s : State}

/-- The chunks of a codeword after its CW_DEF. -/
theorem runInstrs_chunks (h : TablesInv s) (hl : s.locked = false) (x len : Byte) (v : Bool) (cw : Bits) (k : Nat) :
    runInstrs ((List.range k).map fun i => .cwBits x (BitVec.ofNat 5 i) (chunkByte cw i))
        (setCwEntry s x { v := v, len := len, bits := 0 }) =
      .next (setCwEntry s x { v := v, len := len, bits := chunkBits cw k }) := by
  induction k with
  | zero => rfl
  | succ k ih =>
    rw [List.range_succ, List.map_append, runInstrs_append ih, chunkBits_succ]
    exact runInstrs_cons (exec_cwBits_setCwEntry h hl x _ _ _) []

/-- The commands of one symbol write its entry. -/
theorem runInstrs_loadSymbol (h : TablesInv s) (hl : s.locked = false) (t : CodeTree) (x : Byte) :
    runInstrs (loadSymbol t x) s = .next (setCwEntry s x (loadedEntry (codewordOf t x))) := by
  unfold loadSymbol
  cases codewordOf t x with
  | none => exact runInstrs_cons (exec_cwDef hl x false 0) []
  | some cw => exact (runInstrs_cons (exec_cwDef hl x true _) _).trans (runInstrs_chunks h hl x _ true cw _)

end

/-! ## One node (R130, R131) -/

/-- A row of LAYOUT: the number of an Internal node and its two references. -/
abbrev LayoutRow := Nat × (Bool × Byte) × (Bool × Byte)

/-- The node index of a row of LAYOUT. -/
abbrev layoutIndex (e : LayoutRow) : Byte := BitVec.ofNat 8 e.1

/-- The node entry of a row of LAYOUT. -/
def layoutEntry (e : LayoutRow) : NodeEntry :=
  { lv := true, l := refOf e.2.1.1 e.2.1.2, rv := true, r := refOf e.2.2.1 e.2.2.2 }

/-- The commands of one node write its entry. -/
theorem runInstrs_loadNode {s : State} (h : TablesInv s) (hl : s.locked = false) (e : LayoutRow) :
    runInstrs (loadNode e) s = .next (setNtEntry s (layoutIndex e) (layoutEntry e)) := by
  rw [loadNode, runInstrs_cons (exec_nodeL hl _ _ _)]
  refine (runInstrs_cons (exec_nodeR (s := setNtEntry ..) hl _ _ _) _).trans ?_
  rw [ntEntry_setNtEntry_same h, setNtEntry_setNtEntry h]
  rfl

/-- LAYOUT numbers the Internal nodes one after the other. -/
theorem layoutFrom_numbers (n : Nat) (t : CodeTree) :
    (layoutFrom n t).map Prod.fst = List.range' n (internalCount t) := by
  induction t generalizing n with
  | leaf => rfl
  | node l r w m ihl ihr =>
    rw [layoutFrom, internalCount, List.map_cons, List.map_append, ihl, ihr, List.range'_append_1,
      show 1 + internalCount l + internalCount r = internalCount l + internalCount r + 1 by omega, List.range'_succ]

/-- Up to 256 Internal nodes have different node indexes. -/
theorem layoutFrom_indexes_nodup {t : CodeTree} (h : internalCount t ≤ 256) :
    ((layoutFrom 0 t).map layoutIndex).Nodup := by
  have hindexes : (layoutFrom 0 t).map layoutIndex = allSymbols.take (internalCount t) := by
    rw [allSymbols, ← List.map_take, List.take_range, Nat.min_eq_left h, List.range_eq_range', ← layoutFrom_numbers,
      List.map_map]
    rfl
  rw [hindexes]
  exact nodup_allSymbols.take

/-! ## The whole load (R131) -/

/-- The state after the codeword commands of the symbols `xs`. -/
def codewordsLoaded (t : CodeTree) (xs : List Byte) (s : State) : State :=
  xs.foldl (fun u x => setCwEntry u x (loadedEntry (codewordOf t x))) s

/-- The state after the node commands of the rows `es` of LAYOUT. -/
def nodesLoaded (es : List LayoutRow) (s : State) : State :=
  es.foldl (fun u e => setNtEntry u (layoutIndex e) (layoutEntry e)) s

/-- The root register of a tree laid out. -/
def layoutRoot (t : CodeTree) : Root := { v := true, leaf := (treeRef 0 t).1, val := (treeRef 0 t).2 }

/-- The state after LOAD. -/
def codeLoaded (t : CodeTree) (s : State) : State :=
  { nodesLoaded (layoutFrom 0 t) (codewordsLoaded t allSymbols s) with root := layoutRoot t, locked := true }

/-- The codeword commands touch `cwt` only. -/
theorem codewordsLoaded_frame (t : CodeTree) (xs : List Byte) (s : State) :
    codewordsLoaded t xs s = { s with cwt := (codewordsLoaded t xs s).cwt } := by
  induction xs generalizing s with
  | nil => rfl
  | cons x xs ih => exact ih (setCwEntry s x _)

/-- The node commands touch `nt` only. -/
theorem nodesLoaded_frame (es : List LayoutRow) (s : State) :
    nodesLoaded es s = { s with nt := (nodesLoaded es s).nt } := by
  induction es generalizing s with
  | nil => rfl
  | cons e es ih => exact ih (setNtEntry s _ _)

/-- LOAD touches the Compiled Code and the lock only. -/
theorem codeLoaded_frame (t : CodeTree) (s : State) :
    codeLoaded t s = { s with cwt := (codeLoaded t s).cwt, nt := (codeLoaded t s).nt, root := (codeLoaded t s).root,
                              locked := true } := by
  rw [codeLoaded, nodesLoaded_frame, codewordsLoaded_frame]

section
variable {s : State}

/-- The codeword commands leave their symbols' entries. -/
theorem cwEntry_codewordsLoaded (h : TablesInv s) (t : CodeTree) {xs : List Byte} (hxs : xs.Nodup) :
    TablesInv (codewordsLoaded t xs s) ∧
      ∀ x ∈ xs, cwEntry (codewordsLoaded t xs s) x = loadedEntry (codewordOf t x) :=
  read_foldl_write (read := cwEntry) (place := id) (value := fun x => loadedEntry (codewordOf t x))
    (write := fun u x => setCwEntry u x (loadedEntry (codewordOf t x))) (fun _ _ hu => hu.setCwEntry _ _)
    (fun _ _ _ hu => cwEntry_setCwEntry hu.1 _ _ _) (by rwa [List.map_id]) h

/-- The node commands leave their rows of LAYOUT in the node table. -/
theorem ntEntry_nodesLoaded (h : TablesInv s) {es : List LayoutRow} (hes : (es.map layoutIndex).Nodup) :
    TablesInv (nodesLoaded es s) ∧ ∀ e ∈ es, ntEntry (nodesLoaded es s) (layoutIndex e) = layoutEntry e :=
  read_foldl_write (read := ntEntry) (place := layoutIndex) (value := layoutEntry)
    (write := fun u e => setNtEntry u (layoutIndex e) (layoutEntry e)) (fun _ _ hu => hu.setNtEntry _ _)
    (fun _ _ _ hu => ntEntry_setNtEntry hu.2 _ _ _) hes h

/-- The codeword commands from an unlocked state. -/
theorem runInstrs_codewords (h : TablesInv s) (hl : s.locked = false) (t : CodeTree) (xs : List Byte) :
    runInstrs (xs.flatMap (loadSymbol t)) s = .next (codewordsLoaded t xs s) ∧
      TablesInv (codewordsLoaded t xs s) ∧ (codewordsLoaded t xs s).locked = false :=
  runInstrs_flatMap (P := fun u => TablesInv u ∧ u.locked = false)
    (fun _ x hu => ⟨runInstrs_loadSymbol hu.1 hu.2 t x, hu.1.setCwEntry x _, hu.2⟩) xs ⟨h, hl⟩

/-- The node commands from an unlocked state. -/
theorem runInstrs_nodes (h : TablesInv s) (hl : s.locked = false) (es : List LayoutRow) :
    runInstrs (es.flatMap loadNode) s = .next (nodesLoaded es s) ∧
      TablesInv (nodesLoaded es s) ∧ (nodesLoaded es s).locked = false :=
  runInstrs_flatMap (P := fun u => TablesInv u ∧ u.locked = false)
    (fun _ e hu => ⟨runInstrs_loadNode hu.1 hu.2 e, hu.1.setNtEntry _ _, hu.2⟩) es ⟨h, hl⟩

/-- TREE_ROOT while unlocked (`42_table_load.md` R145). -/
theorem exec_treeRoot (hl : s.locked = false) (leaf : Bool) (ref : Byte) :
    exec (.treeRoot leaf ref) s = .next { s with root := { v := true, leaf := leaf, val := ref } } :=
  congrArg _ (guardUnlocked_unlocked hl)

/-- LOAD from an unlocked state. -/
theorem runInstrs_loadCode (h : TablesInv s) (hl : s.locked = false) (t : CodeTree) :
    runInstrs (loadCode t) s = .next (codeLoaded t s) := by
  obtain ⟨hcodewords, hinv, hlocked⟩ := runInstrs_codewords h hl t allSymbols
  obtain ⟨hnodes, -, hlocked⟩ := runInstrs_nodes hinv hlocked (layoutFrom 0 t)
  rw [loadCode, loadTables, List.append_assoc, List.append_assoc, runInstrs_append hcodewords, runInstrs_append hnodes]
  exact runInstrs_cons (exec_treeRoot hlocked _ _) _

/-- After LOAD every codeword entry is that of its symbol. -/
theorem cwEntry_codeLoaded (h : TablesInv s) (t : CodeTree) (x : Byte) :
    cwEntry (codeLoaded t s) x = loadedEntry (codewordOf t x) := by
  have hcwt : (codeLoaded t s).cwt = (codewordsLoaded t allSymbols s).cwt := by rw [codeLoaded, nodesLoaded_frame]
  rw [cwEntry, hcwt]
  exact (cwEntry_codewordsLoaded h t nodup_allSymbols).2 x (mem_allSymbols x)

/-- After LOAD the node table holds LAYOUT. -/
theorem ntEntry_codeLoaded (h : TablesInv s) {t : CodeTree} (ht : internalCount t ≤ 256) :
    ∀ e ∈ layoutFrom 0 t, ntEntry (codeLoaded t s) (layoutIndex e) = layoutEntry e :=
  (ntEntry_nodesLoaded (cwEntry_codewordsLoaded h t nodup_allSymbols).1 (layoutFrom_indexes_nodup ht)).2

end

/-! ## Walks in the node table (R132) -/

section
variable {s : State}

/-- The walk from a reference: a Leaf ends it, an Internal node goes on. -/
def walkRef (s : State) (ref : Ref) (bits : Bits) : Option Byte :=
  if refIsLeaf ref then (if bits = [] then some (refVal ref) else none) else walkNodes s (refVal ref) bits

/-- A walk from a node follows its first bit to the child, and goes on from there. -/
theorem walkNodes_cons (s : State) (pos : Byte) (b : Bool) (bs : Bits) :
    walkNodes s pos (b :: bs) = (childOf (ntEntry s pos) b).bind fun ref => walkRef s ref bs := by
  rw [walkNodes]
  cases childOf (ntEntry s pos) b <;> rfl

/-- The walk from the root register is that from the root's reference. -/
theorem walkRoot_eq_walkRef (h : s.root.v = true) (bits : Bits) :
    walkRoot s bits = walkRef s (refOf s.root.leaf s.root.val) bits := by
  simp [walkRoot, walkRef, h]

/-- In a node table that describes a tree, a walk ends at a symbol exactly when its bits are a path to the symbol. -/
theorem walkRef_eq_some_iff {ref : Ref} {t : CodeTree} (h : refDescribes s ref t) (bits : Bits) (x : Byte) :
    walkRef s ref bits = some x ↔ (x, bits) ∈ walkTree t [] := by
  induction t generalizing ref bits with
  | leaf y w =>
    obtain ⟨hleaf, rfl⟩ := h
    simp [walkRef, hleaf, mem_walkTree_leaf, eq_comm, and_comm]
  | node l r w m ihl ihr =>
    obtain ⟨hleaf, ⟨cl, hcl, hl⟩, cr, hcr, hr⟩ := h
    simp only [walkRef, hleaf, mem_walkTree_node]
    cases bits with
    | nil => simp [walkNodes]
    | cons b bs =>
      cases b
      · simp [walkNodes_cons, hcl, ihl hl, subtree]
      · simp [walkNodes_cons, hcr, ihr hr, subtree]

/-- Codeword entries and a node table that both hold one tree are consistent. -/
theorem consistent_of_tree {t : CodeTree} (ht : (treeSymbols t).Nodup)
    (hcw : ∀ x, cwEntry s x = loadedEntry (codewordOf t x)) (hv : s.root.v = true)
    (hd : refDescribes s (refOf s.root.leaf s.root.val) t) : Consistent s := by
  have hwalk (bits : Bits) (x : Byte) : walkRoot s bits = some x ↔ codewordOf t x = some bits := by
    rw [walkRoot_eq_walkRef hv, walkRef_eq_some_iff hd, codewordOf_eq_some_iff ht]
  refine ⟨⟨fun x hx => ?_, fun bits x h => ?_⟩, hv, t, hd⟩
  · rw [hcw, loadedEntry_v] at hx
    obtain ⟨cw, hx⟩ := Option.isSome_iff_exists.mp hx
    have hlen := (length_le_of_mem_walkTree ((codewordOf_eq_some_iff ht).mp hx)).trans (internalCount_le ht)
    rw [hcw, hx, codeword_loadedEntry hlen, hwalk, hx]
  · rw [hcw, loadedEntry_v, (hwalk bits x).mp h, Option.isSome_some]

end

/-- Everything the compile of a frequency table can succeed with: the load of the tree built from its weights. -/
theorem compileCounts_ok {c : Counts} {load : List Instr} (h : compileCounts c = .ok load) :
    ∃ w t, normalizeCounts c = .ok w ∧ buildTree w = some t ∧ load = loadCode t := by
  unfold compileCounts at h
  split at h
  · cases h
  · rename_i w hw
    split at h
    · cases h
    · rename_i t ht
      exact ⟨w, t, hw, ht, (Except.ok.inj h).symm⟩

/-- Settles O59: after LOAD both tables hold the built tree. -/
theorem loadIsConsistent : Obligations.LoadIsConsistent := by
  intro c load s hload hs hl
  obtain ⟨w, t, hw, ht, rfl⟩ := compileCounts_ok hload
  have hnodup := buildTree_nodup ht
  have hdescribes : refDescribes (codeLoaded t s) (refOf (layoutRoot t).leaf (layoutRoot t).val) t :=
    refDescribes_of_layout t 0 (ntEntry_codeLoaded hs ((internalCount_le hnodup).trans (Nat.le_succ 255)))
  refine ⟨codeLoaded t s, runInstrs_loadCode hs hl t,
    consistent_of_tree hnodup (cwEntry_codeLoaded hs t) rfl hdescribes, rfl, rfl, fun x => ?_, codeLoaded_frame t s⟩
  obtain ⟨htotal, rfl⟩ := normalizeCounts_eq_ok_iff.mp hw
  have hpos : (0 : Rat) < totalCount c := Nat.cast_pos.mpr (Nat.pos_of_ne_zero htotal)
  rw [cwEntry_codeLoaded hs, loadedEntry_v, codewordOf_isSome_iff, mem_buildTree_symbols ht,
    div_pos_iff_of_pos_right hpos, Nat.cast_pos]

end Sys2Proof.Machine
end

section
/-! SUPPORT. Messages: what ENC_MSG commits (`43_encoder.md` R153 to R157), how DEC_MSG takes a payload from its bytes
(`44_decoder.md` R182), and the round trip (`41_host_reference_compile.md` R134). -/

namespace Sys2Proof.Machine

variable {s t : State}

/-! ## A message of the encoder -/

/-- The codewords of a message, one after the other. -/
abbrev messageBits (s : State) (syms : List Byte) : Bits := syms.flatMap fun x => codeword (cwEntry s x)

/-- The length of a message's bits, first symbol first. -/
theorem messageBits_cons_length (s : State) (x : Byte) (syms : List Byte) :
    (messageBits s (x :: syms)).length = (cwEntry s x).len.toNat + (messageBits s syms).length := by simp

/-- The state in which ENC_START begins a message (`43_encoder.md` R151). -/
def encStarted (s : State) : State :=
  { s with encSt := .active, encAcc := [], encPend := [], encNsym := 0, encNbits := 0 }

/-- ENC_START from IDLE, while locked. -/
theorem exec_encStart_idle (hi : s.encSt = .idle) (hl : s.locked = true) : exec .encStart s = .next (encStarted s) := by
  simp [exec, execEncStart, hi, hl, encStarted]

/-- ENC_SYM of a symbol with a codeword and room for its bytes. -/
theorem exec_encSym_room {x : Byte} (ha : s.encSt = .active) (hv : (cwEntry s x).v = true)
    (hroom : s.encQ.length + s.encPend.length + completedBytes s (cwEntry s x) ≤ s.cfg.encDepth) :
    exec (.encSym x) s = .next (appendCodeword (cwEntry s x) s) := by
  have hfull : encFull s (completedBytes s (cwEntry s x)) = false := by simpa [encFull] using hroom
  simp [exec, execEncSym, ha, hv, hfull]

/-- ENC_END with room for the final byte. -/
theorem exec_encEnd_room (ha : s.encSt = .active) (hroom : s.encQ.length + s.encPend.length + 1 ≤ s.cfg.encDepth) :
    exec .encEnd s = .next (commitEncoder s) := by
  have hfull : encFull s 1 = false := by simpa [encFull] using hroom
  simp [exec, execEncEnd, ha, hfull]

/-- The state after the symbols `syms` of a message, with the held bits `acc` and the pending bytes `pend`. -/
def encAppended (s : State) (syms : List Byte) (acc : Bits) (pend : List Byte) : State :=
  { s with
    encAcc := acc
    encPend := pend
    encNsym := s.encNsym + BitVec.ofNat 32 syms.length
    encNbits := s.encNbits + BitVec.ofNat 32 (messageBits s syms).length }

/-- No symbol changes nothing. -/
theorem encAppended_nil (s : State) : encAppended s [] s.encAcc s.encPend = s := by simp [encAppended]

/-- The counters count the first symbol and then the others. -/
theorem encAppended_cons (s : State) (x : Byte) (syms : List Byte) (acc : Bits) (pend : List Byte) :
    encAppended (appendCodeword (cwEntry s x) s) syms acc pend = encAppended s (x :: syms) acc pend := by
  have hnsym : s.encNsym + 1 + BitVec.ofNat 32 syms.length = s.encNsym + BitVec.ofNat 32 (syms.length + 1) := by
    rw [BitVec.ofNat_add, BitVec.add_assoc, BitVec.add_comm 1]
    rfl
  have hnbits : s.encNbits + (cwEntry s x).len.setWidth 32 + BitVec.ofNat 32 (messageBits s syms).length =
      s.encNbits + BitVec.ofNat 32 (messageBits s (x :: syms)).length := by
    rw [messageBits_cons_length, BitVec.ofNat_add, BitVec.add_assoc, BitVec.ofNat_toNat]
  rw [encAppended, encAppended, List.length_cons, ← hnsym, ← hnbits]
  rfl

/-- The symbols of a message that has room: packed bytes and held bits are all bits so far. -/
theorem runInstrs_encSyms {syms : List Byte} (ha : s.encSt = .active) (hacc : s.encAcc.length < 8)
    (hv : ∀ x ∈ syms, (cwEntry s x).v = true)
    (hroom : s.encQ.length + s.encPend.length + (s.encAcc.length + (messageBits s syms).length) / 8 ≤ s.cfg.encDepth) :
    ∃ acc pend, runInstrs (syms.map .encSym) s = .next (encAppended s syms acc pend) ∧ acc.length < 8 ∧
      pend.flatMap byteBits ++ acc = s.encPend.flatMap byteBits ++ s.encAcc ++ messageBits s syms := by
  induction syms generalizing s with
  | nil => exact ⟨s.encAcc, s.encPend, by rw [encAppended_nil]; rfl, hacc, by simp⟩
  | cons x syms ih =>
    obtain ⟨hvx, hv⟩ := List.forall_mem_cons.mp hv
    rw [messageBits_cons_length] at hroom
    have hcompleted : completedBytes s (cwEntry s x) = (s.encAcc.length + (cwEntry s x).len.toNat) / 8 := rfl
    have hacc_u := appendCodeword_encAcc_length (cwEntry s x) s
    have hpend_u := appendCodeword_encPend_length (cwEntry s x) s
    have hfirst := exec_encSym_room ha hvx (by omega)
    obtain ⟨acc, pend, hrun, hacc', hbits⟩ := ih (s := appendCodeword (cwEntry s x) s) ha (by omega) hv (by
      show s.encQ.length + (appendCodeword (cwEntry s x) s).encPend.length +
        ((appendCodeword (cwEntry s x) s).encAcc.length + (messageBits s syms).length) / 8 ≤ s.cfg.encDepth
      omega)
    refine ⟨acc, pend, ?_, hacc', ?_⟩
    · rw [List.map_cons, runInstrs_cons hfirst, hrun, encAppended_cons]
    · rw [hbits, appendCodeword_bits, List.append_assoc]
      rfl

/-- The state after a message of the symbols `syms` that commits `bytes` (`43_encoder.md` R156). -/
def encCommitted (s : State) (syms bytes : List Byte) : State :=
  { s with
    encSt := .idle
    encAcc := []
    encPend := []
    encQ := s.encQ ++ tagLast bytes
    encNsym := BitVec.ofNat 32 syms.length
    encNbits := BitVec.ofNat 32 (messageBits s syms).length }

/-- ENC_END of a message commits its bytes and the padded rest. -/
theorem commitEncoder_encAppended (s : State) (syms : List Byte) (held : Bits) (bytes : List Byte) :
    commitEncoder (encAppended (encStarted s) syms held bytes) =
      encCommitted s syms (bytes ++ [packByte (held ++ paddingFor held.length)]) := by
  rw [encCommitted, ← zero_add (BitVec.ofNat 32 syms.length), ← zero_add (BitVec.ofNat 32 (messageBits s syms).length)]
  rfl

/-- ENC_MSG with a codeword for every symbol and room for the message commits the packing of its codewords, the last
bits padded (`43_encoder.md` R157). -/
theorem runInstrs_encMsg {syms : List Byte} (hi : s.encSt = .idle) (hl : s.locked = true)
    (hv : ∀ x ∈ syms, (cwEntry s x).v = true)
    (hroom : s.encQ.length + ((messageBits s syms).length / 8 + 1) ≤ s.cfg.encDepth) :
    ∃ bytes held,
      runInstrs (encMsg syms) s =
        .next (encCommitted s syms (bytes ++ [packByte (held ++ paddingFor held.length)])) ∧
      held.length < 8 ∧ bytes.flatMap byteBits ++ held = messageBits s syms := by
  obtain ⟨held, bytes, hrun, hheld, hbits⟩ := runInstrs_encSyms (s := encStarted s) (syms := syms) rfl
    (Nat.zero_lt_succ 7) hv (by
      show s.encQ.length + 0 + (0 + (messageBits s syms).length) / 8 ≤ s.cfg.encDepth
      omega)
  have hbits : bytes.flatMap byteBits ++ held = messageBits s syms := hbits
  refine ⟨bytes, held, ?_, hheld, hbits⟩
  have hlen := congrArg List.length hbits
  rw [List.length_append, flatMap_byteBits_length] at hlen
  have hend := exec_encEnd_room (s := encAppended (encStarted s) syms held bytes) rfl (by
    show s.encQ.length + bytes.length + 1 ≤ s.cfg.encDepth
    omega)
  rw [commitEncoder_encAppended] at hend
  rw [encMsg, runInstrs_cons (exec_encStart_idle hi hl), runInstrs_append hrun]
  exact runInstrs_cons hend []

/-! ## A message of the decoder -/

/-- A failure ends a run of FEEDs. -/
theorem feedBits_append_error {bs cs : Bits} (h : feedBits bs s = .error t) : feedBits (bs ++ cs) s = .error t := by
  induction bs generalizing s with
  | nil => cases h
  | cons b bs ih =>
    rw [List.cons_append, feedBits]
    rw [feedBits] at h
    cases hb : feed b s with
    | ok u => rw [hb] at h; exact ih h
    | error u => rw [hb] at h; exact h

/-- A run of FEEDs without failure, taken apart. -/
theorem feedBits_append_ok {bs cs : Bits} (h : feedBits (bs ++ cs) s = .ok t) :
    ∃ u, feedBits bs s = .ok u ∧ feedBits cs u = .ok t := by
  cases hb : feedBits bs s with
  | ok u => exact ⟨u, rfl, by rw [← feedBits_append hb, h]⟩
  | error u => rw [feedBits_append_error hb] at h; cases h

/-- One more byte in front of the final ones. -/
theorem decBytes_cons_append (b : Byte) (bytes : List Byte) (final : Byte) :
    decBytes (b :: (bytes ++ [final])) = .decByte false b :: decBytes (bytes ++ [final]) := by
  cases bytes <;> rfl

/-- DEC_BYTE during a message. -/
theorem exec_decByte_active (ha : s.decSt = .active) (last : Bool) (byte : Byte) :
    exec (.decByte last byte) s = .next (if last then feedFinalByte byte s else feedWholeByte byte s) :=
  execDecByte_active ha last byte

/-- The bytes of a message whose payload is fed without failure: the FEEDs of all of it, then the message's end. -/
theorem runInstrs_decBytes {bytes : List Byte} {final : Byte} (ha : s.decSt = .active) (hz : final ≠ 0)
    (h : feedBits (bytes.flatMap byteBits ++ finalPayload final) s = .ok t) :
    runInstrs (decBytes (bytes ++ [final])) s = .next (finishMessage t) := by
  induction bytes generalizing s with
  | nil =>
    refine (runInstrs_cons (exec_decByte_active ha true final) []).trans ?_
    have hfeed : feedBits (finalPayload final) s = .ok t := h
    rw [if_pos rfl, feedFinalByte, if_neg hz, hfeed]
    rfl
  | cons b bytes ih =>
    rw [List.flatMap_cons, List.append_assoc] at h
    obtain ⟨u, hu, ht⟩ := feedBits_append_ok h
    have hb : exec (.decByte false b) s = .next u := by
      refine (exec_decByte_active ha false b).trans ?_
      simp [feedWholeByte, hu]
    obtain ⟨_, _, _, _, rfl⟩ := feedBits_update hu
    rw [List.cons_append, decBytes_cons_append, runInstrs_cons hb]
    exact ih ha ht

/-- FEED of a bit that reaches a Leaf, with room for its symbol. -/
theorem feed_leaf {b : Bool} {ref : Ref} (hroot : s.root.leaf = false) (hc : childOf (ntEntry s s.decPos) b = some ref)
    (hr : refIsLeaf ref = true) (hroom : s.decQ.length + s.decPend.length + 1 ≤ s.cfg.decDepth) :
    feed b s = .ok (emitSymbol (refVal ref) s) := by
  have hfull : decFull s = false := by simpa [decFull] using hroom
  simp [feed, hroot, hc, hr, hfull]

/-- FEED of a bit that reaches an Internal node. -/
theorem feed_internal {b : Bool} {ref : Ref} (hroot : s.root.leaf = false)
    (hc : childOf (ntEntry s s.decPos) b = some ref) (hr : refIsLeaf ref = false) :
    feed b s = .ok (descend (refVal ref) s) := by
  simp [feed, hroot, hc, hr]

/-- FEEDs along a walk to a symbol emit the symbol and return to the root. -/
theorem feedBits_walk {bs : Bits} {x : Byte} (hroot : s.root.leaf = false) (hw : walkNodes s s.decPos bs = some x)
    (hroom : s.decQ.length + s.decPend.length + 1 ≤ s.cfg.decDepth) :
    ∃ u, feedBits bs s = .ok u ∧ u.decPos = s.root.val ∧ u.decPend = s.decPend ++ [x] := by
  induction bs generalizing s with
  | nil => cases hw
  | cons b bs ih =>
    rw [walkNodes_cons, Option.bind_eq_some_iff] at hw
    obtain ⟨ref, hc, hw⟩ := hw
    unfold walkRef at hw
    cases hr : refIsLeaf ref with
    | true =>
      rw [if_pos hr, Option.ite_none_right_eq_some] at hw
      obtain ⟨rfl, hx⟩ := hw
      obtain rfl := Option.some.inj hx
      exact ⟨_, by rw [feedBits, feed_leaf hroot hc hr hroom]; rfl, rfl, rfl⟩
    | false =>
      rw [hr, if_neg Bool.false_ne_true] at hw
      rw [feedBits, feed_internal hroot hc hr]
      have hsame := walkNodes_congr (s := descend (refVal ref) s) (t := s) rfl (refVal ref) bs
      exact ih (s := descend (refVal ref) s) hroot (hsame.trans hw) hroom

/-- FEEDs without failure leave the Compiled Code, the queue, the depths and the error. -/
theorem feedBits_kept {bs : Bits} (h : feedBits bs s = .ok t) :
    t.root = s.root ∧ t.nt = s.nt ∧ t.decQ = s.decQ ∧ t.cfg = s.cfg ∧ t.decErr = s.decErr := by
  obtain ⟨_, _, _, _, rfl⟩ := feedBits_update h
  exact ⟨rfl, rfl, rfl, rfl, rfl⟩

/-- FEEDs along the walks of a message's symbols, from the root, emit them all. -/
theorem feedBits_walks {syms : List Byte} {code : Byte → Bits} (hroot : s.root.leaf = false)
    (hpos : s.decPos = s.root.val) (hw : ∀ x ∈ syms, walkNodes s s.root.val (code x) = some x)
    (hroom : s.decQ.length + s.decPend.length + syms.length ≤ s.cfg.decDepth) :
    ∃ u, feedBits (syms.flatMap code) s = .ok u ∧ u.decPos = s.root.val ∧ u.decPend = s.decPend ++ syms := by
  induction syms generalizing s with
  | nil => exact ⟨s, rfl, hpos, by simp⟩
  | cons x syms ih =>
    obtain ⟨hwx, hw⟩ := List.forall_mem_cons.mp hw
    rw [List.length_cons] at hroom
    obtain ⟨u, hu, hupos, hupend⟩ := feedBits_walk hroot (hpos.symm ▸ hwx) (by omega)
    obtain ⟨hroot', hnt, hq, hcfg, -⟩ := feedBits_kept hu
    rw [← hroot'] at hroot hupos hw
    obtain ⟨v, hv, hvpos, hvpend⟩ := ih hroot hupos (fun y hy => (walkNodes_congr hnt _ _).trans (hw y hy)) (by
      rw [hq, hcfg, hupend, List.length_append, List.length_singleton]
      omega)
    refine ⟨v, by rw [List.flatMap_cons, feedBits_append hu, hv], hvpos.trans (congrArg Root.val hroot'), ?_⟩
    rw [hvpend, hupend, List.append_assoc, List.singleton_append]

/-- The end of a message at the root of a tree of two or more leaves commits the pending symbols. -/
theorem finishMessage_at_root (hroot : s.root.leaf = false) (hpos : s.decPos = s.root.val) :
    finishMessage s = commitDecoder s.decPend s := by
  simp [finishMessage, hroot, hpos]

/-- The end of a message under a degenerate tree commits DEG_COUNT copies of its symbol (`44_decoder.md` R178). -/
theorem finishMessage_degenerate (hroot : s.root.leaf = true)
    (hroom : s.decQ.length + s.degCount.toNat ≤ s.cfg.decDepth) :
    finishMessage s = commitDecoder (List.replicate s.degCount.toNat s.root.val) { s with decNsym := s.degCount } := by
  rw [finishMessage, if_pos hroot, if_neg (Nat.not_lt.mpr hroom)]

/-! ## The round trip (R134) -/

/-- R132's two conditions read the Compiled Code alone. -/
theorem CodewordsMatchTree.congr (h : CodewordsMatchTree s) (hc : t.cwt = s.cwt) (hn : t.nt = s.nt)
    (hr : t.root = s.root) : CodewordsMatchTree t := by
  have he (x : Byte) : cwEntry t x = cwEntry s x := by rw [cwEntry, hc, cwEntry]
  have hw (bits : Bits) : walkRoot t bits = walkRoot s bits := by
    simp only [walkRoot, hr, walkNodes_congr hn]
  simpa only [CodewordsMatchTree, he, hw] using h

/-- With the codewords of a tree of two or more leaves, every codeword is a walk from the root. -/
theorem CodewordsMatchTree.walkNodes_eq {x : Byte} (h : CodewordsMatchTree s) (hr : s.root.v = true)
    (hleaf : s.root.leaf = false) (hv : (cwEntry s x).v = true) :
    walkNodes s s.root.val (codeword (cwEntry s x)) = some x := by
  simpa [walkRoot, hr, hleaf] using h.1 x hv

/-- Under a degenerate tree the one symbol is the root's, with the empty codeword. -/
theorem CodewordsMatchTree.degenerate {x : Byte} (h : CodewordsMatchTree s) (hr : s.root.v = true)
    (hleaf : s.root.leaf = true) (hv : (cwEntry s x).v = true) : codeword (cwEntry s x) = [] ∧ x = s.root.val := by
  have hw := h.1 x hv
  rw [walkRoot, if_neg (by simp [hr]), if_pos hleaf, Option.ite_none_right_eq_some] at hw
  exact ⟨hw.1, (Option.some.inj hw.2).symm⟩

/-- The state in which DEC_START begins a message (`44_decoder.md` R171). -/
def decStarted (s : State) : State :=
  { s with decSt := .active, decPos := s.root.val, decPend := [], decNsym := 0, decNbits := 0 }

/-- DEC_START from IDLE, while locked and with a root. -/
theorem exec_decStart_idle (hi : s.decSt = .idle) (hl : s.locked = true) (hr : s.root.v = true) :
    exec .decStart s = .next (decStarted s) := by
  simp [exec, execDecStart, hi, hl, hr, decStarted]

/-- A message of the decoder from IDLE, whose payload the codewords of `syms` are: it commits exactly these symbols. -/
theorem runInstrs_decMsg {syms bytes : List Byte} {final : Byte} (hm : CodewordsMatchTree s) (hi : s.decSt = .idle)
    (hl : s.locked = true) (hr : s.root.v = true) (hv : ∀ x ∈ syms, (cwEntry s x).v = true)
    (hdeg : s.root.leaf = true → s.degCount.toNat = syms.length)
    (hroom : s.decQ.length + syms.length ≤ s.cfg.decDepth) (hz : final ≠ 0)
    (hbits : bytes.flatMap byteBits ++ finalPayload final = messageBits s syms) :
    ∃ u, runInstrs (decMsg (bytes ++ [final])) s = .next u ∧ u.decQ = s.decQ ++ tagLast syms ∧ u.decSt = .idle ∧
      u.decErr = s.decErr := by
  rw [decMsg, runInstrs_cons (exec_decStart_idle hi hl hr)]
  cases hleaf : s.root.leaf with
  | true =>
    have hempty : messageBits s syms = [] :=
      List.flatMap_eq_nil_iff.mpr fun x hx => (hm.degenerate hr hleaf (hv x hx)).1
    have hcopies : syms = List.replicate s.degCount.toNat s.root.val := by
      rw [hdeg hleaf]
      exact List.eq_replicate_of_mem fun x hx => (hm.degenerate hr hleaf (hv x hx)).2
    have hend := finishMessage_degenerate (s := decStarted s) hleaf (by
      show s.decQ.length + s.degCount.toNat ≤ s.cfg.decDepth
      rwa [hdeg hleaf])
    refine ⟨_, (runInstrs_decBytes rfl hz (by rw [hbits, hempty]; rfl)).trans (congrArg _ hend), ?_, rfl, rfl⟩
    conv_rhs => rw [hcopies]
    rfl
  | false =>
    obtain ⟨u, hu, hpos, hpend⟩ := feedBits_walks (syms := syms) (code := fun x => codeword (cwEntry s x))
      (s := decStarted s) hleaf rfl (fun x hx =>
        (walkNodes_congr (s := decStarted s) (t := s) rfl _ _).trans (hm.walkNodes_eq hr hleaf (hv x hx))) (by
      show s.decQ.length + 0 + syms.length ≤ s.cfg.decDepth
      omega)
    obtain ⟨hroot, -, hq, -, herr⟩ := feedBits_kept hu
    have hend := finishMessage_at_root (hroot ▸ hleaf) (hroot ▸ hpos)
    refine ⟨_, (runInstrs_decBytes rfl hz (by rw [hbits]; exact hu)).trans (congrArg _ hend), ?_, rfl, herr⟩
    rw [commitDecoder, hq, hpend]
    rfl

/-- The write of DEG_COUNT before a message, under a degenerate tree. -/
theorem runInstrs_degCount (deg : Bool) (w : Word) (is : List Instr) (s : State) :
    runInstrs ((if deg then [.wrDegCount 0x28 w] else []) ++ is) s =
      runInstrs is { s with degCount := if deg then w else s.degCount } := by
  cases deg <;> rfl

/-- Settles O52: the committed bytes hold the codewords and a padding; without the padding they are the walks of the
symbols, or none under a degenerate tree. -/
theorem encodeThenDecodeIsIdentity : Obligations.EncodeThenDecodeIsIdentity := by
  intro s syms hinv hm hl hr henc hdec hv hencRoom hdecRoom
  obtain ⟨⟨-, -, hdepth⟩, -, -, -, -, ⟨-, herr, -⟩, -⟩ := hinv
  have hnone : s.decErr = .none := by simpa [hdec] using herr
  obtain ⟨bytes, held, hrun, hheld, hbits⟩ := runInstrs_encMsg henc hl hv hencRoom
  obtain ⟨hz, hpayload⟩ := finalPayload_packByte hheld
  have hcount : (BitVec.ofNat 32 syms.length).toNat = syms.length := by
    rw [BitVec.toNat_ofNat]
    exact Nat.mod_eq_of_lt (by omega)
  obtain ⟨u, hu, hq, hst, hsame⟩ := runInstrs_decMsg (s := { encCommitted s syms _ with
      degCount := if s.root.leaf then BitVec.ofNat 32 syms.length else s.degCount })
    (hm.congr rfl rfl rfl) hdec hl hr hv
    (fun hleaf => (congrArg BitVec.toNat (if_pos hleaf)).trans hcount) hdecRoom hz (by rw [hpayload]; exact hbits)
  refine ⟨_, _, u, hrun, rfl, ?_, hq, hst, hsame.trans hnone⟩
  rw [runInstrs_degCount, tagLast_map_fst]
  exact hu

end Sys2Proof.Machine
end

section
/-! SUPPORT. The table-load commands (`42_table_load.md`): the lock guard, the words, what each command writes and what it
keeps. -/

namespace Sys2Proof.Machine

variable {s : State} {c : Instr}

/-! ## The lock guard (R140) -/

/-- The guard, whichever command of the family stands behind it. -/
theorem TableLoadCommand.exec_locked (hc : TableLoadCommand c) (hl : s.locked = true) :
    exec c s = .next { s with cmdErr := if s.cmdErr = .none then .tableLocked else s.cmdErr } := by
  have hguard : ∀ w, (.next (guardUnlocked s w) : Result) =
      .next { s with cmdErr := if s.cmdErr = .none then .tableLocked else s.cmdErr } := fun w => by
    rw [guardUnlocked_locked hl, cmdError_eq]
  rcases hc with ⟨_, _, _, rfl⟩ | ⟨_, _, _, rfl⟩ | ⟨_, _, _, rfl⟩ | ⟨_, _, _, rfl⟩ | ⟨_, _, rfl⟩ <;> exact hguard _

/-- CW_DEF is a table-load command. -/
theorem tableLoadCommand_cwDef (sym : Byte) (v : Bool) (len : Byte) : TableLoadCommand (.cwDef sym v len) :=
  .inl ⟨sym, v, len, rfl⟩

/-- CW_BITS is a table-load command. -/
theorem tableLoadCommand_cwBits (sym : Byte) (idx : BitVec 5) (data : Byte) :
    TableLoadCommand (.cwBits sym idx data) := .inr (.inl ⟨sym, idx, data, rfl⟩)

/-- NODE_L is a table-load command. -/
theorem tableLoadCommand_nodeL (node : Byte) (leaf : Bool) (ref : Byte) : TableLoadCommand (.nodeL node leaf ref) :=
  .inr (.inr (.inl ⟨node, leaf, ref, rfl⟩))

/-- NODE_R is a table-load command. -/
theorem tableLoadCommand_nodeR (node : Byte) (leaf : Bool) (ref : Byte) : TableLoadCommand (.nodeR node leaf ref) :=
  .inr (.inr (.inr (.inl ⟨node, leaf, ref, rfl⟩)))

/-- TREE_ROOT is a table-load command. -/
theorem tableLoadCommand_treeRoot (leaf : Bool) (ref : Byte) : TableLoadCommand (.treeRoot leaf ref) :=
  .inr (.inr (.inr (.inr ⟨leaf, ref, rfl⟩)))

/-- Settles O5: each of the five stands behind the guard. -/
theorem tableCommandsRefusedWhileLocked : Obligations.TableCommandsRefusedWhileLocked := fun _ hl =>
  ⟨fun sym v len => (tableLoadCommand_cwDef sym v len).exec_locked hl,
    fun sym idx data => (tableLoadCommand_cwBits sym idx data).exec_locked hl,
    fun node leaf ref => (tableLoadCommand_nodeL node leaf ref).exec_locked hl,
    fun node leaf ref => (tableLoadCommand_nodeR node leaf ref).exec_locked hl,
    fun leaf ref => (tableLoadCommand_treeRoot leaf ref).exec_locked hl⟩

/-! ## The words (`30_encoding.md` R86) -/

/-- A field at bit 0 is not moved. -/
theorem placeField_at_zero {n : Nat} (x : BitVec n) : placeField x 0 = x.setWidth 32 := BitVec.shiftLeft_zero _

/-- A flag shows as its one bit. -/
theorem placeField_ofBool (b : Bool) (lo : Nat) :
    placeField (BitVec.ofBool b) lo = if b then 1#32 <<< lo else 0#32 := by
  cases b with
  | false => exact BitVec.zero_shiftLeft lo
  | true => rfl

/-- The word of format D, its operands written out. -/
theorem formatD_eq (opc sym : Byte) (v : Bool) (len : Byte) :
    formatD opc sym v len =
      .command (placeField opc 24 ||| sym.setWidth 32 <<< 16 ||| (if v then 0x8000 else 0) ||| len.setWidth 32) := by
  rw [formatD, placeField_at_zero, placeField_ofBool]
  rfl

/-- The word of format K, its operands written out. -/
theorem formatK_eq (opc sym : Byte) (idx : BitVec 5) (data : Byte) :
    formatK opc sym idx data =
      .command (placeField opc 24 ||| sym.setWidth 32 <<< 16 ||| idx.setWidth 32 <<< 11 ||| data.setWidth 32) := by
  rw [formatK, placeField_at_zero]
  rfl

/-- The word of format T, its operands written out. -/
theorem formatT_eq (opc node : Byte) (leaf : Bool) (ref : Byte) :
    formatT opc node leaf ref =
      .command (placeField opc 24 ||| node.setWidth 32 <<< 16 ||| (if leaf then 0x100 else 0) ||| ref.setWidth 32) := by
  rw [formatT, placeField_at_zero, placeField_ofBool]
  rfl

/-- The word of formats R and B, its operands written out. -/
theorem formatRB_eq (opc : Byte) (flag : Bool) (low : Byte) :
    formatRB opc flag low = .command (placeField opc 24 ||| (if flag then 0x100 else 0) ||| low.setWidth 32) := by
  rw [formatRB, placeField_at_zero, placeField_ofBool]
  rfl

/-! ## Codeword entries (R141, R142) -/

/-- A write of one codeword entry keeps the other ones. -/
theorem cwEntry_setCwEntry_of_ne (h : TablesInv s) {x y : Byte} (hy : y ≠ x) (e : CodewordEntry) :
    cwEntry (setCwEntry s x e) y = cwEntry s y := by
  rw [cwEntry_setCwEntry h.1, if_neg hy]

/-- CW_BITS while unlocked. -/
theorem exec_cwBits (hl : s.locked = false) (x : Byte) (idx : BitVec 5) (data : Byte) :
    exec (.cwBits x idx data) s =
      .next (setCwEntry s x { cwEntry s x with bits := putChunk (cwEntry s x).bits idx data }) :=
  congrArg _ (guardUnlocked_unlocked hl)

/-- Inside the chunk written, bit `j` is DATA's bit `7 - j`. -/
theorem putChunk_getLsbD_inside (bits : BitVec 256) (idx : BitVec 5) (data : Byte) {j : Nat} (hj : j < 8) :
    (putChunk bits idx data).getLsbD (8 * idx.toNat + j) = data.getLsbD (7 - j) := by
  have hidx : idx.toNat < 32 := idx.isLt
  have hchunk : (8 * idx.toNat + j) / 8 = idx.toNat := by omega
  have hplace : (8 * idx.toNat + j) % 8 = j := by omega
  rw [putChunk_getLsbD _ _ _ _ (by omega), if_pos hchunk, hplace]

/-- Settles O6: the write of one entry, whose bits start at 0. -/
theorem cwDefResult : Obligations.CwDefResult := by
  refine fun s sym v len => ⟨fun h hl => ?write, (tableLoadCommand_cwDef sym v len).exec_locked, formatD_eq _ _ _ _⟩
  case write =>
    exact ⟨_, exec_cwDef hl sym v len, cwEntry_setCwEntry_same h _ _, fun _ hy => cwEntry_setCwEntry_of_ne h hy _, rfl⟩

/-- Settles O7: the write of one chunk, which shows at its own eight bits only. -/
theorem cwBitsResult : Obligations.CwBitsResult := by
  refine fun s sym idx data =>
    ⟨fun h hl => ?write, (tableLoadCommand_cwBits sym idx data).exec_locked, formatK_eq _ _ _ _⟩
  case write =>
    refine ⟨_, exec_cwBits hl sym idx data, ?_⟩
    rw [cwEntry_setCwEntry_same h]
    exact ⟨rfl, rfl, fun _ hj => putChunk_getLsbD_inside _ idx data hj,
      fun n hn hc => (putChunk_getLsbD _ idx data n hn).trans (if_neg hc),
      fun _ hy => cwEntry_setCwEntry_of_ne h hy _, rfl⟩

/-! ## Node entries and the root register (R143 to R145) -/

/-- A write of one node entry keeps the other ones. -/
theorem ntEntry_setNtEntry_of_ne (h : TablesInv s) {n y : Byte} (hy : y ≠ n) (e : NodeEntry) :
    ntEntry (setNtEntry s n e) y = ntEntry s y := by
  rw [ntEntry_setNtEntry h.2, if_neg hy]

/-- A child reference as a number (`10_state.md` R41). -/
theorem toNat_refOf (leaf : Bool) (ref : Byte) : (refOf leaf ref).toNat = leaf.toNat * 256 + ref.toNat := by
  rw [refOf, BitVec.toNat_append, BitVec.toNat_ofBool, ← Nat.shiftLeft_add_eq_or_of_lt ref.isLt, Nat.shiftLeft_eq]

/-- Settles O8: the write of one entry with one child changed. -/
theorem nodeCommandResults : Obligations.NodeCommandResults := by
  refine fun s node leaf ref => ⟨fun h hl => ⟨?left, ?right⟩, fun hl =>
    ⟨(tableLoadCommand_nodeL node leaf ref).exec_locked hl, (tableLoadCommand_nodeR node leaf ref).exec_locked hl⟩,
    formatT_eq _ _ _ _, formatT_eq _ _ _ _⟩
  case left =>
    refine ⟨_, exec_nodeL hl node leaf ref, ?_⟩
    rw [ntEntry_setNtEntry_same h]
    exact ⟨rfl, toNat_refOf leaf ref, rfl, rfl, fun _ hy => ntEntry_setNtEntry_of_ne h hy _, rfl⟩
  case right =>
    refine ⟨_, exec_nodeR hl node leaf ref, ?_⟩
    rw [ntEntry_setNtEntry_same h]
    exact ⟨rfl, toNat_refOf leaf ref, rfl, rfl, fun _ hy => ntEntry_setNtEntry_of_ne h hy _, rfl⟩

/-- Settles O9: the two flags are fields of STATUS. -/
theorem treeRootResult : Obligations.TreeRootResult := by
  refine fun s leaf ref =>
    ⟨fun hl => ?write, (tableLoadCommand_treeRoot leaf ref).exec_locked, formatRB_eq _ _ _⟩
  case write =>
    obtain ⟨-, -, -, -, -, -, -, hrootV, hrootLeaf, -⟩ :=
      statusWord_fields { s with root := { v := true, leaf := leaf, val := ref } }
    exact ⟨_, exec_treeRoot hl leaf ref, rfl, hrootV, hrootLeaf⟩

end Sys2Proof.Machine
end

section
/-! SUPPORT. The encoder commands (`43_encoder.md`): their results in every state of the unit, the bytes they push, and
the bytes of a committed message; with them the aborts and the ERROR state of both units. -/

namespace Sys2Proof.Machine

variable {s t : State} {c : Instr}

/-! ## A unit in ERROR (R150, R170) -/

/-- The encoder in ERROR ignores each of its commands that checks the unit's state. -/
theorem EncoderCommand.exec_error (hc : EncoderCommand c) (he : s.encSt = .error) (hne : c ≠ .encAbort) :
    exec c s = .next s := by
  rcases hc with rfl | ⟨_, rfl⟩ | rfl | rfl
  · exact if_pos he
  · exact if_pos he
  · exact if_pos he
  · exact absurd rfl hne

/-- The decoder in ERROR ignores each of its commands that checks the unit's state. -/
theorem DecoderCommand.exec_error (hd : DecoderCommand c) (he : s.decSt = .error) (hne : c ≠ .decAbort) :
    exec c s = .next s := by
  rcases hd with rfl | ⟨_, _, rfl⟩ | rfl
  · exact if_pos he
  · exact if_pos he
  · exact absurd rfl hne

/-- Settles O16: each unit's commands but the abort check for ERROR first. -/
theorem unitsInErrorIgnoreTheirCommands : Obligations.UnitsInErrorIgnoreTheirCommands := fun _ =>
  ⟨fun he _ hc => hc.exec_error he, fun he _ hd => hd.exec_error he⟩

/-- Settles O15: an abort is the recovery of its unit, whatever the state. -/
theorem abortResults : Obligations.AbortResults := ⟨fun _ => ⟨rfl, rfl⟩, rfl, rfl⟩

/-! ## Packing (R152) -/

/-- The bits of a byte, by their place in the stream (`20_memory.md` R64). -/
theorem byteBits_getElem? (b : Byte) {j : Nat} (hj : j < 8) : (byteBits b)[j]? = some (b.getLsbD (7 - j)) := by
  have hbits : byteBits b = (List.range 8).map fun j => b.getLsbD (7 - j) := rfl
  rw [hbits, List.getElem?_map, List.getElem?_range hj, Option.map_some]

/-- The bits of a packed byte are the sequence it packs. -/
theorem packByte_getLsbD {b : Bits} (hb : b.length = 8) {j : Nat} (hj : j < 8) :
    (packByte b).getLsbD (7 - j) = b[j] := by
  apply Option.some.inj
  rw [← byteBits_getElem? _ hj, byteBits_packByte hb, List.getElem?_eq_getElem]

/-- Settles O10: packing and taking apart are inverse, so one order of the bits serves both. -/
theorem bytePackingIsMostSignificantBitFirst : Obligations.BytePackingIsMostSignificantBitFirst :=
  ⟨fun _ ht _ hj => packByte_getLsbD ht hj, fun b _ hj => byteBits_getElem? b hj, byteBits_length⟩

/-! ## ENC_START (R151) -/

/-- ENC_START while unlocked. -/
theorem exec_encStart_unlocked (he : s.encSt ≠ .error) (hl : s.locked = false) :
    exec .encStart s = .next (encFail .notLocked s) := by
  simp [exec, execEncStart, he, hl]

/-- ENC_START during a message. -/
theorem exec_encStart_active (ha : s.encSt = .active) (hl : s.locked = true) :
    exec .encStart s = .next (encFail .sequence s) := by
  simp [exec, execEncStart, ha, hl]

/-- Settles O11: the four cases of the unit and the lock. -/
theorem encStartResult : Obligations.EncStartResult :=
  ⟨fun _ => ⟨fun he => EncoderCommand.exec_error (.inl rfl) he nofun, exec_encStart_unlocked, exec_encStart_active,
    exec_encStart_idle⟩, rfl⟩

/-! ## ENC_SYM (R153) -/

/-- ENC_SYM without a message. -/
theorem exec_encSym_idle (hi : s.encSt = .idle) (x : Byte) :
    exec (.encSym x) s = .next (encFail .sequence s) := by
  simp [exec, execEncSym, hi]

/-- ENC_SYM of a symbol without a codeword. -/
theorem exec_encSym_unknown {x : Byte} (ha : s.encSt = .active) (hv : (cwEntry s x).v = false) :
    exec (.encSym x) s = .next (encFail .unknownSymbol { s with encErrsym := x }) := by
  simp [exec, execEncSym, ha, hv]

/-- ENC_SYM of a symbol whose bytes do not fit. -/
theorem exec_encSym_overflow {x : Byte} (ha : s.encSt = .active) (hv : (cwEntry s x).v = true)
    (hfull : s.encQ.length + s.encPend.length + completedBytes s (cwEntry s x) > s.cfg.encDepth) :
    exec (.encSym x) s = .next (encFail .overflow s) := by
  have hfull : encFull s (completedBytes s (cwEntry s x)) = true := by simpa [encFull] using hfull
  simp [exec, execEncSym, ha, hv, hfull]

/-- The completed bytes take no more bits than there are. -/
theorem completedBytes_le (s : State) (e : CodewordEntry) :
    8 * completedBytes s e ≤ (s.encAcc ++ codeword e).length := by
  rw [List.length_append, codeword_length]
  exact Nat.mul_div_le _ 8

/-- The word of format Y, its operand written out. -/
theorem formatY_eq (opc sym : Byte) : formatY opc sym = .command (placeField opc 24 ||| sym.setWidth 32) := by
  rw [formatY, placeField_at_zero]

/-- Settles O12: an accepted symbol packs whole bytes off the held bits and its codeword, and holds the rest. -/
theorem encSymResult : Obligations.EncSymResult := by
  refine fun s sym => ⟨fun he => EncoderCommand.exec_error (.inr (.inl ⟨sym, rfl⟩)) he nofun,
    fun hi => exec_encSym_idle hi sym, exec_encSym_unknown, exec_encSym_overflow, fun ha hv hroom => ?accepted,
    formatY_eq _ _⟩
  case accepted =>
    have hheld : (appendCodeword (cwEntry s sym) s).encAcc.length < 8 := by
      rw [appendCodeword_encAcc_length]
      exact Nat.mod_lt _ (by decide)
    exact ⟨packBytes (completedBytes s (cwEntry s sym)) (s.encAcc ++ codeword (cwEntry s sym)),
      (appendCodeword (cwEntry s sym) s).encAcc, packBytes_length _ _, hheld,
      packBytes_append_drop (completedBytes_le s _), exec_encSym_room ha hv hroom⟩

/-! ## ENC_END (R156) -/

/-- ENC_END without a message. -/
theorem exec_encEnd_idle (hi : s.encSt = .idle) : exec .encEnd s = .next (encFail .sequence s) := by
  simp [exec, execEncEnd, hi]

/-- ENC_END without room for the final byte. -/
theorem exec_encEnd_overflow (ha : s.encSt = .active)
    (hfull : s.encQ.length + s.encPend.length + 1 > s.cfg.encDepth) :
    exec .encEnd s = .next (encFail .overflow s) := by
  have hfull : encFull s 1 = true := by simpa [encFull] using hfull
  simp [exec, execEncEnd, ha, hfull]

/-- The final byte of a message: its held bits and the padding. -/
def finalByte (held : Bits) : Byte := packByte (held ++ paddingFor held.length)

/-- The bits of the final byte. -/
theorem byteBits_finalByte {held : Bits} (h : held.length < 8) :
    byteBits (finalByte held) = held ++ paddingFor held.length := by
  apply byteBits_packByte
  rw [List.length_append, paddingFor_length h]
  omega

/-- A commit, the tags of its bytes written out. -/
theorem commitEncoder_eq (s : State) : commitEncoder s =
    { s with
      encQ := s.encQ ++ (s.encPend.map (fun b => (b, false)) ++ [(finalByte s.encAcc, true)])
      encPend := []
      encAcc := []
      encSt := .idle } := by
  rw [commitEncoder, tagLast_append_singleton]
  rfl

/-- Settles O14: a commit's final byte is the held bits and their padding. -/
theorem encEndResult : Obligations.EncEndResult := by
  refine ⟨fun s => ⟨fun he => EncoderCommand.exec_error (.inr (.inr (.inl rfl))) he nofun, exec_encEnd_idle,
    exec_encEnd_overflow, fun ha hroom hheld => ⟨finalByte s.encAcc, ?padding, ?commit⟩⟩, rfl⟩
  case padding =>
    rw [byteBits_finalByte hheld, Nat.sub_right_comm, List.append_assoc]
    rfl
  case commit => rw [exec_encEnd_room ha hroom, commitEncoder_eq]

/-! ## How many bytes a command pushes (R155) -/

/-- An accepted symbol completes at most 32 bytes. -/
theorem completedBytes_le_32 (hacc : s.encAcc.length < 8) (e : CodewordEntry) : completedBytes s e ≤ 32 := by
  have hlen := e.len.isLt
  unfold completedBytes
  omega

/-- An ENC_SYM that leaves the message going appended its codeword. -/
theorem eq_appendCodeword_of_active {x : Byte} (ha : s.encSt = .active) (h : exec (.encSym x) s = .next t)
    (hta : t.encSt = .active) : t = appendCodeword (cwEntry s x) s := by
  rcases execEncSym_next h with ⟨hs, -⟩ | ⟨hs, -⟩ | ⟨-, -, rfl⟩ | ⟨-, -, -, rfl⟩ | ⟨-, -, -, ht⟩
  · exact nomatch ha.symm.trans hs
  · exact nomatch ha.symm.trans hs
  · exact nomatch hta
  · exact nomatch hta
  · exact ht

/-- An ENC_END that ends the message without an error committed it. -/
theorem eq_commitEncoder_of_idle (ha : s.encSt = .active) (h : exec .encEnd s = .next t) (hti : t.encSt = .idle) :
    t = commitEncoder s := by
  rcases execEncEnd_next h with ⟨hs, -⟩ | ⟨hs, -⟩ | ⟨-, -, rfl⟩ | ⟨-, -, ht⟩
  · exact nomatch ha.symm.trans hs
  · exact nomatch ha.symm.trans hs
  · exact nomatch hti
  · exact ht

/-- During a message the held bits are what ENC_NBITS leaves over whole bytes (R156). -/
theorem MachineInv.encAcc_length (hs : MachineInv s) (ha : s.encSt = .active) :
    s.encAcc.length = s.encNbits.toNat % 8 := by
  obtain ⟨-, -, ⟨hacc, -⟩, -, -, -, hbits, -⟩ := hs
  rw [hbits ha]
  omega

/-- Settles O13: an accepted symbol pushes the bytes it completes, a commit one more than is pending. -/
theorem bytesPushedPerCommand : Obligations.BytesPushedPerCommand := by
  refine ⟨fun s t sym ⟨hacc, _⟩ ha h hta => ⟨?pushed, completedBytes_le_32 hacc _⟩, fun s t ha h hti => ?committed,
    fun s hs ha => hs.encAcc_length ha⟩
  case pushed =>
    rw [eq_appendCodeword_of_active ha h hta]
    exact appendCodeword_encPend_length _ s
  case committed =>
    rw [eq_commitEncoder_of_idle ha h hti, commitEncoder_eq]
    simp

/-! ## The bytes of a message (R157) -/

/-- The bits of a message's bytes are its bits and the padding of the last of them. -/
theorem flatMap_byteBits_finalByte {bytes : List Byte} {held : Bits} (hheld : held.length < 8) :
    (bytes ++ [finalByte held]).flatMap byteBits =
      bytes.flatMap byteBits ++ held ++ paddingFor ((bytes.flatMap byteBits ++ held).length % 8) := by
  have hrest : (bytes.flatMap byteBits ++ held).length % 8 = held.length := by
    rw [List.length_append, flatMap_byteBits_length]
    omega
  rw [hrest, List.flatMap_append, List.flatMap_singleton, byteBits_finalByte hheld, List.append_assoc]

/-- Settles O17: the held bits that ENC_END pads are what the message's bits leave over whole bytes. -/
theorem committedMessageBytes : Obligations.CommittedMessageBytes := by
  intro s syms hi hl hv hroom
  obtain ⟨bytes, held, hrun, hheld, hbits⟩ := runInstrs_encMsg hi hl hv hroom
  refine ⟨_, bytes, finalByte held, hrun, ?queue, ?bits, (finalPayload_packByte hheld).1, ?frame⟩
  case queue => exact congrArg (s.encQ ++ ·) (tagLast_append_singleton _ _)
  case bits =>
    rw [flatMap_byteBits_finalByte hheld, hbits]
    rfl
  case frame =>
    rw [encCommitted, ← hi]

end Sys2Proof.Machine
end

section
/-! SUPPORT. The decoder commands (`44_decoder.md`): DEC_START, FEED and DEC_BYTE in every case, the end of a message,
and what the block strips from a message's final byte. -/

namespace Sys2Proof.Machine

variable {s t : State}

/-! ## DEC_START (R171) -/

/-- DEC_START while unlocked. -/
theorem exec_decStart_unlocked (he : s.decSt ≠ .error) (hl : s.locked = false) :
    exec .decStart s = .next (decFail .notLocked s) := by
  simp [exec, execDecStart, he, hl]

/-- DEC_START during a message. -/
theorem exec_decStart_active (ha : s.decSt = .active) (hl : s.locked = true) :
    exec .decStart s = .next (decFail .sequence s) := by
  simp [exec, execDecStart, ha, hl]

/-- DEC_START without a root. -/
theorem exec_decStart_rootless (hi : s.decSt = .idle) (hl : s.locked = true) (hr : s.root.v = false) :
    exec .decStart s = .next (decFail .tableError s) := by
  simp [exec, execDecStart, hi, hl, hr]

/-- Settles O18: the five cases of the unit, the lock and the root. -/
theorem decStartResult : Obligations.DecStartResult :=
  ⟨fun _ => ⟨fun he => DecoderCommand.exec_error (.inl rfl) he nofun, exec_decStart_unlocked, exec_decStart_active,
    exec_decStart_rootless, exec_decStart_idle⟩, rfl⟩

/-! ## FEED (R173) -/

/-- FEED under a degenerate root. -/
theorem feed_degenerate (hroot : s.root.leaf = true) (b : Bool) : feed b s = .error (decFail .excessBits s) := by
  simp [feed, hroot]

/-- FEED of a bit whose child is undefined. -/
theorem feed_undefined {b : Bool} (hroot : s.root.leaf = false) (hc : childOf (ntEntry s s.decPos) b = none) :
    feed b s = .error (decFail .tableError s) := by
  simp [feed, hroot, hc]

/-- FEED of a bit that reaches a Leaf, without room for its symbol. -/
theorem feed_leaf_full {b : Bool} {ref : Ref} (hroot : s.root.leaf = false)
    (hc : childOf (ntEntry s s.decPos) b = some ref) (hr : refIsLeaf ref = true)
    (hfull : s.decQ.length + s.decPend.length + 1 > s.cfg.decDepth) : feed b s = .error (decFail .overflow s) := by
  have hfull : decFull s = true := by simpa [decFull] using hfull
  simp [feed, hroot, hc, hr, hfull]

/-- The child that a bit selects, from its valid bit and its reference. -/
theorem childOf_eq_ite {e : NodeEntry} {b ok : Bool} {ref : Ref} (h0 : b = false → ok = e.lv ∧ ref = e.l)
    (h1 : b = true → ok = e.rv ∧ ref = e.r) : childOf e b = if ok then some ref else none := by
  cases b with
  | false => obtain ⟨rfl, rfl⟩ := h0 rfl; rfl
  | true => obtain ⟨rfl, rfl⟩ := h1 rfl; rfl

/-- Settles O19: FEED by the child that the bit selects, and the equations of a run of FEEDs. -/
theorem feedResult : Obligations.FeedResult := by
  refine ⟨fun _ => rfl, fun b bs s t h => ?succeeds, fun b bs s t h => ?fails, fun s b =>
    ⟨fun hroot => feed_degenerate hroot b, fun ok ref h0 h1 hroot => ?child⟩⟩
  case succeeds => rw [feedBits, h]
  case fails => rw [feedBits, h]
  case child =>
    have hc := childOf_eq_ite h0 h1
    refine ⟨?_, ?_, ?_, ?_⟩ <;> rintro rfl
    · exact feed_undefined hroot hc
    · exact feed_leaf_full hroot hc
    · exact feed_leaf hroot hc
    · exact feed_internal hroot hc

/-! ## DEC_BYTE during a message (R174) -/

/-- DEC_BYTE of a byte that is not final and whose bits are fed without failure. -/
theorem exec_decByte_fed {byte : Byte} (ha : s.decSt = .active) (h : feedBits (byteBits byte) s = .ok t) :
    exec (.decByte false byte) s = .next t := by
  rw [exec_decByte_active ha, if_neg Bool.false_ne_true, feedWholeByte, h]

/-- DEC_BYTE of a byte with a payload bit that fails. -/
theorem exec_decByte_feedFailed {last : Bool} {byte : Byte} (ha : s.decSt = .active) (hz : last = true → byte ≠ 0)
    (h : feedBits (bytePayload last byte) s = .error t) : exec (.decByte last byte) s = .next t := by
  rw [exec_decByte_active ha]
  cases last with
  | false =>
    have h : feedBits (byteBits byte) s = .error t := h
    rw [if_neg Bool.false_ne_true, feedWholeByte, h]
  | true =>
    have h : feedBits (finalPayload byte) s = .error t := h
    rw [if_pos rfl, feedFinalByte, if_neg (hz rfl), h]

/-- DEC_BYTE of a final byte without a padding. -/
theorem exec_decByte_zero (ha : s.decSt = .active) :
    exec (.decByte true 0) s = .next (decFail .malformedPadding s) := exec_decByte_active ha true 0

/-- DEC_BYTE of a final byte whose payload is fed without failure ends the message. -/
theorem exec_decByte_final {byte : Byte} (ha : s.decSt = .active) (hz : byte ≠ 0)
    (h : feedBits (finalPayload byte) s = .ok t) : exec (.decByte true byte) s = .next (finishMessage t) := by
  rw [exec_decByte_active ha, if_pos rfl, feedFinalByte, if_neg hz, h]

/-- The end of a message under a degenerate tree without room for its copies. -/
theorem finishMessage_overflow (hroot : s.root.leaf = true)
    (hfull : s.decQ.length + s.degCount.toNat > s.cfg.decDepth) : finishMessage s = decFail .overflow s := by
  rw [finishMessage, if_pos hroot, if_pos hfull]

/-- The end of a message inside a codeword. -/
theorem finishMessage_truncated (hroot : s.root.leaf = false) (hpos : s.decPos ≠ s.root.val) :
    finishMessage s = decFail .truncatedCode s := by
  simp [finishMessage, hroot, hpos]

/-- The lowest set bit of a byte, from what makes it so. -/
theorem ctz8_eq {byte : Byte} {k : Nat} (hk : byte.getLsbD k = true) (hlow : ∀ j, j < k → byte.getLsbD j = false) :
    byte ≠ 0 ∧ ctz8 byte = k := by
  have hz : byte ≠ 0 := by rintro rfl; simp at hk
  obtain ⟨-, hset, hclear⟩ := ctz8_spec hz
  refine ⟨hz, ?_⟩
  rcases Nat.lt_trichotomy (ctz8 byte) k with hlt | heq | hgt
  · exact absurd (hlow _ hlt) (by simp [hset])
  · exact heq
  · exact absurd (hclear _ hgt) (by simp [hk])

/-- The payload of a final byte, bit by bit, with `k` its lowest set bit. -/
theorem finalPayload_eq_map {byte : Byte} {k : Nat} (hk : ctz8 byte = k) :
    finalPayload byte = (List.range (7 - k)).map fun j => byte.getLsbD (7 - j) := by
  have hbits : byteBits byte = (List.range 8).map fun j => byte.getLsbD (7 - j) := rfl
  rw [finalPayload, hbits, hk, ← List.map_take, List.take_range, Nat.min_eq_left (by omega)]

/-- A final byte whose payload is fed: the four ends of the message, by the root, the room and the position. -/
theorem exec_decByte_ends {byte : Byte} (ha : s.decSt = .active) (hz : byte ≠ 0)
    (h : feedBits (finalPayload byte) s = .ok t) :
    (s.root.leaf = true → s.decQ.length + s.degCount.toNat > s.cfg.decDepth →
      exec (.decByte true byte) s = .next (decFail .overflow t)) ∧
    (s.root.leaf = true → s.decQ.length + s.degCount.toNat ≤ s.cfg.decDepth →
      exec (.decByte true byte) s =
        .next (commitDecoder (List.replicate s.degCount.toNat s.root.val) { t with decNsym := s.degCount })) ∧
    (s.root.leaf = false → t.decPos ≠ s.root.val → exec (.decByte true byte) s = .next (decFail .truncatedCode t)) ∧
    (s.root.leaf = false → t.decPos = s.root.val →
      exec (.decByte true byte) s = .next (commitDecoder t.decPend t)) := by
  rw [exec_decByte_final ha hz h]
  obtain ⟨_, _, _, _, rfl⟩ := feedBits_update h
  exact ⟨fun hl hr => congrArg _ (finishMessage_overflow hl hr),
    fun hl hr => congrArg _ (finishMessage_degenerate hl hr),
    fun hl hp => congrArg _ (finishMessage_truncated hl hp), fun hl hp => congrArg _ (finishMessage_at_root hl hp)⟩

/-- Settles O20: the bits written out are those that `bytePayload` gives, and the message has one of four ends. -/
theorem decByteResult : Obligations.DecByteResult := by
  refine ⟨fun s last byte => ⟨fun he => DecoderCommand.exec_error (.inr (.inl ⟨last, byte, rfl⟩)) he nofun,
    fun hi => ?idle⟩, fun s byte ha => ⟨fun t => exec_decByte_fed ha,
      fun t => exec_decByte_feedFailed (last := false) ha nofun, ?zero, fun k _ hk hlow => ?final⟩,
    fun last byte => formatRB_eq _ _ _⟩
  case idle => simp [exec, execDecByte, hi, decFail]
  case zero =>
    rintro rfl
    exact exec_decByte_zero ha
  case final =>
    obtain ⟨hz, hctz⟩ := ctz8_eq hk hlow
    rw [← finalPayload_eq_map hctz]
    refine ⟨fun t => exec_decByte_feedFailed (last := true) ha fun _ => hz, fun t h => ?_⟩
    have hends := exec_decByte_ends ha hz h
    obtain ⟨_, _, _, _, rfl⟩ := feedBits_update h
    exact hends

/-! ## A message under a degenerate tree (R178) -/

/-- Under a degenerate root the first bit of a payload fails. -/
theorem feedBits_degenerate {bs : Bits} (hroot : s.root.leaf = true) (hne : bs ≠ []) :
    feedBits bs s = .error (decFail .excessBits s) := by
  cases bs with
  | nil => exact absurd rfl hne
  | cons b bs => rw [feedBits, feed_degenerate hroot]

/-- `0x80` is the one nonzero final byte without payload bits (R174). -/
theorem eq_0x80_of_finalPayload_nil {byte : Byte} (hz : byte ≠ 0) (h : finalPayload byte = []) : byte = 0x80 := by
  have hbits := byteBits_eq_finalPayload hz
  rw [h] at hbits
  have hlen := congrArg List.length hbits
  have hctz : ctz8 byte = 7 := by simpa using hlen.symm
  rw [hctz] at hbits
  exact byteBits_injective hbits

/-- A committed entry has LAST exactly at the end. -/
theorem tagLast_getElem_snd (l : List Byte) (j : Nat) (h : j < (tagLast l).length) :
    (tagLast l)[j].2 = decide (j + 1 = (tagLast l).length) := by
  rcases l.eq_nil_or_concat' with rfl | ⟨l, x, rfl⟩
  · exact absurd h (Nat.not_lt_zero j)
  · simp only [tagLast_append_singleton, List.length_append, List.length_map, List.length_singleton] at h ⊢
    by_cases hj : j < l.length
    · rw [List.getElem_append_left (by simpa using hj)]
      simp
      omega
    · simp [show j = l.length by omega]

/-- Settles O21: any payload bit fails, and the empty payload commits the tagged copies. -/
theorem degenerateMessageResult : Obligations.DegenerateMessageResult := by
  intro s ha hroot
  have hempty : feedBits (finalPayload 0x80) s = .ok s := rfl
  obtain ⟨hoverflow, hcommit, -⟩ := exec_decByte_ends ha (by decide) hempty
  refine ⟨fun byte => ?whole, fun byte hz hne => ?final, hoverflow hroot, fun hroom =>
    ⟨tagLast (List.replicate s.degCount.toNat s.root.val), hcommit hroot hroom, tagLast_map_fst _,
      tagLast_getElem_snd _⟩⟩
  case whole =>
    exact exec_decByte_feedFailed ha nofun (feedBits_degenerate hroot (List.cons_ne_nil _ _))
  case final =>
    exact exec_decByte_feedFailed ha (fun _ => hz)
      (feedBits_degenerate hroot fun h => hne (eq_0x80_of_finalPayload_nil hz h))

/-! ## The padding (R175, R182) -/

/-- The source's Step 1 looks past trailing zeros. -/
theorem stripPadding_append_zeros (t : Bits) (k : Nat) :
    stripPadding (t ++ List.replicate k false) = stripPadding t := by
  have hstrip (u : Bits) : stripFromEnd (List.replicate k false ++ u) = stripFromEnd u := by
    induction k with
    | zero => rfl
    | succ k ih => exact ih
  rw [stripPadding, List.reverse_append, List.reverse_replicate, hstrip, stripPadding]

/-- The source's Step 1 takes a padding off, whatever its length. -/
theorem stripPadding_append_padding (t : Bits) (k : Nat) :
    stripPadding (t ++ true :: List.replicate k false) = some t := by
  rw [List.append_cons, stripPadding_append_zeros, stripPadding, List.reverse_append]
  simp [stripFromEnd]

/-- What the source's Step 1 leaves is shorter. -/
theorem length_lt_of_stripFromEnd {t p : Bits} (h : stripFromEnd t = some p) : p.length < t.length := by
  induction t with
  | nil => cases h
  | cons b t ih =>
    cases b with
    | true => cases h; exact Nat.lt_succ_self _
    | false => exact Nat.lt_succ_of_lt (ih h)

/-- What the source's Step 1 leaves, in stream order, is shorter. -/
theorem length_lt_of_stripPadding {t p : Bits} (h : stripPadding t = some p) : p.length < t.length := by
  obtain ⟨q, hq, rfl⟩ := Option.map_eq_some_iff.mp h
  simpa using length_lt_of_stripFromEnd hq

/-- Settles O22: a nonzero final byte ends in its padding; a zero one adds eight zeros after the padding before it. -/
theorem paddingRemovalIsTheSourcesStep1 : Obligations.PaddingRemovalIsTheSourcesStep1 := by
  intro init final
  rw [List.flatMap_append, List.flatMap_singleton]
  refine ⟨fun hz => ⟨?stripped, ctz8 final + 1, Nat.le_add_left 1 _, (ctz8_spec hz).1, ?length⟩, ?zero⟩
  case stripped => rw [byteBits_eq_finalPayload hz, ← List.append_assoc, stripPadding_append_padding]
  case length => simpa using (congrArg List.length (byteBits_eq_finalPayload hz)).symm
  case zero =>
    rintro rfl p h
    have hzeros : byteBits 0 = List.replicate 8 false := rfl
    rw [hzeros, stripPadding_append_zeros] at h
    rw [List.length_append, byteBits_length]
    exact Nat.add_lt_add_right (length_lt_of_stripPadding h) 8

end Sys2Proof.Machine
end

section
/-! SUPPORT. A message as one run of FEEDs, and a consistent load in the decoder (`44_decoder.md` R182): what one FEED,
one command, one instruction and a whole message keep. -/

namespace Sys2Proof.Machine

variable {s t : State} {c : Instr}

/-! ## The instructions of a message -/

/-- The bytes of a message are DEC_BYTE commands. -/
theorem mem_decBytes {bytes : List Byte} (h : c ∈ decBytes bytes) : ∃ last byte, c = .decByte last byte := by
  induction bytes using decBytes.induct with
  | case1 => cases h
  | case2 b => exact ⟨true, b, List.mem_singleton.mp h⟩
  | case3 b b' rest ih =>
    rcases List.mem_cons.mp h with rfl | h
    · exact ⟨false, b, rfl⟩
    · exact ih h

/-- The instructions of a message are commands of the decoder. -/
theorem decoderCommand_of_mem_decMsg {bytes : List Byte} (h : c ∈ decMsg bytes) : DecoderCommand c := by
  rcases List.mem_cons.mp h with rfl | h
  · exact .inl rfl
  · exact .inr (.inl (mem_decBytes h))

/-- Instructions that each keep a property keep it together. -/
theorem runInstrs_invariant {P : State → Prop} {is : List Instr}
    (hstep : ∀ i ∈ is, ∀ u v, P u → exec i u = .next v → P v) (hs : P s) (h : runInstrs is s = .next t) : P t := by
  induction is generalizing s with
  | nil => cases h; exact hs
  | cons i is ih =>
    obtain ⟨hi, his⟩ := List.forall_mem_cons.mp hstep
    obtain ⟨u, hu⟩ := exec_completes i s
    exact ih his (hi s u hs hu) ((runInstrs_cons hu is).symm.trans h)

/-! ## A message as one payload -/

/-- The bytes after a failure change nothing (R170). -/
theorem runInstrs_decBytes_of_error (he : s.decSt = .error) (bytes : List Byte) :
    runInstrs (decBytes bytes) s = .next s := by
  have hall : ∀ c ∈ decBytes bytes, exec c s = .next s := fun c hc => by
    obtain ⟨last, byte, rfl⟩ := mem_decBytes hc
    exact DecoderCommand.exec_error (.inr (.inl ⟨last, byte, rfl⟩)) he nofun
  generalize decBytes bytes = is at hall
  induction is with
  | nil => rfl
  | cons i is ih =>
    obtain ⟨hi, his⟩ := List.forall_mem_cons.mp hall
    rw [runInstrs_cons hi, ih his]

/-- A run of FEEDs that fails leaves the decoder in ERROR. -/
theorem decSt_of_feedBits_error {bs : Bits} (h : feedBits bs s = .error t) : t.decSt = .error := by
  obtain ⟨_, _, _, _, _, _, _, _, _, rfl⟩ := feedBits_error h
  rfl

/-- The bytes of a message whose payload fails: the FEEDs up to the failure, and nothing more. -/
theorem runInstrs_decBytes_feedFailed {bytes : List Byte} {final : Byte} (ha : s.decSt = .active) (hz : final ≠ 0)
    (h : feedBits (bytes.flatMap byteBits ++ finalPayload final) s = .error t) :
    runInstrs (decBytes (bytes ++ [final])) s = .next t := by
  induction bytes generalizing s with
  | nil => exact runInstrs_cons (exec_decByte_feedFailed (last := true) ha (fun _ => hz) h) []
  | cons b bytes ih =>
    rw [List.flatMap_cons, List.append_assoc] at h
    rw [List.cons_append, decBytes_cons_append]
    cases hb : feedBits (byteBits b) s with
    | ok u =>
      rw [feedBits_append hb] at h
      rw [runInstrs_cons (exec_decByte_fed ha hb)]
      obtain ⟨_, _, _, _, rfl⟩ := feedBits_update hb
      exact ih ha h
    | error u =>
      rw [feedBits_append_error hb] at h
      obtain rfl := Except.error.inj h
      rw [runInstrs_cons (exec_decByte_feedFailed (last := false) ha nofun hb)]
      exact runInstrs_decBytes_of_error (decSt_of_feedBits_error hb) _

/-- Settles O23: both ends of a run of FEEDs over the payload are ends of the message. -/
theorem messageDecodesAsOnePayload : Obligations.MessageDecodesAsOnePayload := by
  intro s init final hi hl hr hz
  have hstart := exec_decStart_idle hi hl hr
  refine ⟨decStarted s, hstart, fun t h => ?succeeds, fun t h => ?fails⟩ <;> rw [decMsg, runInstrs_cons hstart]
  case succeeds => exact runInstrs_decBytes rfl hz h
  case fails => exact runInstrs_decBytes_feedFailed rfl hz h

/-! ## The decoder's position in the tree (R182) -/

/-- A consistent load has a root. -/
theorem Consistent.root_v (h : Consistent s) : s.root.v = true := by
  obtain ⟨-, hroot, -⟩ := h
  exact hroot

/-- A consistent load is one of the Compiled Code alone. -/
theorem Consistent.congr (h : Consistent s) (hcwt : t.cwt = s.cwt) (hnt : t.nt = s.nt) (hroot : t.root = s.root) :
    Consistent t := (consistent_congr hcwt hnt hroot).mpr h

/-- The position reads the node table and the decoder alone. -/
theorem DecoderInTree.congr (h : DecoderInTree s) (hst : t.decSt = s.decSt) (hpos : t.decPos = s.decPos)
    (hnt : t.nt = s.nt) (hroot : t.root = s.root) : DecoderInTree t := by
  intro ha hleaf
  rw [hst] at ha
  rw [hroot] at hleaf
  obtain ⟨tree, htree⟩ := h ha hleaf
  rw [hpos]
  exact ⟨tree, (refDescribes_congr hnt _ _).mpr htree⟩

/-- A decoder without a message has no position. -/
theorem decoderInTree_of_not_active (h : s.decSt ≠ .active) : DecoderInTree s := fun ha => absurd ha h

/-- A decoder at the root of a consistent load is in its tree. -/
theorem Consistent.decoderInTree_root (h : Consistent s) (hnt : t.nt = s.nt) (hroot : t.root = s.root)
    (hpos : t.decPos = s.root.val) : DecoderInTree t := by
  intro _ hleaf
  obtain ⟨-, -, tree, htree⟩ := h
  rw [hroot] at hleaf
  rw [hleaf] at htree
  rw [hpos]
  exact ⟨tree, (refDescribes_congr hnt _ _).mpr htree⟩

/-- In the tree both children of the position are defined and describe its subtrees. -/
theorem DecoderInTree.child (h : DecoderInTree s) (ha : s.decSt = .active) (hroot : s.root.leaf = false) (b : Bool) :
    ∃ ref tree, childOf (ntEntry s s.decPos) b = some ref ∧ refDescribes s ref tree := by
  obtain ⟨tree, htree⟩ := h ha hroot
  obtain ⟨_, _, _, _, ref, -, hc, hd, -⟩ := walkNodes_describes htree (refIsLeaf_refOf false _) b []
  rw [refVal_refOf] at hc
  exact ⟨ref, _, hc, hd⟩

/-- A message goes on in the tree of a consistent load. -/
structure DecodingInTree (s : State) : Prop where
  consistent : Consistent s
  active : s.decSt = .active
  inTree : DecoderInTree s

/-- A FEED without failure goes on in the tree: at the root after a Leaf, else in a subtree. -/
theorem DecodingInTree.feed_ok {b : Bool} (h : DecodingInTree s) (hf : feed b s = .ok t) : DecodingInTree t := by
  obtain ⟨hcon, ha, hpos⟩ := h
  obtain ⟨hroot, ref, hc, ⟨-, -, rfl⟩ | ⟨hnode, rfl⟩⟩ := Machine.feed_ok hf
  · exact ⟨hcon.congr rfl rfl rfl, ha, hcon.decoderInTree_root rfl rfl rfl⟩
  · refine ⟨hcon.congr rfl rfl rfl, ha, fun _ _ => ?_⟩
    obtain ⟨ref', tree, hc', hd⟩ := hpos.child ha hroot b
    obtain rfl := Option.some.inj (hc.symm.trans hc')
    exact ⟨tree, (refDescribes_congr (s := descend (refVal ref) s) (t := s) rfl _ _).mpr
      (refDescribes_internal hd hnode)⟩

/-- In the tree a FEED that fails does so under a degenerate root or for want of room. -/
theorem DecodingInTree.feed_error {b : Bool} (h : DecodingInTree s) (hf : feed b s = .error t) :
    t.decErr ≠ .tableError := by
  obtain ⟨-, ha, hpos⟩ := h
  cases hroot : s.root.leaf with
  | true =>
    rw [feed_degenerate hroot] at hf
    cases hf
    nofun
  | false =>
    obtain ⟨ref, _, hc, -⟩ := hpos.child ha hroot b
    cases hleaf : refIsLeaf ref with
    | false =>
      rw [feed_internal hroot hc hleaf] at hf
      cases hf
    | true =>
      by_cases hroom : s.decQ.length + s.decPend.length + 1 ≤ s.cfg.decDepth
      · rw [feed_leaf hroot hc hleaf hroom] at hf
        cases hf
      · rw [feed_leaf_full hroot hc hleaf (Nat.lt_of_not_le hroom)] at hf
        cases hf
        nofun

/-- A run of FEEDs from a position in the tree ends there, or fails without TABLE_ERROR. -/
theorem DecodingInTree.feedBits (h : DecodingInTree s) (bs : Bits) :
    (∀ t, feedBits bs s = .ok t → DecodingInTree t) ∧ (∀ t, feedBits bs s = .error t → t.decErr ≠ .tableError) :=
  feedBits_induct bs s h (fun _ _ _ hu hf => hu.feed_ok hf) fun _ _ _ hu hf => hu.feed_error hf

/-! ## Commands under a consistent load -/

/-- Under a consistent load every command keeps the decoder's position in the tree: an ACTIVE decoder holds the tables
locked (`20_memory.md` R75). -/
theorem DecoderInTree.command (hpos : DecoderInTree s) (hlock : LockInv s) (hcon : Consistent s)
    (h : CommandEffect s c t) : DecoderInTree t := by
  have hidle (hl : s.locked = false) : s.decSt ≠ .active := fun ha => by simpa [hl] using (hlock.2 ha).1
  cases h with
  | tableLocked | busy => rw [cmdError_eq]; exact hpos.congr rfl rfl rfl rfl
  | node _ _ hl | root hl => exact decoderInTree_of_not_active (hidle hl)
  | decStart => exact hcon.decoderInTree_root rfl rfl rfl
  | fed _ ha _ hu => exact ((DecodingInTree.feedBits ⟨hcon, ha, hpos⟩ _).1 _ hu).inTree
  | reset | decStartFailed | byteInIdle | malformedPadding | feedFailed | degenerateOverflow | degenerateCommit
  | truncated | decCommit | decAbort => exact decoderInTree_of_not_active nofun
  | _ => exact hpos.congr rfl rfl rfl rfl

/-- Under a consistent load no command records TABLE_ERROR: DEC_START finds a root, FEED finds every child. -/
theorem CommandEffect.decErr_ne_tableError (h : CommandEffect s c t) (hcon : Consistent s) (hpos : DecoderInTree s)
    (hs : s.decErr ≠ .tableError) : t.decErr ≠ .tableError := by
  cases h with
  | tableLocked | busy => rwa [cmdError_decErr]
  | decStartFailed _ e he =>
    rcases he with rfl | rfl | ⟨-, hr⟩
    · nofun
    · nofun
    · exact absurd (hcon.root_v.symm.trans hr) nofun
  | feedFailed _ _ ha _ _ _ _ _ _ hu _ hf =>
    exact ((DecodingInTree.feedBits ⟨hcon, ha, hpos⟩ _).1 _ hu).feed_error hf
  | fed _ _ _ hu | decCommit _ _ _ _ _ hu =>
    obtain ⟨_, _, _, _, rfl⟩ := feedBits_update hu
    exact hs
  | reset | byteInIdle | malformedPadding | degenerateOverflow | truncated | decAbort => nofun
  | _ => exact hs

/-- Only a table-load command and RESET write the Compiled Code. -/
theorem CommandEffect.consistent (h : CommandEffect s c t) (hload : ¬ TableLoadCommand c) (hr : c ≠ .reset)
    (hcon : Consistent s) : Consistent t := by
  have hroot : ∀ leaf ref, c ≠ .treeRoot leaf ref := by
    rintro leaf ref rfl
    exact hload (tableLoadCommand_treeRoot leaf ref)
  refine hcon.congr ?_ ?_ ?_
  · simpa [hload, hr] using h.cwt_cases
  · simpa [hload, hr] using h.nt_cases
  · simpa [hroot, hr] using h.root_cases

/-- What an instruction keeps under a consistent load. -/
theorem exec_keeps_tree {i : Instr} (hlock : LockInv s) (hcon : Consistent s) (hpos : DecoderInTree s)
    (h : exec i s = .next t) :
    (s.decErr ≠ .tableError → t.decErr ≠ .tableError) ∧ DecoderInTree t ∧
      ((∀ c, TableLoadCommand c → ¬ Performs i c) → ¬ Performs i .reset → Consistent t) := by
  rcases (exec_effect h).command_or_frame with ⟨c, hp, hc⟩ | hf
  · exact ⟨hc.decErr_ne_tableError hcon hpos, hpos.command hlock hcon hc, fun hload hr =>
      hc.consistent (fun hl => hload c hl hp) (by rintro rfl; exact hr hp) hcon⟩
  · rw [hf]
    exact ⟨id, hpos.congr rfl rfl rfl rfl, fun _ _ => hcon.congr rfl rfl rfl⟩

/-- A locked, consistent load with a decoder in the tree and without TABLE_ERROR: what a message keeps. -/
structure DecodesWithoutTableError (s : State) : Prop where
  locked : s.locked = true
  consistent : Consistent s
  inTree : DecoderInTree s
  decErr_ne : s.decErr ≠ .tableError

/-- The decoder's commands keep a locked, consistent load and record no TABLE_ERROR. -/
theorem DecodesWithoutTableError.exec (hs : DecodesWithoutTableError s) (hd : DecoderCommand c)
    (h : exec c s = .next t) : DecodesWithoutTableError t := by
  obtain ⟨hl, hcon, hpos, herr⟩ := hs
  obtain ⟨-, hl', hcwt, hnt, hroot, -⟩ := exec_unit_shared_eq (.inr hd) h
  obtain ⟨herr', hpos', -⟩ := exec_keeps_tree ⟨fun _ => hl, fun _ => ⟨hl, hcon.root_v⟩⟩ hcon hpos h
  exact ⟨hl'.trans hl, hcon.congr hcwt hnt hroot, hpos', herr' herr⟩

/-- Settles O60: in a full tree every FEED finds its child, and every instruction keeps the position in the tree. -/
theorem consistentLoadNeverRaisesTableError : Obligations.ConsistentLoadNeverRaisesTableError := by
  refine ⟨fun s bs t hcon ha hpos => (DecodingInTree.feedBits ⟨hcon, ha, hpos⟩ bs).2 t,
    fun s t bytes hcon hl hi herr h => ?message, fun i s t => exec_keeps_tree⟩
  case message =>
    have hs : DecodesWithoutTableError s :=
      ⟨hl, hcon, decoderInTree_of_not_active (by simp [hi]), by simp [herr]⟩
    exact (runInstrs_invariant (fun _ hi _ _ hu hx => hu.exec (decoderCommand_of_mem_decMsg hi) hx) hs h).decErr_ne

end Sys2Proof.Machine
end

section
/-! SUPPORT. The register accesses (`45_register_access.md`): which access decodes to which row, what a read answers,
what a write stores, and what no access and no step touches. -/

namespace Sys2Proof.Machine

variable {s t : State} {c i : Instr}

/-! ## The offsets of the rows (`30_encoding.md` R93) -/

/-- An access whose offset lies in an instruction's row decodes to that instruction. -/
theorem decodeAccess_of_offset {x : Access} {pat mask : Byte} (he : encode i = .access x)
    (hw : i.wellFormed = offsetIn pat mask x.addr) (h : x.addr &&& mask = pat) : decodeAccess x = i := by
  have hdec := decode_encode (hw.trans (beq_iff_eq.mpr h))
  rw [he] at hdec
  exact Except.ok.inj hdec

/-- A read whose offset lies in an instruction's row decodes to that instruction. -/
theorem decodeAccess_read_of_offset {a pat mask : Byte} (he : encode i = .access (.read a))
    (hw : i.wellFormed = offsetIn pat mask a) (h : a &&& mask = pat) : decodeAccess (.read a) = i :=
  decodeAccess_of_offset he hw h

/-- A write whose offset lies in an instruction's row decodes to that instruction. -/
theorem decodeAccess_write_of_offset {a pat mask : Byte} {w : Word} (he : encode i = .access (.write a w))
    (hw : i.wellFormed = offsetIn pat mask a) (h : a &&& mask = pat) : decodeAccess (.write a w) = i :=
  decodeAccess_of_offset he hw h

/-- A write is one of CMD or of DEG_COUNT, at their offsets, or has no effect (R211 to R213). -/
theorem write_cases {a : Byte} {w : Word} (hw : i.wellFormed = true) (he : encode i = .access (.write a w)) :
    (i = .wrCmd a w ∧ a &&& 0xFC = 0x04) ∨ (i = .wrDegCount a w ∧ a &&& 0xFC = 0x28) ∨
      ∀ s, exec i s = .next s := by
  cases i with
  | wrCmd => cases he; exact .inl ⟨rfl, beq_iff_eq.mp hw⟩
  | wrDegCount => cases he; exact .inr (.inl ⟨rfl, beq_iff_eq.mp hw⟩)
  | wrIgnored00 | wrIgnored08 | wrIgnored10 | wrIgnored20 | wrIgnored2C | wrIgnored30 | wrIgnored40 | wrIgnored80 =>
    exact .inr (.inr fun _ => rfl)
  | _ => cases he

/-! ## Constants, STATUS and the capacities (R196 to R198, R209, R210, R214) -/

/-- Settles O24: each offset lies in its row, whose meaning answers that one value. -/
theorem constantStatusAndCapacityReads : Obligations.ConstantStatusAndCapacityReads := fun _ _ =>
  ⟨⟨decodeAccess_read_of_offset rfl rfl, rfl⟩, ⟨decodeAccess_read_of_offset rfl rfl, rfl⟩,
    ⟨decodeAccess_read_of_offset rfl rfl, rfl⟩, ⟨decodeAccess_read_of_offset rfl rfl, rfl⟩,
    ⟨decodeAccess_read_of_offset rfl rfl, rfl⟩, ⟨decodeAccess_read_of_offset rfl rfl, rfl⟩,
    ⟨decodeAccess_read_of_offset rfl rfl, rfl⟩, ⟨decodeAccess_read_of_offset rfl rfl, rfl⟩⟩

/-! ## Counters and levels (R201 to R208) -/

/-- A count within the greatest depth (`00_scope.md` R10, R11) fits a register. -/
theorem countWord_toNat {n : Nat} (h : n ≤ 2 ^ 24) : (countWord n).toNat = n :=
  Nat.mod_eq_of_lt (by omega)

/-- ENC_OLEVEL is exact: the encoder's queue lies within its depth. -/
theorem MachineInv.encQ_level (h : MachineInv s) : (countWord s.encQ.length).toNat = s.encQ.length := by
  obtain ⟨⟨⟨-, hcap⟩, -⟩, -, ⟨-, -, hroom⟩, -⟩ := h
  exact countWord_toNat (by omega)

/-- DEC_OLEVEL is exact: the decoder's queue lies within its depth. -/
theorem MachineInv.decQ_level (h : MachineInv s) : (countWord s.decQ.length).toNat = s.decQ.length := by
  obtain ⟨⟨-, -, hcap⟩, -, -, ⟨-, hroom⟩, -⟩ := h
  exact countWord_toNat (by omega)

/-- Settles O25: each offset lies in its row, and a level does not wrap. -/
theorem counterAndLevelReads : Obligations.CounterAndLevelReads := fun _ _ =>
  ⟨⟨decodeAccess_read_of_offset rfl rfl, rfl⟩, ⟨decodeAccess_read_of_offset rfl rfl, rfl⟩,
    ⟨decodeAccess_read_of_offset rfl rfl, rfl⟩, ⟨decodeAccess_read_of_offset rfl rfl, rfl⟩,
    ⟨decodeAccess_read_of_offset rfl rfl, rfl⟩, ⟨decodeAccess_read_of_offset rfl rfl, rfl⟩,
    ⟨decodeAccess_read_of_offset rfl rfl, _, rfl, MachineInv.encQ_level⟩,
    ⟨decodeAccess_read_of_offset rfl rfl, _, rfl, MachineInv.decQ_level⟩⟩

/-! ## ENC_OUT and DEC_OUT (R199, R200) -/

/-- The word of an output register, its fields written out (`10_state.md` R30, R31). -/
theorem outWord_eq (b : Byte) (last : Bool) :
    outWord (b, last) = (if last then 1#32 else 0) <<< 9 ||| 1 <<< 8 ||| b.setWidth 32 := by
  rw [outWord, placeField_at_zero]
  cases last <;> rfl

/-- A read of ENC_OUT from an empty queue. -/
theorem exec_rdEncOut_nil (hq : s.encQ = []) (a : Byte) : exec (.rdEncOut a) s = .next (returnData 0 s) := by
  simp only [exec, execRdEncOut, hq]

/-- A read of ENC_OUT from a queue with an entry. -/
theorem exec_rdEncOut_cons {e : Byte × Bool} {rest : List (Byte × Bool)} (hq : s.encQ = e :: rest) (a : Byte) :
    exec (.rdEncOut a) s = .next (returnData (outWord e) { s with encQ := rest }) := by
  simp only [exec, execRdEncOut, hq]

/-- A read of DEC_OUT from an empty queue. -/
theorem exec_rdDecOut_nil (hq : s.decQ = []) (a : Byte) : exec (.rdDecOut a) s = .next (returnData 0 s) := by
  simp only [exec, execRdDecOut, hq]

/-- A read of DEC_OUT from a queue with an entry. -/
theorem exec_rdDecOut_cons {e : Byte × Bool} {rest : List (Byte × Bool)} (hq : s.decQ = e :: rest) (a : Byte) :
    exec (.rdDecOut a) s = .next (returnData (outWord e) { s with decQ := rest }) := by
  simp only [exec, execRdDecOut, hq]

/-- Settles O26: a read of either queue, empty or not. -/
theorem outputReadsPop : Obligations.OutputReadsPop := by
  refine fun s a => ⟨decodeAccess_read_of_offset rfl rfl, decodeAccess_read_of_offset rfl rfl,
    fun hq => exec_rdEncOut_nil hq a, fun b last rest hq => ?encPop,
    fun hq => exec_rdDecOut_nil hq a, fun b last rest hq => ?decPop⟩
  case encPop => rw [exec_rdEncOut_cons hq, outWord_eq]; rfl
  case decPop => rw [exec_rdDecOut_cons hq, outWord_eq]; rfl

/-! ## Writes (R211 to R213) -/

/-- Settles O27: DEG_COUNT's own row, and of the other offsets only CMD's has an effect. -/
theorem degCountAndIgnoredWrites : Obligations.DegCountAndIgnoredWrites := by
  refine fun s a w => ⟨⟨decodeAccess_write_of_offset rfl rfl, rfl⟩, fun hcmd hdeg => ?ignored,
    rfl, rfl, rfl, rfl, rfl, rfl, rfl, rfl⟩
  case ignored =>
    obtain ⟨hw, he⟩ := encode_decodeAccess (.write a w)
    rcases write_cases hw he with ⟨-, ha⟩ | ⟨-, ha⟩ | hx
    · exact absurd ha hcmd
    · exact absurd ha hdeg
    · exact hx s

/-- Settles O28: a legal word is its command, which answers a next state; an illegal word records its error. -/
theorem cmdWriteExecutesItsWord : Obligations.CmdWriteExecutesItsWord := by
  refine fun s a w => ⟨decodeAccess_write_of_offset rfl rfl, fun c hc => ?legal, fun r hr => ?illegal⟩
  case legal =>
    obtain ⟨t, ht⟩ := exec_completes c s
    exact ⟨t, (executeWord_ok hc s).trans ht, ht⟩
  case illegal => exact (executeWord_error hr s).trans (by rw [cmdError_eq])

/-! ## Every access completes (R215, `60_exceptions.md` R242) -/

/-- No command takes an input or acknowledges one. -/
theorem CommandEffect.port_eq (h : CommandEffect s c t) : t.inputs = s.inputs ∧ t.ack = s.ack := by
  cases h with
  | tableLocked | busy => exact ⟨cmdError_inputs _ _, cmdError_ack _ _⟩
  | fed _ _ _ hu | feedFailed _ _ _ _ _ _ _ _ _ hu | truncated _ _ _ _ _ hu | decCommit _ _ _ _ _ hu =>
    obtain ⟨_, _, _, _, rfl⟩ := feedBits_update hu
    exact ⟨rfl, rfl⟩
  | _ => exact ⟨rfl, rfl⟩

/-- No instruction changes the depths, takes an input or acknowledges one. -/
theorem InstrEffect.cfg_port_eq (h : InstrEffect s i t) : t.cfg = s.cfg ∧ t.inputs = s.inputs ∧ t.ack = s.ack := by
  rcases h.command_or_frame with ⟨c, -, hc⟩ | hf
  · exact ⟨hc.cfg_eq, hc.port_eq⟩
  · rw [hf]
    exact ⟨rfl, rfl, rfl⟩

/-- Every instruction answers a next state with the same depths, inputs and acknowledge. -/
theorem exec_completes_cfg_port (i : Instr) (s : State) :
    ∃ t, exec i s = .next t ∧ t.cfg = s.cfg ∧ t.inputs = s.inputs ∧ t.ack = s.ack := by
  obtain ⟨t, ht⟩ := exec_completes i s
  exact ⟨t, ht, (exec_effect ht).cfg_port_eq⟩

/-- Settles O38: every instruction completes, and a step is an edge or one instruction after one input is taken. -/
theorem everyAccessCompletes : Obligations.EveryAccessCompletes := by
  refine ⟨exec_completes_cfg_port, fun s => ?step⟩
  case step =>
    rcases step_cases s with ⟨hs, hx⟩ | ⟨es, -, hx⟩ | ⟨a, es, -, hx⟩
    · exact ⟨_, hx, rfl, by simp [hs]⟩
    · exact ⟨_, hx, rfl, rfl⟩
    · obtain ⟨t, ht, hcfg, hins, -⟩ := exec_completes_cfg_port (decodeAccess a) (acceptAccess s)
      exact ⟨t, hx.trans ht, hcfg, hins⟩

end Sys2Proof.Machine
end

section
/-! SUPPORT. The block's exceptions (`60_exceptions.md`): what a command error leaves alone, what a unit records, discards
and keeps when it enters ERROR, and what can still write it there. -/

namespace Sys2Proof.Machine

variable {s t : State} {c i : Instr}

/-! ## Command errors (R224) -/

/-- A command after which a command error is newly recorded does nothing else. -/
theorem CommandEffect.eq_cmdError (h : CommandEffect s c t) (hs : s.cmdErr = .none) (ht : t.cmdErr ≠ .none) :
    ∃ e, t = cmdError e s := by
  cases h with
  | tableLocked | busy => exact ⟨_, rfl⟩
  | clrErr | reset => exact absurd rfl ht
  | fed _ _ _ hu | feedFailed _ _ _ _ _ _ _ _ _ hu | truncated _ _ _ _ _ hu | decCommit _ _ _ _ _ hu =>
    obtain ⟨_, _, _, _, rfl⟩ := feedBits_update hu
    exact absurd hs ht
  | _ => exact absurd hs ht

/-- An instruction after which a command error is newly recorded does nothing else. -/
theorem InstrEffect.eq_cmdError (h : InstrEffect s i t) (hs : s.cmdErr = .none) (ht : t.cmdErr ≠ .none) :
    ∃ e, t = cmdError e s := by
  cases h with
  | command c _ hc => exact hc.eq_cmdError hs ht
  | illegal => exact ⟨_, rfl⟩
  | _ => exact absurd hs ht

/-- Settles O39: what raises a command error is `cmdError` alone, and of the writers of CMD_ERR only the two clearing ones
find an error recorded. -/
theorem firstCommandErrorKept : Obligations.FirstCommandErrorKept := by
  refine fun i s t h => ⟨fun hs ht => ?raised, fun hs hne => ?kept⟩
  case raised =>
    obtain ⟨e, rfl⟩ := (exec_effect h).eq_cmdError hs ht
    rw [cmdError_eq]
  case kept =>
    rcases (exec_effect h).cmdErr_cases with he | ⟨hn, -⟩ | ⟨hn, -⟩ | ⟨hn, -⟩ | hcleared
    · exact absurd he hne
    · exact absurd hn hs
    · exact absurd hn hs
    · exact absurd hn hs
    · exact hcleared

/-! ## The encoder enters ERROR (R225) -/

/-- A command that takes the encoder into ERROR does one failure of the encoder and nothing else, but that it first stores
the symbol in ENC_ERRSYM where the symbol has no codeword. -/
theorem CommandEffect.eq_encFail (h : CommandEffect s c t) (hs : s.encSt ≠ .error) (ht : t.encSt = .error) :
    (∃ e ∈ [ErrCode.notLocked, .sequence, .overflow], t = encFail e s) ∨
      ∃ sym, t = encFail .unknownSymbol { s with encErrsym := sym } := by
  cases h with
  | encFailed _ _ _ e he => exact .inl ⟨e, by simpa using he, rfl⟩
  | unknownSymbol sym => exact .inr ⟨sym, rfl⟩
  | tableLocked | busy => exact absurd (cmdError_encSt _ _ ▸ ht) hs
  | reset | encStart | encEnd | encAbort => cases ht
  | fed _ _ _ hu | feedFailed _ _ _ _ _ _ _ _ _ hu | truncated _ _ _ _ _ hu | decCommit _ _ _ _ _ hu =>
    obtain ⟨_, _, _, _, rfl⟩ := feedBits_update hu
    exact absurd ht hs
  | _ => exact absurd ht hs

/-! ## The decoder enters ERROR (R226) -/

/-- Where in the message the command that `i` performs fails with the code `e`, in the state `u` that the FEEDs of the bits
`bs` of its own byte left: before any FEED, at one FEED, or after the final payload (`44_decoder.md` R171, R174, R178). -/
def DecFailsAfter (i : Instr) (bs : Bits) (s u : State) (e : ErrCode) : Prop :=
  (Performs i .decStart ∧ bs = [] ∧ e ∈ [.notLocked, .sequence, .tableError]) ∨
    ∃ last byte, Performs i (.decByte last byte) ∧
      ((s.decSt = .idle ∧ e = .sequence ∧ bs = []) ∨
        (s.decSt = .active ∧ last = true ∧ byte = 0 ∧ e = .malformedPadding ∧ bs = []) ∨
        (s.decSt = .active ∧ (last = true → byte ≠ 0) ∧ e ∈ [.excessBits, .tableError, .overflow] ∧
          ∃ b rest, bytePayload last byte = bs ++ b :: rest ∧ feed b u = .error (decFail e u)) ∨
        (s.decSt = .active ∧ last = true ∧ byte ≠ 0 ∧ bs = finalPayload byte ∧
          ((s.root.leaf = true ∧ e = .overflow) ∨
            (s.root.leaf = false ∧ u.decPos ≠ s.root.val ∧ e = .truncatedCode))))

/-- The failures of the decoder record one of seven codes. -/
theorem DecFailsAfter.code_mem {bs : Bits} {u : State} {e : ErrCode} (h : DecFailsAfter i bs s u e) :
    e ∈ [.notLocked, .sequence, .overflow, .malformedPadding, .truncatedCode, .tableError, .excessBits] := by
  rcases h with ⟨-, -, he⟩ | ⟨_, _, -, ⟨-, rfl, -⟩ | ⟨-, -, -, rfl, -⟩ | ⟨-, -, he, -⟩ |
    ⟨-, -, -, -, ⟨-, rfl⟩ | ⟨-, -, rfl⟩⟩⟩
  · fin_cases he <;> decide
  · decide
  · decide
  · fin_cases he <;> decide
  · decide
  · decide

/-- A command that takes the decoder into ERROR does FEEDs of its byte and then one failure of the decoder. -/
theorem CommandEffect.eq_decFail (h : CommandEffect s c t) (hp : Performs i c) (hs : s.decSt ≠ .error)
    (ht : t.decSt = .error) :
    ∃ bs u e, feedBits bs s = .ok u ∧ t = decFail e u ∧ DecFailsAfter i bs s u e := by
  cases h with
  | decStartFailed _ e he =>
    exact ⟨[], s, e, rfl, rfl, .inl ⟨hp, rfl, by rcases he with rfl | rfl | ⟨rfl, -⟩ <;> decide⟩⟩
  | byteInIdle last byte hi => exact ⟨[], s, _, rfl, rfl, .inr ⟨last, byte, hp, .inl ⟨hi, rfl, rfl⟩⟩⟩
  | malformedPadding ha =>
    exact ⟨[], s, _, rfl, rfl, .inr ⟨true, 0, hp, .inr (.inl ⟨ha, rfl, rfl, rfl, rfl⟩)⟩⟩
  | feedFailed last byte ha hz pre b rest u hpay hu e hf he =>
    exact ⟨pre, u, e, hu, rfl, .inr ⟨last, byte, hp, .inr (.inr (.inl ⟨ha, hz, he, b, rest, hpay, hf⟩))⟩⟩
  | degenerateOverflow byte ha hz hleaf hu =>
    exact ⟨_, s, _, hu, rfl, .inr ⟨true, byte, hp, .inr (.inr (.inr ⟨ha, rfl, hz, rfl, .inl ⟨hleaf, rfl⟩⟩))⟩⟩
  | truncated byte ha hz hleaf u hu hpos =>
    exact ⟨_, u, _, hu, rfl,
      .inr ⟨true, byte, hp, .inr (.inr (.inr ⟨ha, rfl, hz, rfl, .inr ⟨hleaf, hpos, rfl⟩⟩))⟩⟩
  | tableLocked | busy => exact absurd (cmdError_decSt _ _ ▸ ht) hs
  | fed _ _ _ hu =>
    obtain ⟨_, _, _, _, rfl⟩ := feedBits_update hu
    exact absurd ht hs
  | reset | decStart | degenerateCommit | decCommit | decAbort => cases ht
  | _ => exact absurd ht hs

/-- An instruction that changes the state of a unit performs a command. -/
theorem InstrEffect.command_of_unitSt_ne (h : InstrEffect s i t) (hne : t.encSt ≠ s.encSt ∨ t.decSt ≠ s.decSt) :
    ∃ c, Performs i c ∧ CommandEffect s c t := by
  refine h.command_or_frame.resolve_right fun hf => ?_
  rcases hne with hne | hne
  · exact absurd (congrArg State.encSt hf) hne
  · exact absurd (congrArg State.decSt hf) hne

/-- Settles O40: only a command changes the state of a unit, and into ERROR only by the unit's failure. -/
theorem unitErrorEntry : Obligations.UnitErrorEntry := by
  refine fun i s t h => ⟨fun hs ht => ?encoder, fun hs ht => ?decoder⟩
  case encoder =>
    obtain ⟨c, -, hc⟩ := (exec_effect h).command_of_unitSt_ne (.inl fun he => hs (he ▸ ht))
    rcases hc.eq_encFail hs ht with ⟨e, he, rfl⟩ | ⟨sym, rfl⟩
    · exact ⟨by fin_cases he <;> simp, rfl, fun _ => rfl⟩
    · exact ⟨by simp, rfl, fun hne => absurd rfl hne⟩
  case decoder =>
    obtain ⟨c, hp, hc⟩ := (exec_effect h).command_of_unitSt_ne (.inr fun he => hs (he ▸ ht))
    obtain ⟨bs, u, e, hu, rfl, hfails⟩ := hc.eq_decFail hp hs ht
    exact ⟨hfails.code_mem, bs, u, hu, rfl, hfails⟩

/-! ## A unit in ERROR (R227, R233) -/

/-- Of the commands only ENC_ABORT and RESET write the encoder in ERROR. -/
theorem CommandEffect.encoderView_of_error (h : CommandEffect s c t) (hs : s.encSt = .error) :
    encoderView t = encoderView s ∨ c = .encAbort ∨ c = .reset := by
  cases h with
  | encFailed _ _ hne => exact absurd hs hne
  | unknownSymbol _ ha | encStart ha | encSym _ ha | encEnd ha => exact nomatch ha.symm.trans hs
  | encAbort => exact .inr (.inl rfl)
  | reset => exact .inr (.inr rfl)
  | tableLocked | busy => exact .inl (by rw [cmdError_eq]; rfl)
  | fed _ _ _ hu | feedFailed _ _ _ _ _ _ _ _ _ hu | truncated _ _ _ _ _ hu | decCommit _ _ _ _ _ hu =>
    obtain ⟨_, _, _, _, rfl⟩ := feedBits_update hu
    exact .inl rfl
  | _ => exact .inl rfl

/-- Of the commands only DEC_ABORT and RESET write the decoder in ERROR. -/
theorem CommandEffect.decoderView_of_error (h : CommandEffect s c t) (hs : s.decSt = .error) :
    decoderView t = decoderView s ∨ c = .decAbort ∨ c = .reset := by
  cases h with
  | decStartFailed hne => exact absurd hs hne
  | decStart ha | byteInIdle _ _ ha | malformedPadding ha | fed _ ha | feedFailed _ _ ha | degenerateOverflow _ ha
  | degenerateCommit _ ha | truncated _ ha | decCommit _ ha => exact nomatch ha.symm.trans hs
  | decAbort => exact .inr (.inl rfl)
  | reset => exact .inr (.inr rfl)
  | tableLocked | busy => exact .inl (by rw [cmdError_eq]; rfl)
  | _ => exact .inl rfl

/-- An instruction performs a command, or leaves the encoder but for the pop of its queue. -/
theorem InstrEffect.encoderView_cases (h : InstrEffect s i t) :
    (∃ c, Performs i c ∧ CommandEffect s c t) ∨ encoderView t = encoderView s ∨
      ∃ a, i = .rdEncOut a ∧ encoderView t = encoderView { s with encQ := s.encQ.tail } := by
  cases h with
  | command c hp hc => exact .inl ⟨c, hp, hc⟩
  | encPop a hi e rest hq => exact .inr (.inr ⟨a, hi, by rw [hq]; rfl⟩)
  | illegal => exact .inr (.inl (by rw [cmdError_eq]; rfl))
  | _ => exact .inr (.inl rfl)

/-- An instruction performs a command, or leaves the decoder but for the pop of its queue and the write of DEG_COUNT. -/
theorem InstrEffect.decoderView_cases (h : InstrEffect s i t) :
    (∃ c, Performs i c ∧ CommandEffect s c t) ∨ decoderView t = decoderView s ∨
      (∃ a, i = .rdDecOut a ∧ decoderView t = decoderView { s with decQ := s.decQ.tail }) ∨
      ∃ a w, i = .wrDegCount a w ∧ decoderView t = decoderView { s with degCount := w } := by
  cases h with
  | command c hp hc => exact .inl ⟨c, hp, hc⟩
  | decPop a hi e rest hq => exact .inr (.inr (.inl ⟨a, hi, by rw [hq]; rfl⟩))
  | degCount a w hi => exact .inr (.inr (.inr ⟨a, w, hi, rfl⟩))
  | illegal => exact .inr (.inl (by rw [cmdError_eq]; rfl))
  | _ => exact .inr (.inl rfl)

/-- Settles O41: in ERROR a unit's other commands do nothing, and an access that performs no command pops or stores
DEG_COUNT at most. -/
theorem unitErrorsAreSticky : Obligations.UnitErrorsAreSticky := by
  refine fun i s t h => ⟨fun hs habort hreset => ?encoder, fun hs habort hreset => ?decoder⟩
  case encoder =>
    rcases (exec_effect h).encoderView_cases with ⟨c, hp, hc⟩ | haccess
    · rcases hc.encoderView_of_error hs with hv | rfl | rfl
      · exact .inl hv
      · exact absurd hp habort
      · exact absurd hp hreset
    · exact haccess
  case decoder =>
    rcases (exec_effect h).decoderView_cases with ⟨c, hp, hc⟩ | haccess
    · rcases hc.decoderView_of_error hs with hv | rfl | rfl
      · exact .inl hv
      · exact absurd hp habort
      · exact absurd hp hreset
    · exact haccess

end Sys2Proof.Machine
end

section
/-! SUPPORT. The reset edge (`70_reset_and_hazards.md` R246): the step that performs it, and the state it leaves. -/

namespace Sys2Proof.Machine

/-- With a reset edge presented next, a step resets the block. -/
theorem step_of_resetEdge {s : State} {es : List PortEvent} (h : s.inputs = .resetEdge :: es) :
    step s = .next (resetEdge s) := by
  simp only [step, h]

/-- A reset edge takes only itself from the inputs: what the host presents behind it waits. -/
theorem resetEdge_inputs_of_cons {s : State} {e : PortEvent} {es : List PortEvent} (h : s.inputs = e :: es) :
    (resetEdge s).inputs = es :=
  congrArg List.tail h

/-- The block comes up in the state a reset leaves. -/
theorem resetBlock_reset : resetBlock State.reset = State.reset := rfl

/-- The block comes up with the reset values. -/
theorem resetValues_reset : ResetValues State.reset :=
  resetBlock_reset ▸ resetValues_resetBlock State.reset

/-- A reset edge gives every component its reset value, as RESET does. -/
theorem resetValues_resetEdge (s : State) : ResetValues (resetEdge s) :=
  resetValues_resetBlock _

/-- Settles O4: the edge's step is the reset of the block, and an access behind it is accepted in the state the reset
leaves. -/
theorem resetEdgeGivesResetValues : Obligations.ResetEdgeGivesResetValues := by
  refine ⟨⟨resetValues_reset, resetValues_reset.statusWord_eq_zero⟩, fun s es hs => ?edge⟩
  have hvalues := resetValues_resetEdge s
  have hwaiting : (resetEdge s).inputs = es := resetEdge_inputs_of_cons hs
  refine ⟨resetEdge s, step_of_resetEdge hs, hvalues, hvalues.statusWord_eq_zero, rfl, hwaiting, rfl, rfl, ?firstAccess⟩
  intro a es' hes
  have hnext := hwaiting.trans hes
  rw [step_of_access hnext, acceptAccess_of_cons hnext]

end Sys2Proof.Machine
end
